-- ==== Sys2Proof/Word.lean ====
section
/-! DEFINITION. The widths of the block's values: bytes, port words, Keccak lanes, general registers
(spec/00_scope.md R6, R8, R9; spec/10_state.md R22; spec/45_keccak.md R230). -/

namespace Sys2Proof

/-- A byte (20_memory.md R60: "A byte is 8 bits"). -/
abbrev Byte := BitVec 8

/-- A value of the host port, a command word, a descriptor: 32 bits (00_scope.md R6, `XLEN_BUS`). -/
abbrev Word := BitVec 32

/-- A Keccak lane: 64 bits (45_keccak.md R230). -/
abbrev Lane := BitVec 64

/-- A general register: 256 bits (00_scope.md R6, `RLEN`; 10_state.md R22). -/
abbrev Reg := BitVec 256

end Sys2Proof
end

