-- ==== Sys2Proof/Config.lean ====
section
/-! DEFINITION. What an implementation fixes: the parameters a model takes (spec/00_scope.md R6) and the
identity constants (spec/10_state.md R33). The spec leaves no result open, so there is no free value here
(spec/93_implementation_defined.md, last paragraph of part 1). -/

namespace Sys2Proof

/-- The two open parameters of 00_scope.md R6 (92_eei_decisions.md D14, D16). They are arguments of the model:
the state carries them, and no step changes them (log 1, log 2). -/
structure Params where
  /-- `DMEM_BYTES`, the size of the data memory in bytes. -/
  dmemBytes : Nat
  /-- `NONCE_TRIES`, the greatest number of nonce candidates one command may draw. -/
  nonceTries : Nat
  deriving DecidableEq, Repr

/-- DESIGN CHOICE (log 1, log 2): the defaults that R6 names, `DMEM_BYTES = 4096` and `NONCE_TRIES = 16`. -/
def Config.defaultParams : Params := { dmemBytes := 4096, nonceTries := 16 }

/-- `ID`, the constant of 10_state.md R33 (ASCII "BQC1"). -/
def Config.idValue : Word := 0x42514331

/-- `VERSION`, the constant of 10_state.md R33 (7.0). -/
def Config.versionValue : Word := 0x00070000

/-- `LOWS_RESET`, the reset value of `CTRL.LOWS` (00_scope.md R6). -/
def Config.lowsReset : Bool := true

end Sys2Proof
end

