-- ==== Sys2Proof/Syntax.lean ====
section
/-! DEFINITION. The command set: one constructor for each of the 28 rows of spec/opcode_table.json
(spec/30_encoding.md R94), with the operands of its format (R90 to R92). -/

namespace Sys2Proof

/-- A register number: an unsigned 4-bit field, all 16 values legal (30_encoding.md R92). -/
abbrev RegNum := BitVec 4

/-- `msel`: the modulus of a modular command, 0 the field prime `p`, 1 the group order `n` (R90, R92, R120). -/
inductive Modulus where
  | fieldP
  | orderN
  deriving DecidableEq, Repr

/-- `comp` of format C: the 65-byte or the 33-byte point encoding (R90, R92, R160). -/
inductive PointForm where
  | uncompressed
  | compressed
  deriving DecidableEq, Repr

/-- The six formats of a command word (30_encoding.md R91). -/
inductive Format where
  | formatZ
  | formatM3
  | formatM2
  | formatRD
  | formatRA
  | formatC
  deriving DecidableEq, Repr

/-- The 28 commands (30_encoding.md R94). -/
inductive Instr where
  | nop
  | zeroize
  | montMul (rd ra rb : RegNum) (msel : Modulus)
  | toMont (rd ra : RegNum) (msel : Modulus)
  | fromMont (rd ra : RegNum) (msel : Modulus)
  | modMul (rd ra rb : RegNum) (msel : Modulus)
  | modAdd (rd ra rb : RegNum) (msel : Modulus)
  | modSub (rd ra rb : RegNum) (msel : Modulus)
  | modInv (rd ra : RegNum) (msel : Modulus)
  | modRed (rd ra : RegNum) (msel : Modulus)
  | pmulG
  | pmul
  | derive
  | pkEncode (comp : PointForm)
  | pkDecode
  | nonceFirst
  | nonceNext
  | signK
  | ecdsaSign
  | ecdsaVerify
  | keccakF1600
  | keccakInit
  | keccakAbsorb
  | keccakFinal (rd : RegNum)
  | keccak256 (rd : RegNum)
  | aes256Enc (ra : RegNum)
  | gcmEnc (ra : RegNum)
  | gcmDec (ra : RegNum)
  deriving DecidableEq, Repr

/-- The format column of 30_encoding.md R94. -/
def Instr.format : Instr → Format
  | .nop | .zeroize | .pmulG | .pmul | .derive | .pkDecode | .nonceFirst | .nonceNext | .signK
  | .ecdsaSign | .ecdsaVerify | .keccakF1600 | .keccakInit | .keccakAbsorb => .formatZ
  | .montMul .. | .modMul .. | .modAdd .. | .modSub .. => .formatM3
  | .toMont .. | .fromMont .. | .modInv .. | .modRed .. => .formatM2
  | .keccakFinal _ | .keccak256 _ => .formatRD
  | .aes256Enc _ | .gcmEnc _ | .gcmDec _ => .formatRA
  | .pkEncode _ => .formatC

/-- The register operands of a command, in the order `rd`, `ra`, `rb` of the fields it has (R91). -/
def Instr.regNums : Instr → List RegNum
  | .montMul rd ra rb _ | .modMul rd ra rb _ | .modAdd rd ra rb _ | .modSub rd ra rb _ => [rd, ra, rb]
  | .toMont rd ra _ | .fromMont rd ra _ | .modInv rd ra _ | .modRed rd ra _ => [rd, ra]
  | .keccakFinal rd | .keccak256 rd => [rd]
  | .aes256Enc ra | .gcmEnc ra | .gcmDec ra => [ra]
  | .nop | .zeroize | .pmulG | .pmul | .derive | .pkEncode _ | .pkDecode | .nonceFirst | .nonceNext
  | .signK | .ecdsaSign | .ecdsaVerify | .keccakF1600 | .keccakInit | .keccakAbsorb => []

end Sys2Proof
end

