-- ==== Sys2Proof/WellFormed.lean ====
section
/-! DEFINITION. What is well formed: a command word (spec/30_encoding.md R91, R94, written here from the rows'
masks, apart from the decoder), a command, and the parameters of the model (spec/00_scope.md R6). -/

namespace Sys2Proof

/-- The mask of fixed bits of a format (30_encoding.md R91). -/
def Format.fixedMask : Format → Word
  | .formatZ => 0xFFFFFFFF
  | .formatM3 => 0xFFE000FF
  | .formatM2 => 0xFFEF00FF
  | .formatRD => 0xFFFFF0FF
  | .formatRA => 0xFFFF0FFF
  | .formatC => 0xFFFFFEFF

/-- The rows of 30_encoding.md R94 as pairs (match, mask). -/
def opcodeRows : List (Word × Word) :=
  [(0x00000000, 0xFFFFFFFF), (0x00000001, 0xFFFFFFFF), (0x00000010, 0xFFE000FF), (0x00000011, 0xFFEF00FF),
   (0x00000012, 0xFFEF00FF), (0x00000013, 0xFFE000FF), (0x00000014, 0xFFE000FF), (0x00000015, 0xFFE000FF),
   (0x00000016, 0xFFEF00FF), (0x00000017, 0xFFEF00FF), (0x00000020, 0xFFFFFFFF), (0x00000021, 0xFFFFFFFF),
   (0x00000022, 0xFFFFFFFF), (0x00000023, 0xFFFFFEFF), (0x00000024, 0xFFFFFFFF), (0x00000030, 0xFFFFFFFF),
   (0x00000031, 0xFFFFFFFF), (0x00000038, 0xFFFFFFFF), (0x00000039, 0xFFFFFFFF), (0x00000040, 0xFFFFFFFF),
   (0x00000050, 0xFFFFFFFF), (0x00000051, 0xFFFFFFFF), (0x00000052, 0xFFFFFFFF), (0x00000053, 0xFFFFF0FF),
   (0x00000054, 0xFFFFF0FF), (0x00000060, 0xFFFF0FFF), (0x00000061, 0xFFFF0FFF), (0x00000062, 0xFFFF0FFF)]

/-- A word is an instance of a row exactly when `w & mask = match` (R91); it is a command when it is an
instance of some row. -/
def wordWellFormed (w : Word) : Bool := opcodeRows.any fun row => w &&& row.2 == row.1

/-- Register numbers are 0 to 15 (R92: "all 16 values are legal"). The type of a register number already says
so, and no other rule restricts an operand: every term of `Instr` is well formed
(`Laws.instr_wellFormed`, Laws/PerInstr.lean); what can be ill formed is a word. -/
def Instr.wellFormed (i : Instr) : Bool := i.regNums.all fun r => decide (r.toNat < 16)

/-- The ranges R6 gives the parameters: `DMEM_BYTES` a multiple of 4, at least 256, at most 2^31;
`NONCE_TRIES` at least 1. -/
def Params.valid (c : Params) : Bool :=
  decide (c.dmemBytes % 4 = 0) && decide (256 ≤ c.dmemBytes) && decide (c.dmemBytes ≤ 2 ^ 31)
    && decide (1 ≤ c.nonceTries)

end Sys2Proof
end

