-- ==== Sys2Proof/Decode.lean ====
section
/-! DEFINITION. The decoder, total on every 32-bit word (spec/30_encoding.md R95), and the encoder (R95, R98).
A command reaches the block by value, in the host's write to `CMD` (spec/10_state.md R31, R38): there is no
byte string to fetch and no length to find; a word is the whole command (R90). -/

namespace Sys2Proof

/-- Why a word is illegal (30_encoding.md R96): both complete with `IllegalCommand`. -/
inductive IllegalWord where
  /-- The opcode byte is none of the 28 of R94. -/
  | reservedOpcode (op : BitVec 8)
  /-- The opcode is legal and a bit its format fixes at 0 is 1. -/
  | strayBits (w : Word)
  deriving DecidableEq, Repr

/-- `op`, bits 7:0 (30_encoding.md R90). -/
def opField (w : Word) : BitVec 8 := w.extractLsb' 0 8

/-- `rd`, bits 11:8 (R90). -/
def rdField (w : Word) : RegNum := w.extractLsb' 8 4

/-- `ra`, bits 15:12 (R90). -/
def raField (w : Word) : RegNum := w.extractLsb' 12 4

/-- `rb`, bits 19:16 (R90). -/
def rbField (w : Word) : RegNum := w.extractLsb' 16 4

/-- `msel`, bit 20 (R90). -/
def mselField (w : Word) : Modulus := if w.getLsbD 20 then .orderN else .fieldP

/-- `comp`, bit 8 (R90, format C only). -/
def compField (w : Word) : PointForm := if w.getLsbD 8 then .compressed else .uncompressed

/-- The bits a format lets vary are the complement of its mask (R91). -/
def formatMask : Format → Word
  | .formatZ => 0xFFFFFFFF
  | .formatM3 => 0xFFE000FF
  | .formatM2 => 0xFFEF00FF
  | .formatRD => 0xFFFFF0FF
  | .formatRA => 0xFFFF0FFF
  | .formatC => 0xFFFFFEFF

/-- The row of an opcode byte (R94), with its fields read from `w` (R90); `none` for a reserved opcode. -/
def rowOf (w : Word) : Option Instr :=
  match (opField w).toNat with
  | 0x00 => some .nop
  | 0x01 => some .zeroize
  | 0x10 => some (.montMul (rdField w) (raField w) (rbField w) (mselField w))
  | 0x11 => some (.toMont (rdField w) (raField w) (mselField w))
  | 0x12 => some (.fromMont (rdField w) (raField w) (mselField w))
  | 0x13 => some (.modMul (rdField w) (raField w) (rbField w) (mselField w))
  | 0x14 => some (.modAdd (rdField w) (raField w) (rbField w) (mselField w))
  | 0x15 => some (.modSub (rdField w) (raField w) (rbField w) (mselField w))
  | 0x16 => some (.modInv (rdField w) (raField w) (mselField w))
  | 0x17 => some (.modRed (rdField w) (raField w) (mselField w))
  | 0x20 => some .pmulG
  | 0x21 => some .pmul
  | 0x22 => some .derive
  | 0x23 => some (.pkEncode (compField w))
  | 0x24 => some .pkDecode
  | 0x30 => some .nonceFirst
  | 0x31 => some .nonceNext
  | 0x38 => some .signK
  | 0x39 => some .ecdsaSign
  | 0x40 => some .ecdsaVerify
  | 0x50 => some .keccakF1600
  | 0x51 => some .keccakInit
  | 0x52 => some .keccakAbsorb
  | 0x53 => some (.keccakFinal (rdField w))
  | 0x54 => some (.keccak256 (rdField w))
  | 0x60 => some (.aes256Enc (raField w))
  | 0x61 => some (.gcmEnc (raField w))
  | 0x62 => some (.gcmDec (raField w))
  | _ => none

/-- Decoding (30_encoding.md R95): the opcode byte picks the row; the word is that command exactly when
`w & mask = op`. Every other word is illegal, and the reason is named. -/
def decode (w : Word) : Except IllegalWord Instr :=
  match rowOf w with
  | none => .error (.reservedOpcode (opField w))
  | some i => if w &&& formatMask i.format = (opField w).setWidth 32 then .ok i else .error (.strayBits w)

/-- The opcode byte of a command (30_encoding.md R94). -/
def opcode : Instr → BitVec 8
  | .nop => 0x00
  | .zeroize => 0x01
  | .montMul .. => 0x10
  | .toMont .. => 0x11
  | .fromMont .. => 0x12
  | .modMul .. => 0x13
  | .modAdd .. => 0x14
  | .modSub .. => 0x15
  | .modInv .. => 0x16
  | .modRed .. => 0x17
  | .pmulG => 0x20
  | .pmul => 0x21
  | .derive => 0x22
  | .pkEncode _ => 0x23
  | .pkDecode => 0x24
  | .nonceFirst => 0x30
  | .nonceNext => 0x31
  | .signK => 0x38
  | .ecdsaSign => 0x39
  | .ecdsaVerify => 0x40
  | .keccakF1600 => 0x50
  | .keccakInit => 0x51
  | .keccakAbsorb => 0x52
  | .keccakFinal _ => 0x53
  | .keccak256 _ => 0x54
  | .aes256Enc _ => 0x60
  | .gcmEnc _ => 0x61
  | .gcmDec _ => 0x62

/-- The `msel` bit of a modulus (R90). -/
def mselBit : Modulus → BitVec 1
  | .fieldP => 0
  | .orderN => 1

/-- The `comp` bit of a point form (R90). -/
def compBit : PointForm → BitVec 1
  | .uncompressed => 0
  | .compressed => 1

/-- A field of `width` bits placed at bit `lo` of a word, all else 0. -/
def atBit {width : Nat} (lo : Nat) (f : BitVec width) : Word := f.setWidth 32 <<< lo

/-- Encoding (30_encoding.md R95): `w = op | rd << 8 | ra << 12 | rb << 16 | msel << 20`, each format with the
fields it has, and `w = op | comp << 8` in format C. -/
def encode (i : Instr) : Word :=
  match i with
  | .montMul rd ra rb m | .modMul rd ra rb m | .modAdd rd ra rb m | .modSub rd ra rb m =>
      atBit 0 (opcode i) ||| atBit 8 rd ||| atBit 12 ra ||| atBit 16 rb ||| atBit 20 (mselBit m)
  | .toMont rd ra m | .fromMont rd ra m | .modInv rd ra m | .modRed rd ra m =>
      atBit 0 (opcode i) ||| atBit 8 rd ||| atBit 12 ra ||| atBit 20 (mselBit m)
  | .keccakFinal rd | .keccak256 rd => atBit 0 (opcode i) ||| atBit 8 rd
  | .aes256Enc ra | .gcmEnc ra | .gcmDec ra => atBit 0 (opcode i) ||| atBit 12 ra
  | .pkEncode c => atBit 0 (opcode i) ||| atBit 8 (compBit c)
  | .nop | .zeroize | .pmulG | .pmul | .derive | .pkDecode | .nonceFirst | .nonceNext | .signK
  | .ecdsaSign | .ecdsaVerify | .keccakF1600 | .keccakInit | .keccakAbsorb => atBit 0 (opcode i)

/-- The command word of `nbits` bits `w`, every bit above `nbits` being 0. -/
def tableWord (nbits w : Nat) : Word := BitVec.ofNat 32 (w % 2 ^ nbits)

/-- The instruction the decoder reads from an opcode-table word: a command is one 32-bit word given by value
(30_encoding.md R90), so the decoder is applied to the word itself; a value that does not fit 32 bits is no
command word. -/
def decodeTableWord (nbits w : Nat) : Option Instr :=
  if 2 ^ 32 ≤ w % 2 ^ nbits then none
  else
    match decode (tableWord nbits w) with
    | .ok i => some i
    | .error _ => none

end Sys2Proof
end

