-- ==== Sys2Proof/Machine/State.lean ====
section
/-! DEFINITION. The state as plain data (spec/10_state.md R21), its value after reset (R44), the names of the
errors (spec/60_exceptions.md R290), and the ways a step can stop (none is used by this hardware). -/

namespace Sys2Proof.Machine

/-- The error kinds of 60_exceptions.md R290. Code 0, success, is no constructor. -/
inductive ErrCode where
  | invalidEncoding
  | invalidKey
  | invalidPublicKey
  | invalidSignature
  | authenticationFailure
  | illegalCommand
  | badRange
  | operandRange
  | badNonce
  | retry
  | sequence
  | nonceExhausted
  deriving DecidableEq, Repr

/-- `CTRL` (10_state.md R34). Reserved bits hold nothing (93_implementation_defined.md U7). -/
structure Ctrl where
  ie : Bool
  lows : Bool
  deriving DecidableEq, Repr

/-- The stored bits of `STATUS` (10_state.md R35); `ERRF` and `DRBGV` are computed. -/
structure Status where
  busy : Bool
  done : Bool
  err : BitVec 8
  deriving DecidableEq, Repr

/-- The flags of `RESULT` (10_state.md R32, R39). -/
structure ResultFlags where
  valid : Bool
  inf : Bool
  parity : Bool
  deriving DecidableEq, Repr

/-- The response of the host port (20_memory.md R61): a read that is accepted returns a word, a write that is
accepted returns OK, and any other access returns `BUSERR` and no value. -/
inductive PortResponse where
  | okRead (v : Word)
  | okWrite
  | busErr
  deriving DecidableEq, Repr

/-- One step of the world outside or of the engine (10_state.md R20): a host read or write of a byte address
of the window, the engine's turn, a reset. -/
inductive Event where
  | hostRead (a : Nat)
  | hostWrite (a : Nat) (v : Word)
  | engine
  | reset
  deriving DecidableEq, Repr

/-- DMEM as the list of its bytes that are not at their reset value 0x00 (10_state.md R44), by rising offset. -/
abbrev Memory := List Host.Cell

/-- The whole state. The first group is 10_state.md R21, item by item; the last three fields and `params` are
the model's own (logs 1 to 4). -/
structure State where
  /-- `DMEM_BYTES` and `NONCE_TRIES` (00_scope.md R6); no step changes them. -/
  params : Params
  /-- `R[0]` to `R[15]` (R22). -/
  regs : Vector Reg 16
  /-- `IV[0..12)` (R36). -/
  iv : Vector Byte 12
  /-- `KSTATE[0..200)` (R37). -/
  kstate : Vector Byte 200
  /-- DMEM (20_memory.md R60, R66). -/
  dmem : Memory
  /-- `DRBG_K`, the 32-byte string read as a big-endian number (R41). -/
  drbgK : Reg
  /-- `DRBG_V`, the same (R41). -/
  drbgV : Reg
  /-- `DRBG_VALID` (R41). -/
  drbgValid : Bool
  ctrl : Ctrl
  status : Status
  /-- `CMD` (R38). -/
  cmd : Word
  result : ResultFlags
  srcOff : Word
  srcLen : Word
  aadOff : Word
  aadLen : Word
  dstOff : Word
  dstLen : Word
  /-- What moves next, oldest first; an empty list leaves every turn to the engine (log 3). -/
  schedule : List Event
  /-- The port's answer to the last host access taken (log 4). -/
  response : Option PortResponse
  deriving DecidableEq, Repr

/-- The machine stops with a fault: never. The spec has no condition that stops the block ("Nothing in this
hardware is `stuck`", 93_implementation_defined.md part 1), so there is no constructor (log 5). -/
inductive Fault where
  deriving DecidableEq, Repr

/-- No meaning for an instruction. -/
inductive Refusal where
  /-- Raised by `exec` for a command that has no meaning yet. Safe: nothing follows from it. No arm of `exec`
  raises it in this model. -/
  | notModelled (mnemonic : String)
  deriving DecidableEq, Repr

/-- Reset with given parameters (10_state.md R44, 70_reset_and_hazards.md R330): every bit of state 0 except
`CTRL.LOWS`. -/
def State.resetWith (c : Params) (events : List Event) : State :=
  { params := c
    regs := Vector.replicate 16 0
    iv := Vector.replicate 12 0
    kstate := Vector.replicate 200 0
    dmem := []
    drbgK := 0
    drbgV := 0
    drbgValid := false
    ctrl := { ie := false, lows := Config.lowsReset }
    status := { busy := false, done := false, err := 0 }
    cmd := 0
    result := { valid := false, inf := false, parity := false }
    srcOff := 0
    srcLen := 0
    aadOff := 0
    aadLen := 0
    dstOff := 0
    dstLen := 0
    schedule := events
    response := none }

/-- The machine right after reset, with the default parameters and nothing scheduled (log 1 to log 4). -/
def State.reset : State := State.resetWith Config.defaultParams []

end Sys2Proof.Machine
end

