-- ==== Sys2Proof/Machine/Memory.lean ====
section
/-! DEFINITION. DMEM: one byte, a byte string, and the canonical form (spec/20_memory.md R60, R66, R76;
spec/00_scope.md R10). -/

namespace Sys2Proof.Machine

/-- What an unlisted offset reads as: every byte of DMEM is 0x00 after reset (10_state.md R44). -/
def Memory.unlisted : Byte := 0

/-- The byte at an offset. -/
def Memory.readByte (m : Memory) (off : Nat) : Byte :=
  match m with
  | [] => Memory.unlisted
  | (k, v) :: rest => if k = off then v else Memory.readByte rest off

/-- Put a cell before the first cell of a higher offset. -/
def Memory.insertCell (m : Memory) (off : Nat) (b : Byte) : Memory :=
  match m with
  | [] => [(off, b)]
  | (k, v) :: rest => if off < k then (off, b) :: (k, v) :: rest else (k, v) :: Memory.insertCell rest off b

/-- Write one byte, keeping the canonical form: the old cell goes, and a new one comes only when the byte is
not the value an unlisted offset reads as. -/
def Memory.writeByte (m : Memory) (off : Nat) (b : Byte) : Memory :=
  let others := m.filter fun c => c.1 != off
  if b = Memory.unlisted then others else Memory.insertCell others off b

/-- `MemRead(off, n)` (00_scope.md R10): the `n` bytes from `off` on, ascending. -/
def Memory.readBytes (m : Memory) (off n : Nat) : List Byte :=
  (List.range n).map fun i => m.readByte (off + i)

/-- `MemWrite(off, n, b)` (00_scope.md R10), `n` being the length of the string. -/
def Memory.writeBytes (m : Memory) (off : Nat) (bytes : List Byte) : Memory :=
  match bytes with
  | [] => m
  | b :: rest => Memory.writeBytes (m.writeByte off b) (off + 1) rest

/-- The canonical form: offsets strictly rising, no listed byte equal to the unlisted value. -/
def Memory.wf (m : Memory) : Bool :=
  match m with
  | [] => true
  | (_, v) :: [] => v != Memory.unlisted
  | (k, v) :: (k', v') :: rest => v != Memory.unlisted && decide (k < k') && Memory.wf ((k', v') :: rest)

/-- Every listed offset lies below `bound`. -/
def Memory.within (m : Memory) (bound : Nat) : Bool := m.all fun c => decide (c.1 < bound)

end Sys2Proof.Machine
end

