-- ==== Sys2Proof/Machine/Operands.lean ====
section
/-! DEFINITION. Byte strings and integers (spec/00_scope.md R9), the operand forms of the commands
(spec/30_encoding.md R92: registers by number, registers as byte strings, descriptor ranges), the range check
(spec/20_memory.md R75). -/

namespace Sys2Proof.Machine

/-- `be_k(v)` (R9): the `k`-byte big-endian string of `v`. -/
def be (k v : Nat) : List Byte :=
  match k with
  | 0 => []
  | k + 1 => BitVec.ofNat 8 (v >>> (8 * k)) :: be k v

/-- `int(b)` (R9): the integer whose big-endian string is `b`. -/
def beInt (bytes : List Byte) : Nat := bytes.foldl (fun acc b => acc * 256 + b.toNat) 0

/-- `le64(b)` (R9), for a string of any length: `sum of b[i] << (8*i)`. -/
def leInt (bytes : List Byte) : Nat :=
  match bytes with
  | [] => 0
  | b :: rest => b.toNat + 256 * leInt rest

/-- The `k`-byte little-endian string of `v`, the inverse of `leInt`. -/
def le (k v : Nat) : List Byte :=
  match k with
  | 0 => []
  | k + 1 => BitVec.ofNat 8 v :: le k (v >>> 8)

/-- `be256(v)` (R9). -/
def be256 (v : Reg) : List Byte := be 32 v.toNat

/-- `0x00*k` (R9). -/
def zeros (k : Nat) : List Byte := List.replicate k 0

/-- Bytewise exclusive or of two strings, as long as the shorter one (R7: equal widths). -/
def xorBytes (a b : List Byte) : List Byte := List.zipWith (· ^^^ ·) a b

/-- Cut a list into consecutive pieces of `k`, the last possibly shorter; `fuel` is at least the number of
pieces. -/
def piecesFuel {α : Type} (k fuel : Nat) (l : List α) : List (List α) :=
  match fuel with
  | 0 => []
  | fuel + 1 =>
    match l with
    | [] => []
    | a :: rest => (a :: rest).take k :: piecesFuel k fuel ((a :: rest).drop k)

/-- Consecutive pieces of `k` elements (`k > 0`), the last possibly shorter. -/
def pieces {α : Type} (k : Nat) (l : List α) : List (List α) := piecesFuel k l.length l

/-- A list as a vector of `n`: cut, or filled with `fill`. Every use has a list of exactly `n`. -/
def toVector {α : Type} (n : Nat) (fill : α) (l : List α) : Vector α n :=
  ⟨((l ++ List.replicate n fill).take n).toArray, by simp⟩

/-- A 32-bit word of four bytes, the first in bits 31:24 (20_memory.md R67). -/
def wordOfBytes (bytes : List Byte) : Word := BitVec.ofNat 32 (beInt bytes)

/-- The four bytes of a word, bits 31:24 first (20_memory.md R67). -/
def bytesOfWord (w : Word) : List Byte := be 4 w.toNat

/-- `R[i]` (00_scope.md R10). -/
def State.reg (s : State) (i : RegNum) : Reg := s.regs[i.toNat]

/-- `R[i]` as an unsigned integer (10_state.md R22). -/
def State.regNat (s : State) (i : RegNum) : Nat := (s.reg i).toNat

/-- `R[i]` as its 32-byte string, the form of a key (10_state.md R22, 46_aes_gcm.md R250). -/
def State.regBytes (s : State) (i : RegNum) : List Byte := be256 (s.reg i)

/-- The range check (20_memory.md R75), in unbounded integers: `off + len <= DMEM_BYTES`. -/
def State.inRange (s : State) (off len : Nat) : Bool := decide (off + len ≤ s.params.dmemBytes)

/-- `MemRead(off, n)` on the state (00_scope.md R10). -/
def State.memRead (s : State) (off n : Nat) : List Byte := s.dmem.readBytes off n

/-- The source range named by `SRC_OFF` and `SRC_LEN` (10_state.md R40). -/
def State.srcInRange (s : State) : Bool := s.inRange s.srcOff.toNat s.srcLen.toNat

/-- The bytes of the source range. -/
def State.srcBytes (s : State) : List Byte := s.memRead s.srcOff.toNat s.srcLen.toNat

/-- The associated-data range named by `AAD_OFF` and `AAD_LEN` (10_state.md R40). -/
def State.aadInRange (s : State) : Bool := s.inRange s.aadOff.toNat s.aadLen.toNat

/-- The bytes of the associated-data range. -/
def State.aadBytes (s : State) : List Byte := s.memRead s.aadOff.toNat s.aadLen.toNat

/-- A destination range of `n` bytes at `DST_OFF` (20_memory.md R78). -/
def State.dstInRange (s : State) (n : Nat) : Bool := s.inRange s.dstOff.toNat n

/-- The aliases of 10_state.md R23. -/
def regD : RegNum := 0
def regZ : RegNum := 1
def regK : RegNum := 2
def regSigR : RegNum := 3
def regSigS : RegNum := 4
def regQx : RegNum := 5
def regQy : RegNum := 6
def regPx : RegNum := 8
def regPy : RegNum := 9

end Sys2Proof.Machine
end

