-- ==== Sys2Proof/Machine/Aes.lean ====
section
/-! DEFINITION. The AES-256 forward cipher (spec/46_aes_gcm.md R250 to R254). -/

namespace Sys2Proof.Machine

/-- `xt(a)`, multiplication by `x` in GF(2^8) (46_aes_gcm.md R251). -/
def xtime (a : Byte) : Byte := if a.getLsbD 7 then (a <<< 1) ^^^ 0x1B else a <<< 1

/-- `mul3(a)` (R251); `mul2` is `xtime`. -/
def mul3 (a : Byte) : Byte := xtime a ^^^ a

/-- The rows of the S-box (46_aes_gcm.md R252), each the 16 entries of a row, column 0 leading. -/
def sboxRows : List Nat :=
  [0x637c777bf26b6fc53001672bfed7ab76, 0xca82c97dfa5947f0add4a2af9ca472c0,
   0xb7fd9326363ff7cc34a5e5f171d83115, 0x04c723c31896059a071280e2eb27b275,
   0x09832c1a1b6e5aa0523bd6b329e32f84, 0x53d100ed20fcb15b6acbbe394a4c58cf,
   0xd0efaafb434d338545f9027f503c9fa8, 0x51a3408f929d38f5bcb6da2110fff3d2] ++
  [0xcd0c13ec5f974417c4a77e3d645d1973, 0x60814fdc222a908846eeb814de5e0bdb,
   0xe0323a0a4906245cc2d3ac629195e479, 0xe7c8376d8dd54ea96c56f4ea657aae08,
   0xba78252e1ca6b4c6e8dd741f4bbd8b8a, 0x703eb5664803f60e613557b986c11d9e,
   0xe1f8981169d98e949b1e87e9ce5528df, 0x8ca1890dbfe6426841992d0fb054bb16]

/-- `SBOX[a]`: row `a / 16`, column `a % 16` (R252). -/
def sbox (a : Byte) : Byte :=
  BitVec.ofNat 8 (sboxRows.getD (a.toNat / 16) 0 >>> (8 * (15 - a.toNat % 16)))

/-- `RCON[1..7]` (46_aes_gcm.md R253). -/
def rcon (i : Nat) : Byte := BitVec.ofNat 8 (2 ^ (i - 1))

/-- `t` of the key expansion for word `i`, from the word before it (R253). -/
def expandStep (i : Nat) (prev : List Byte) : List Byte :=
  let s := prev.map sbox
  if i % 8 = 0 then [s.getD 1 0 ^^^ rcon (i / 8), s.getD 2 0, s.getD 3 0, s.getD 0 0]
  else if i % 8 = 4 then s
  else prev

/-- Key expansion by `count` words from word `i` on; `back` holds the words so far, the latest first, so that
`w[i-1]` is its head and `w[i-8]` element 7 (R253). -/
def expandKeyFrom (count i : Nat) (back : List (List Byte)) : List (List Byte) :=
  match count with
  | 0 => back
  | count + 1 =>
    expandKeyFrom count (i + 1) (xorBytes (back.getD 7 []) (expandStep i (back.headD [])) :: back)

/-- The 15 round keys of 16 bytes (46_aes_gcm.md R253). -/
def roundKeys (key : List Byte) : List (List Byte) :=
  pieces 16 (expandKeyFrom 52 8 (pieces 4 key).reverse).reverse.flatten

/-- ShiftRows (46_aes_gcm.md R254): `s'[4c + r] = s[4*((c + r) mod 4) + r]`. -/
def shiftRows (st : List Byte) : List Byte :=
  (List.range 16).map fun i => st.getD (4 * ((i / 4 + i % 4) % 4) + i % 4) 0

/-- MixColumns on one column (46_aes_gcm.md R254). -/
def mixColumn (col : List Byte) : List Byte :=
  let a0 := col.getD 0 0
  let a1 := col.getD 1 0
  let a2 := col.getD 2 0
  let a3 := col.getD 3 0
  [xtime a0 ^^^ mul3 a1 ^^^ a2 ^^^ a3, a0 ^^^ xtime a1 ^^^ mul3 a2 ^^^ a3,
   a0 ^^^ a1 ^^^ xtime a2 ^^^ mul3 a3, mul3 a0 ^^^ a1 ^^^ a2 ^^^ xtime a3]

/-- MixColumns (46_aes_gcm.md R254). -/
def mixColumns (st : List Byte) : List Byte := (pieces 4 st).flatMap mixColumn

/-- Rounds 1 to 14 on the list of the remaining round keys; the last has no MixColumns (46_aes_gcm.md R254). -/
def aesRounds (keys : List (List Byte)) (st : List Byte) : List Byte :=
  match keys with
  | [] => st
  | [k] => xorBytes (shiftRows (st.map sbox)) k
  | k :: rest => aesRounds rest (xorBytes (mixColumns (shiftRows (st.map sbox))) k)

/-- `aes256_enc(key, blk)` (46_aes_gcm.md R254). -/
def aes256 (key blk : List Byte) : List Byte :=
  match roundKeys key with
  | [] => blk
  | k0 :: rest => aesRounds rest (xorBytes blk k0)

end Sys2Proof.Machine
end

