-- ==== Sys2Proof/Machine/Flags.lean ====
section
/-! DEFINITION. The flags (spec/10_state.md R32): the three bits of `RESULT`, the error code with its numbers
(spec/60_exceptions.md R290), the words the host reads them in (R34, R35, R39), and the interrupt line (R43). -/

namespace Sys2Proof.Machine

/-- `RESULT <- 0`. -/
def noFlags : ResultFlags := { valid := false, inf := false, parity := false }

/-- `RESULT` of the verifier: `VALID` is the boolean, the rest 0 (44_ecdsa_verify.md R221). -/
def validFlag (v : Bool) : ResultFlags := { valid := v, inf := false, parity := false }

/-- `RESULT` of an infinite product (41_point.md R157). -/
def infFlag : ResultFlags := { valid := false, inf := true, parity := false }

/-- `RESULT` of a command that produces or handles a `y` coordinate: `PARITY = y[0]` (10_state.md R32). -/
def parityFlag (y : Nat) : ResultFlags := { valid := false, inf := false, parity := y.testBit 0 }

/-- The codes of 60_exceptions.md R290. -/
def ErrCode.code : ErrCode → BitVec 8
  | .invalidEncoding => 0x01
  | .invalidKey => 0x02
  | .invalidPublicKey => 0x03
  | .invalidSignature => 0x04
  | .authenticationFailure => 0x05
  | .illegalCommand => 0x10
  | .badRange => 0x11
  | .operandRange => 0x12
  | .badNonce => 0x13
  | .retry => 0x14
  | .sequence => 0x15
  | .nonceExhausted => 0x16

/-- A bit at a place of a 32-bit word. -/
def bitAt (b : Bool) (i : Nat) : Word := if b then 1 <<< i else 0

/-- `STATUS.ERRF`: 1 exactly when `ERR != 0` (10_state.md R35). -/
def State.errf (s : State) : Bool := s.status.err != 0

/-- `CTRL` as the host reads it (10_state.md R34). -/
def State.ctrlWord (s : State) : Word := bitAt s.ctrl.ie 0 ||| bitAt s.ctrl.lows 1

/-- `STATUS` as the host reads it (10_state.md R35). -/
def State.statusWord (s : State) : Word :=
  bitAt s.status.busy 0 ||| bitAt s.status.done 1 ||| bitAt s.errf 2 ||| bitAt s.drbgValid 3
    ||| s.status.err.setWidth 32 <<< 8

/-- `RESULT` as the host reads it (10_state.md R32, R39). -/
def State.resultWord (s : State) : Word :=
  bitAt s.result.valid 0 ||| bitAt s.result.inf 1 ||| bitAt s.result.parity 2

/-- The output `IRQ` (10_state.md R43, 60_exceptions.md R303): `STATUS.DONE & CTRL.IE`, a level. -/
def State.irq (s : State) : Bool := s.status.done && s.ctrl.ie

end Sys2Proof.Machine
end

