-- ==== Sys2Proof/Machine/Ops.lean ====
section
/-! DEFINITION. The named operations every command is made of: register and memory writes, issue
(spec/10_state.md R46), completion (R47), and the error commit (spec/60_exceptions.md R296), which is this
hardware's taking of an exception (R298), with the host's acknowledgement beside it (R299). -/

namespace Sys2Proof.Machine

/-- `R[i] <- v` (00_scope.md R10). -/
def State.setReg (s : State) (i : RegNum) (v : Reg) : State := { s with regs := s.regs.set i.toNat v }

/-- `R[i] <- v` for an integer already below 2^256. -/
def State.setRegNat (s : State) (i : RegNum) (v : Nat) : State := s.setReg i (BitVec.ofNat 256 v)

/-- `KSTATE <- b` for a 200-byte string. -/
def State.setKstate (s : State) (bytes : List Byte) : State := { s with kstate := toVector 200 0 bytes }

/-- `MemWrite(off, n, b)` on the state (00_scope.md R10). -/
def State.memWrite (s : State) (off : Nat) (bytes : List Byte) : State :=
  { s with dmem := s.dmem.writeBytes off bytes }

/-- `DST_LEN <- n`. -/
def State.setDstLen (s : State) (n : Nat) : State := { s with dstLen := BitVec.ofNat 32 n }

/-- `MemWrite(DST_OFF, n, b)` and `DST_LEN <- n`, `n` the length of `b` (10_state.md R40). -/
def State.memOutput (s : State) (bytes : List Byte) : State :=
  (s.memWrite s.dstOff.toNat bytes).setDstLen bytes.length

/-- `DRBG_K <- kd ; DRBG_V <- vd ; DRBG_VALID <- 1` (10_state.md R41). -/
def State.setDrbg (s : State) (kd vd : List Byte) : State :=
  { s with drbgK := BitVec.ofNat 256 (beInt kd), drbgV := BitVec.ofNat 256 (beInt vd), drbgValid := true }

/-- Issue (10_state.md R46): `CMD <- w`, busy, not done, no error, `RESULT <- 0`; nothing else changes. -/
def State.issue (s : State) (w : Word) : State :=
  { s with cmd := w, status := { busy := true, done := false, err := 0 }, result := noFlags }

/-- The successful completion of R47: `RESULT <- flags ; ERR <- 0 ; BUSY <- 0 ; DONE <- 1`. -/
def State.complete (s : State) (flags : ResultFlags) : State :=
  { s with result := flags, status := { busy := false, done := true, err := 0 } }

/-- TAKING AN EXCEPTION on this hardware, the error commit (60_exceptions.md R296, R298): none of the command's
writes, `RESULT <- 0`, the code into `STATUS.ERR`, `BUSY <- 0`, `DONE <- 1`, and `DST_LEN <- 0` for the four
commands that write DMEM. Nothing is saved and control goes nowhere. -/
def State.errorCommit (s : State) (clearsDstLen : Bool) (e : ErrCode) : State :=
  { s with
    result := noFlags
    status := { busy := false, done := true, err := e.code }
    dstLen := if clearsDstLen then 0 else s.dstLen }

/-- The RETURN (60_exceptions.md R299): the host acknowledges a completion by clearing `STATUS.DONE`. -/
def State.acknowledge (s : State) : State := { s with status := { s.status with done := false } }

/-- What a command computes (10_state.md R47, `Exec`): its writes applied to the state, with the flags it
produces, or one error. -/
abbrev CommandResult := Except ErrCode (State × ResultFlags)

/-- The commit of R47: all of a command's writes and flags, or its error and no write. -/
def State.commit (s : State) (clearsDstLen : Bool) (r : CommandResult) : State :=
  match r with
  | .ok (t, flags) => t.complete flags
  | .error e => s.errorCommit clearsDstLen e

/-- A command whose error leaves `DST_LEN` alone: the whole `complete` step is a next state. -/
def finish (s : State) (r : CommandResult) : Host.Outcome State Fault Refusal := .next (s.commit false r)

/-- A command that writes DMEM (`PK_ENCODE`, `AES256_ENC`, `GCM_ENC`, `GCM_DEC`): an error clears `DST_LEN`. -/
def finishOutput (s : State) (r : CommandResult) : Host.Outcome State Fault Refusal := .next (s.commit true r)

/-- `IllegalCommand` (60_exceptions.md R291): no other change, and `DST_LEN` is unchanged whatever the opcode
byte. -/
def State.illegal (s : State) : State := s.errorCommit false .illegalCommand

/-- `ZEROIZE`'s writes (47_system.md R281). -/
def State.zeroized (s : State) : State :=
  { s with
    regs := Vector.replicate 16 0
    iv := Vector.replicate 12 0
    kstate := Vector.replicate 200 0
    dmem := []
    drbgK := 0
    drbgV := 0
    drbgValid := false
    srcOff := 0
    srcLen := 0
    aadOff := 0
    aadLen := 0
    dstOff := 0
    dstLen := 0 }

end Sys2Proof.Machine
end

