-- ==== Sys2Proof/Machine/Gcm.lean ====
section
/-! DEFINITION. GCM over AES-256 (spec/46_aes_gcm.md R263 to R269) and the commands of the family (R262, R270,
R271). -/

namespace Sys2Proof.Machine

/-- The loop of `gmul` (46_aes_gcm.md R263) for string bits `i` with `count` bits to go, the next bit of `X`
being integer bit `count - 1`. -/
def gmulLoop (count : Nat) (x v z : BitVec 128) : BitVec 128 :=
  match count with
  | 0 => z
  | count + 1 =>
    gmulLoop count x (if v.getLsbD 0 then (v >>> 1) ^^^ (0xE1#128 <<< 120) else v >>> 1)
      (if x.getLsbD count then z ^^^ v else z)

/-- The product of GF(2^128) on blocks held as integers (46_aes_gcm.md R263). -/
def gmul (x y : BitVec 128) : BitVec 128 := gmulLoop 128 x y 0

/-- `int(block)` of a 16-byte block. -/
def blockInt (b : List Byte) : BitVec 128 := BitVec.ofNat 128 (beInt b)

/-- `ghash(H, data)` (46_aes_gcm.md R264). -/
def ghash (h : BitVec 128) (data : List Byte) : BitVec 128 :=
  (pieces 16 data).foldl (fun y b => gmul (y ^^^ blockInt b) h) 0

/-- `J0 = IV ‖ 00 00 00 01` (46_aes_gcm.md R265). -/
def counterBlock0 (iv : List Byte) : List Byte := iv ++ be 4 1

/-- `inc32(cb)` (46_aes_gcm.md R266). -/
def inc32 (cb : List Byte) : List Byte := cb.take 12 ++ be 4 ((beInt (cb.drop 12) + 1) % 2 ^ 32)

/-- The blocks of `gctr` from counter block `cb` on (46_aes_gcm.md R267). -/
def gctrBlocks (key cb : List Byte) (blocks : List (List Byte)) : List Byte :=
  match blocks with
  | [] => []
  | b :: rest => xorBytes b (aes256 key cb) ++ gctrBlocks key (inc32 cb) rest

/-- `gctr(key, icb, data)` (46_aes_gcm.md R267). -/
def gctr (key icb data : List Byte) : List Byte := gctrBlocks key icb (pieces 16 data)

/-- `pad16(b)` (46_aes_gcm.md R268). -/
def pad16 (b : List Byte) : List Byte := b ++ zeros ((16 - b.length % 16) % 16)

/-- `gcm_tag(key, IV, aad, ct)` (46_aes_gcm.md R268): 16 bytes, all kept. -/
def gcmTag (key iv aad ct : List Byte) : List Byte :=
  let h := blockInt (aes256 key (zeros 16))
  let s := ghash h (pad16 aad ++ pad16 ct ++ be 8 (8 * aad.length) ++ be 8 (8 * ct.length))
  xorBytes (aes256 key (counterBlock0 iv)) (be 16 s.toNat)

/-- `gcm_enc(key, IV, aad, pt)` (46_aes_gcm.md R269): the ciphertext with the tag appended. -/
def gcmEncrypt (key iv aad pt : List Byte) : List Byte :=
  let ct := gctr key (inc32 (counterBlock0 iv)) pt
  ct ++ gcmTag key iv aad ct

/-- `diff` of R269: the or of the exclusive-ors of all 16 byte pairs. -/
def tagDiff (t tag : List Byte) : Byte := (xorBytes t tag).foldl (· ||| ·) 0

/-- `gcm_dec(key, IV, aad, ctt)` (46_aes_gcm.md R269): the plaintext only after the tag matched. -/
def gcmDecrypt (key iv aad ctt : List Byte) : Except ErrCode (List Byte) :=
  if ctt.length < 16 then .error .authenticationFailure
  else
    let ct := ctt.take (ctt.length - 16)
    let tag := ctt.drop (ctt.length - 16)
    if tagDiff (gcmTag key iv aad ct) tag ≠ 0 then .error .authenticationFailure
    else .ok (gctr key (inc32 (counterBlock0 iv)) ct)

/-- `AES256_ENC ra` (46_aes_gcm.md R262): 16 source bytes, whatever `SRC_LEN` holds. -/
def aes256EncCommand (ra : RegNum) (s : State) : CommandResult :=
  if !s.inRange s.srcOff.toNat 16 then .error .badRange
  else if !s.dstInRange 16 then .error .badRange
  else .ok (s.memOutput (aes256 (s.regBytes ra) (s.memRead s.srcOff.toNat 16)), noFlags)

/-- `AES256_ENC ra` (46_aes_gcm.md R262). -/
def execAes256Enc (ra : RegNum) (s : State) : Host.Outcome State Fault Refusal :=
  finishOutput s (aes256EncCommand ra s)

/-- `GCM_ENC ra` (46_aes_gcm.md R270). -/
def gcmEncCommand (ra : RegNum) (s : State) : CommandResult :=
  if !s.srcInRange then .error .badRange
  else if !s.aadInRange then .error .badRange
  else if !s.dstInRange (s.srcLen.toNat + 16) then .error .badRange
  else .ok (s.memOutput (gcmEncrypt (s.regBytes ra) s.iv.toList s.aadBytes s.srcBytes), noFlags)

/-- `GCM_ENC ra` (46_aes_gcm.md R270). -/
def execGcmEnc (ra : RegNum) (s : State) : Host.Outcome State Fault Refusal := finishOutput s (gcmEncCommand ra s)

/-- `GCM_DEC ra` (46_aes_gcm.md R271): the destination is checked only when `SRC_LEN >= 16`. -/
def gcmDecCommand (ra : RegNum) (s : State) : CommandResult :=
  if !s.srcInRange then .error .badRange
  else if !s.aadInRange then .error .badRange
  else if decide (16 ≤ s.srcLen.toNat) && !s.dstInRange (s.srcLen.toNat - 16) then .error .badRange
  else
    match gcmDecrypt (s.regBytes ra) s.iv.toList s.aadBytes s.srcBytes with
    | .error e => .error e
    | .ok pt => .ok (s.memOutput pt, noFlags)

/-- `GCM_DEC ra` (46_aes_gcm.md R271). -/
def execGcmDec (ra : RegNum) (s : State) : Host.Outcome State Fault Refusal := finishOutput s (gcmDecCommand ra s)

end Sys2Proof.Machine
end

