-- ==== Sys2Proof/Machine/KeccakCore.lean ====
section
/-! DEFINITION. Keccak-f[1600] and the sponge of Keccak-256 (spec/45_keccak.md R230 to R234). -/

namespace Sys2Proof.Machine

/-- The round constants `RC[0..23]` (45_keccak.md R232). -/
def keccakRC : List Lane :=
  [0x0000000000000001, 0x0000000000008082, 0x800000000000808A, 0x8000000080008000,
   0x000000000000808B, 0x0000000080000001, 0x8000000080008081, 0x8000000000008009,
   0x000000000000008A, 0x0000000000000088, 0x0000000080008009, 0x000000008000000A] ++
  [0x000000008000808B, 0x800000000000008B, 0x8000000000008089, 0x8000000000008003,
   0x8000000000008002, 0x8000000000000080, 0x000000000000800A, 0x800000008000000A,
   0x8000000080008081, 0x8000000000008080, 0x0000000080000001, 0x8000000080008008]

/-- The rotation offsets, row `y`, column `x` (45_keccak.md R232). -/
def keccakRhoTable : List Nat :=
  [0, 1, 62, 28, 27, 36, 44, 6, 55, 20, 3, 10, 43, 25, 39, 41, 45, 15, 21, 8, 18, 2, 61, 56, 14]

/-- `RHO[x][y]` (45_keccak.md R232). -/
def keccakRho (x y : Nat) : Nat := keccakRhoTable.getD (x + 5 * y) 0

/-- Lane `A[x][y]` of 25 lanes in the order `x + 5*y` of R231, the indices taken modulo 5. -/
def laneAt (lanes : List Lane) (x y : Nat) : Lane := lanes.getD (x % 5 + 5 * (y % 5)) 0

/-- The 25 lanes `f x y`, in the order `x + 5*y` of R231. -/
def tabulateLanes (f : Nat → Nat → Lane) : List Lane := (List.range 25).map fun i => f (i % 5) (i / 5)

/-- `theta` (45_keccak.md R233). -/
def keccakTheta (a : List Lane) : List Lane :=
  let c := (List.range 5).map fun x =>
    laneAt a x 0 ^^^ laneAt a x 1 ^^^ laneAt a x 2 ^^^ laneAt a x 3 ^^^ laneAt a x 4
  let d := (List.range 5).map fun x => c.getD ((x + 4) % 5) 0 ^^^ (c.getD ((x + 1) % 5) 0).rotateLeft 1
  tabulateLanes fun x y => laneAt a x y ^^^ d.getD x 0

/-- `rho` and `pi` (45_keccak.md R233). The rule scatters, `B[y][(2x+3y) mod 5] = rol(A[x][y], RHO[x][y])`;
here lane `B[x'][y']` is gathered from `y = x'`, `x = (x' + 3y') mod 5`, the one solution of
`(2x+3y) mod 5 = y'` (`keccakRhoPi_scatter`, Laws/Keccak.lean). -/
def keccakRhoPi (a : List Lane) : List Lane :=
  tabulateLanes fun x' y' => (laneAt a (x' + 3 * y') x').rotateLeft (keccakRho ((x' + 3 * y') % 5) x')

/-- `chi` (45_keccak.md R233). -/
def keccakChi (b : List Lane) : List Lane :=
  tabulateLanes fun x y => laneAt b x y ^^^ (~~~laneAt b (x + 1) y &&& laneAt b (x + 2) y)

/-- `iota` (45_keccak.md R233). -/
def keccakIota (rc : Lane) (a : List Lane) : List Lane :=
  match a with
  | [] => []
  | a00 :: rest => (a00 ^^^ rc) :: rest

/-- One round (45_keccak.md R233). -/
def keccakRound (a : List Lane) (rc : Lane) : List Lane :=
  keccakIota rc (keccakChi (keccakRhoPi (keccakTheta a)))

/-- The lanes of a 200-byte string (45_keccak.md R231). -/
def loadLanes (bytes : List Byte) : List Lane := (pieces 8 bytes).map fun b => BitVec.ofNat 64 (leInt b)

/-- The byte string of 25 lanes (45_keccak.md R231). -/
def storeLanes (lanes : List Lane) : List Byte := lanes.flatMap fun l => le 8 l.toNat

/-- `keccak_f(S)` (45_keccak.md R233): 24 rounds. -/
def keccakF (bytes : List Byte) : List Byte := storeLanes (keccakRC.foldl keccakRound (loadLanes bytes))

/-- `RATE` (45_keccak.md R234). -/
def keccakRate : Nat := 136

/-- Exclusive-or a block of 136 bytes into the first bytes of the state; bytes 136 to 199 are untouched. -/
def xorBlock (st block : List Byte) : List Byte := xorBytes (st.take keccakRate) block ++ st.drop keccakRate

/-- `absorb(S, data)` (45_keccak.md R234), for data of whole blocks. -/
def keccakAbsorb (st data : List Byte) : List Byte :=
  (pieces keccakRate data).foldl (fun acc block => keccakF (xorBlock acc block)) st

/-- The padded last block of `final` (45_keccak.md R234): `rem`, zeros to 136 bytes, `0x01` exclusive-ored at
`len(rem)` and `0x80` at byte 135. -/
def keccakPadBlock (rest : List Byte) : List Byte :=
  xorBytes (rest ++ zeros (keccakRate - rest.length))
    (xorBytes (zeros rest.length ++ (0x01 :: zeros (keccakRate - 1 - rest.length)))
      (zeros (keccakRate - 1) ++ [0x80]))

/-- `final(S, data)` (45_keccak.md R234): the 32-byte digest. -/
def keccakFinalDigest (st data : List Byte) : List Byte :=
  let whole := keccakRate * (data.length / keccakRate)
  let absorbed := keccakAbsorb st (data.take whole)
  (keccakF (xorBlock absorbed (keccakPadBlock (data.drop whole)))).take 32

/-- `keccak256(data)` (45_keccak.md R234). -/
def keccakHash (data : List Byte) : List Byte := keccakFinalDigest (zeros 200) data

end Sys2Proof.Machine
end

