-- ==== Sys2Proof/Machine/Keccak.lean ====
section
/-! DEFINITION. The Keccak commands (spec/45_keccak.md R235 to R239). -/

namespace Sys2Proof.Machine

/-- `KECCAK_F1600` (45_keccak.md R235). -/
def execKeccakF1600 (s : State) : Host.Outcome State Fault Refusal :=
  finish s (.ok (s.setKstate (keccakF s.kstate.toList), noFlags))

/-- `KECCAK_INIT` (45_keccak.md R236). -/
def execKeccakInit (s : State) : Host.Outcome State Fault Refusal :=
  finish s (.ok (s.setKstate (zeros 200), noFlags))

/-- `KECCAK_ABSORB` (45_keccak.md R237): the range check before the multiple-of-136 check, one code. -/
def keccakAbsorbCommand (s : State) : CommandResult :=
  if !s.srcInRange then .error .badRange
  else if s.srcLen.toNat % keccakRate ≠ 0 then .error .badRange
  else .ok (s.setKstate (keccakAbsorb s.kstate.toList s.srcBytes), noFlags)

/-- `KECCAK_ABSORB` (45_keccak.md R237). -/
def execKeccakAbsorb (s : State) : Host.Outcome State Fault Refusal := finish s (keccakAbsorbCommand s)

/-- `KECCAK_FINAL rd` (45_keccak.md R238): the digest to `R[rd]`, `KSTATE` cleared. -/
def keccakFinalCommand (rd : RegNum) (s : State) : CommandResult :=
  if !s.srcInRange then .error .badRange
  else .ok ((s.setRegNat rd (beInt (keccakFinalDigest s.kstate.toList s.srcBytes))).setKstate (zeros 200), noFlags)

/-- `KECCAK_FINAL rd` (45_keccak.md R238). -/
def execKeccakFinal (rd : RegNum) (s : State) : Host.Outcome State Fault Refusal :=
  finish s (keccakFinalCommand rd s)

/-- `KECCAK256 rd` (45_keccak.md R239): `KSTATE` is not read, and is cleared. -/
def keccak256Command (rd : RegNum) (s : State) : CommandResult :=
  if !s.srcInRange then .error .badRange
  else .ok ((s.setRegNat rd (beInt (keccakHash s.srcBytes))).setKstate (zeros 200), noFlags)

/-- `KECCAK256 rd` (45_keccak.md R239). -/
def execKeccak256 (rd : RegNum) (s : State) : Host.Outcome State Fault Refusal := finish s (keccak256Command rd s)

end Sys2Proof.Machine
end

