-- ==== Sys2Proof/Machine/Modular.lean ====
section
/-! DEFINITION. The constants of the curve (spec/00_scope.md R12), the modular helpers (R13), and the Montgomery
product with its constants and its two reduction algorithms (spec/40_modarith.md R120 to R127). -/

namespace Sys2Proof.Machine

/-- `p`, the field prime (00_scope.md R12). -/
def fieldPrime : Nat := 0xFFFFFFFFFFFFFFFFFFFFFFFFFFFFFFFFFFFFFFFFFFFFFFFFFFFFFFFEFFFFFC2F

/-- `n`, the group order (R12). -/
def groupOrder : Nat := 0xFFFFFFFFFFFFFFFFFFFFFFFFFFFFFFFEBAAEDCE6AF48A03BBFD25E8CD0364141

/-- `Gx` (R12). -/
def genX : Nat := 0x79BE667EF9DCBBAC55A06295CE870B07029BFCDB2DCE28D959F2815B16F81798

/-- `Gy` (R12). -/
def genY : Nat := 0x483ADA7726A3C4655DA4FBFC0E1108A8FD17B448A68554199C47D08FFB10D4B8

/-- `(n - 1) / 2` (R12), the greatest low `s`. -/
def halfOrder : Nat := 0x7FFFFFFFFFFFFFFFFFFFFFFFFFFFFFFF5D576E7357A4501DDFE92F46681B20A0

/-- `(p + 1) / 4` (R12), the exponent of the square root. -/
def sqrtExponent : Nat := 0x3FFFFFFFFFFFFFFFFFFFFFFFFFFFFFFFFFFFFFFFFFFFFFFFFFFFFFFFBFFFFF0C

/-- The modulus a command's `msel` selects (40_modarith.md R120). -/
def modulusOf : Modulus → Nat
  | .fieldP => fieldPrime
  | .orderN => groupOrder

/-- `addm` (00_scope.md R13). -/
def addm (a b m : Nat) : Nat := (a + b) % m

/-- `subm` (R13): the least non-negative residue of `a - b`. -/
def subm (a b m : Nat) : Nat := (a + (m - b % m)) % m

/-- `mulm` (R13). -/
def mulm (a b m : Nat) : Nat := a * b % m

/-- `a**e mod m` by squaring, for an exponent of at most `bits` bits. -/
def powm (m bits a e : Nat) : Nat :=
  match bits with
  | 0 => 1 % m
  | bits + 1 =>
    if e % 2 = 1 then a * powm m bits (a * a % m) (e / 2) % m else powm m bits (a * a % m) (e / 2)

/-- `invm(a, m) = a**(m-2) mod m` (R13). -/
def invm (a m : Nat) : Nat := powm m 256 a (m - 2)

/-- `sqrtp(t) = t**((p+1)/4) mod p` (R13). -/
def sqrtp (t : Nat) : Nat := powm fieldPrime 256 t sqrtExponent

/-- The Montgomery radix `RR = 2**256` (40_modarith.md R122). -/
def montRadix : Nat := 2 ^ 256

/-- `RR mod m` (R122). -/
def montOne : Modulus → Nat
  | .fieldP => 0x00000000000000000000000000000000000000000000000000000001000003D1
  | .orderN => 0x000000000000000000000000000000014551231950B75FC4402DA1732FC9BEBF

/-- `RR**2 mod m` (R122). -/
def montSquare : Modulus → Nat
  | .fieldP => 0x000000000000000000000000000000000000000000000001000007A2000E90A1
  | .orderN => 0x9D671CD581C69BC5E697F5E45BCD07C6741496C20E7CF878896CF21467D7D140

/-- `RR**(-1) mod m` (R122). -/
def montInverse : Modulus → Nat
  | .fieldP => 0xC9BD1905155383999C46C2C295F2B761BCB223FEDC24A059D838091D0868192A
  | .orderN => 0xD9E8890D6494EF93897F30C127CFAB5D3BBBD4567FA50C3C80FD22938097C016

/-- `m' = -m**(-1) mod RR` (R122). -/
def montPrime : Modulus → Nat
  | .fieldP => 0xC9BD1905155383999C46C2C295F2B761BCB223FEDC24A059D838091DD2253531
  | .orderN => 0xD9E8890D6494EF93897F30C127CFAB5E50A51AC834B9EC244B0DFF665588B13F

/-- The Montgomery product (40_modarith.md R123): `(a * b * RR**(-1)) mod m`. -/
def mont (a b : Nat) (m : Modulus) : Nat := a * b * montInverse m % modulusOf m

/-- The reduction the hardware performs (40_modarith.md R124), informative in the spec and equal in value to
`mont` on residues. -/
def montReduce (a b : Nat) (m : Modulus) : Nat :=
  let t := a * b
  let u := t % montRadix * montPrime m % montRadix
  let v := (t + u * modulusOf m) / montRadix
  if modulusOf m ≤ v then v - modulusOf m else v

/-- The loop of the word-serial form (40_modarith.md R125): `steps` words of `width` bits of `a`, from word `i`
on. -/
def montSerialLoop (width a b : Nat) (m : Modulus) (steps i acc : Nat) : Nat :=
  match steps with
  | 0 => acc
  | steps + 1 =>
    let word := a / 2 ^ (width * i) % 2 ^ width
    let sum := acc + word * b
    let q := sum % 2 ^ width * (montPrime m % 2 ^ width) % 2 ^ width
    montSerialLoop width a b m steps (i + 1) ((sum + q * modulusOf m) / 2 ^ width)

/-- The word-serial form with a datapath of `width` bits (40_modarith.md R125), informative in the spec: every
width that divides 256 gives the value of `mont`, which is why `MONT_W` is not a parameter. -/
def montSerial (width a b : Nat) (m : Modulus) : Nat :=
  let t := montSerialLoop width a b m (256 / width) 0 0
  if modulusOf m ≤ t then t - modulusOf m else t

/-- Montgomery form of a residue (40_modarith.md R126). -/
def toMontForm (a : Nat) (m : Modulus) : Nat := mont a (montSquare m) m

/-- Out of Montgomery form (40_modarith.md R126). -/
def fromMontForm (a : Nat) (m : Modulus) : Nat := mont a 1 m

end Sys2Proof.Machine
end

