-- ==== Sys2Proof/Machine/ModArith.lean ====
section
/-! DEFINITION. The modular arithmetic commands (spec/40_modarith.md R121, R128 to R135). -/

namespace Sys2Proof.Machine

/-- The shape of `MONT_MUL`, `MOD_MUL`, `MOD_ADD`, `MOD_SUB`: both operands must be canonical residues (R121),
read before `R[rd]` is written; no flag. -/
def modBinary (f : Nat → Nat → Nat) (rd ra rb : RegNum) (msel : Modulus) (s : State) : CommandResult :=
  if modulusOf msel ≤ s.regNat ra ∨ modulusOf msel ≤ s.regNat rb then .error .operandRange
  else .ok (s.setRegNat rd (f (s.regNat ra) (s.regNat rb)), noFlags)

/-- The shape of `TO_MONT`, `FROM_MONT`: the operand must be a canonical residue (R121); no flag. -/
def modUnary (f : Nat → Nat) (rd ra : RegNum) (msel : Modulus) (s : State) : CommandResult :=
  if modulusOf msel ≤ s.regNat ra then .error .operandRange
  else .ok (s.setRegNat rd (f (s.regNat ra)), noFlags)

/-- `MONT_MUL rd, ra, rb, P/N` (40_modarith.md R128). -/
def execMontMul (rd ra rb : RegNum) (msel : Modulus) (s : State) : Host.Outcome State Fault Refusal :=
  finish s (modBinary (fun a b => mont a b msel) rd ra rb msel s)

/-- `TO_MONT rd, ra, P/N` (40_modarith.md R129): `(a * RR) mod m`. -/
def execToMont (rd ra : RegNum) (msel : Modulus) (s : State) : Host.Outcome State Fault Refusal :=
  finish s (modUnary (fun a => a * montRadix % modulusOf msel) rd ra msel s)

/-- `FROM_MONT rd, ra, P/N` (40_modarith.md R130): `(a * RR**(-1)) mod m`. -/
def execFromMont (rd ra : RegNum) (msel : Modulus) (s : State) : Host.Outcome State Fault Refusal :=
  finish s (modUnary (fun a => a * montInverse msel % modulusOf msel) rd ra msel s)

/-- `MOD_MUL rd, ra, rb, P/N` (40_modarith.md R131). -/
def execModMul (rd ra rb : RegNum) (msel : Modulus) (s : State) : Host.Outcome State Fault Refusal :=
  finish s (modBinary (fun a b => mulm a b (modulusOf msel)) rd ra rb msel s)

/-- `MOD_ADD rd, ra, rb, P/N` (40_modarith.md R132). -/
def execModAdd (rd ra rb : RegNum) (msel : Modulus) (s : State) : Host.Outcome State Fault Refusal :=
  finish s (modBinary (fun a b => addm a b (modulusOf msel)) rd ra rb msel s)

/-- `MOD_SUB rd, ra, rb, P/N` (40_modarith.md R133). -/
def execModSub (rd ra rb : RegNum) (msel : Modulus) (s : State) : Host.Outcome State Fault Refusal :=
  finish s (modBinary (fun a b => subm a b (modulusOf msel)) rd ra rb msel s)

/-- `MOD_INV rd, ra, P/N` (40_modarith.md R134): an operand of 0 is also `OperandRange`. -/
def modInverse (rd ra : RegNum) (msel : Modulus) (s : State) : CommandResult :=
  if modulusOf msel ≤ s.regNat ra then .error .operandRange
  else if s.regNat ra = 0 then .error .operandRange
  else .ok (s.setRegNat rd (invm (s.regNat ra) (modulusOf msel)), noFlags)

/-- `MOD_INV rd, ra, P/N` (40_modarith.md R134). -/
def execModInv (rd ra : RegNum) (msel : Modulus) (s : State) : Host.Outcome State Fault Refusal :=
  finish s (modInverse rd ra msel s)

/-- `MOD_RED rd, ra, P/N` (40_modarith.md R135): any 256-bit operand, one conditional subtraction. -/
def execModRed (rd ra : RegNum) (msel : Modulus) (s : State) : Host.Outcome State Fault Refusal :=
  finish s (.ok (s.setRegNat rd
    (if modulusOf msel ≤ s.regNat ra then s.regNat ra - modulusOf msel else s.regNat ra), noFlags))

end Sys2Proof.Machine
end

