-- ==== Sys2Proof/Machine/Sha256.lean ====
section
/-! DEFINITION. SHA-256 and HMAC over 32-byte keys, internal to the nonce unit (spec/42_nonce.md R180 to R183). -/

namespace Sys2Proof.Machine

/-- The round constants `KS[0..63]` (42_nonce.md R180). -/
def shaRoundConstants : List Word :=
  [0x428a2f98, 0x71374491, 0xb5c0fbcf, 0xe9b5dba5, 0x3956c25b, 0x59f111f1, 0x923f82a4, 0xab1c5ed5] ++
  [0xd807aa98, 0x12835b01, 0x243185be, 0x550c7dc3, 0x72be5d74, 0x80deb1fe, 0x9bdc06a7, 0xc19bf174] ++
  [0xe49b69c1, 0xefbe4786, 0x0fc19dc6, 0x240ca1cc, 0x2de92c6f, 0x4a7484aa, 0x5cb0a9dc, 0x76f988da] ++
  [0x983e5152, 0xa831c66d, 0xb00327c8, 0xbf597fc7, 0xc6e00bf3, 0xd5a79147, 0x06ca6351, 0x14292967] ++
  [0x27b70a85, 0x2e1b2138, 0x4d2c6dfc, 0x53380d13, 0x650a7354, 0x766a0abb, 0x81c2c92e, 0x92722c85] ++
  [0xa2bfe8a1, 0xa81a664b, 0xc24b8b70, 0xc76c51a3, 0xd192e819, 0xd6990624, 0xf40e3585, 0x106aa070] ++
  [0x19a4c116, 0x1e376c08, 0x2748774c, 0x34b0bcb5, 0x391c0cb3, 0x4ed8aa4a, 0x5b9cca4f, 0x682e6ff3] ++
  [0x748f82ee, 0x78a5636f, 0x84c87814, 0x8cc70208, 0x90befffa, 0xa4506ceb, 0xbef9a3f7, 0xc67178f2]

/-- Eight chaining words `(a, b, c, d, e, f, g, h)` (42_nonce.md R182). -/
structure ShaWords where
  a : Word
  b : Word
  c : Word
  d : Word
  e : Word
  f : Word
  g : Word
  h : Word
  deriving DecidableEq, Repr

/-- The initial words `H0[0..7]` (42_nonce.md R180). -/
def shaInitial : ShaWords :=
  { a := 0x6a09e667, b := 0xbb67ae85, c := 0x3c6ef372, d := 0xa54ff53a
    e := 0x510e527f, f := 0x9b05688c, g := 0x1f83d9ab, h := 0x5be0cd19 }

/-- `pad256(M)` (42_nonce.md R181). -/
def shaPad (msg : List Byte) : List Byte :=
  msg ++ (0x80 :: zeros ((119 - msg.length % 64) % 64)) ++ be 8 (8 * msg.length)

/-- `s0` of the message schedule (42_nonce.md R182). -/
def shaSmall0 (x : Word) : Word := x.rotateRight 7 ^^^ x.rotateRight 18 ^^^ (x >>> 3)

/-- `s1` of the message schedule (R182). -/
def shaSmall1 (x : Word) : Word := x.rotateRight 17 ^^^ x.rotateRight 19 ^^^ (x >>> 10)

/-- Extend the schedule by `count` words; `back` holds the words so far, the latest first, so that `W[t-2]` is
element 1, `W[t-7]` element 6, `W[t-15]` element 14, `W[t-16]` element 15 (R182). -/
def shaExtend (count : Nat) (back : List Word) : List Word :=
  match count with
  | 0 => back
  | count + 1 =>
    shaExtend count
      ((back.getD 15 0 + shaSmall0 (back.getD 14 0) + back.getD 6 0 + shaSmall1 (back.getD 1 0)) :: back)

/-- The schedule `W[0..63]` of a 64-byte block (R182). -/
def shaSchedule (block : List Byte) : List Word :=
  (shaExtend 48 ((pieces 4 block).map wordOfBytes).reverse).reverse

/-- One round (R182) with its constant and schedule word. -/
def shaRound (v : ShaWords) (kw : Word × Word) : ShaWords :=
  let big1 := v.e.rotateRight 6 ^^^ v.e.rotateRight 11 ^^^ v.e.rotateRight 25
  let ch := (v.e &&& v.f) ^^^ (~~~v.e &&& v.g)
  let t1 := v.h + big1 + ch + kw.1 + kw.2
  let big0 := v.a.rotateRight 2 ^^^ v.a.rotateRight 13 ^^^ v.a.rotateRight 22
  let maj := (v.a &&& v.b) ^^^ (v.a &&& v.c) ^^^ (v.b &&& v.c)
  let t2 := big0 + maj
  { a := t1 + t2, b := v.a, c := v.b, d := v.c, e := v.d + t1, f := v.e, g := v.f, h := v.g }

/-- The compression of one block into the chaining words (R182). -/
def shaCompress (v : ShaWords) (block : List Byte) : ShaWords :=
  let r := (shaRoundConstants.zip (shaSchedule block)).foldl shaRound v
  { a := v.a + r.a, b := v.b + r.b, c := v.c + r.c, d := v.d + r.d
    e := v.e + r.e, f := v.f + r.f, g := v.g + r.g, h := v.h + r.h }

/-- The 32 bytes of the chaining words (R182). -/
def ShaWords.bytes (v : ShaWords) : List Byte :=
  bytesOfWord v.a ++ bytesOfWord v.b ++ bytesOfWord v.c ++ bytesOfWord v.d
    ++ bytesOfWord v.e ++ bytesOfWord v.f ++ bytesOfWord v.g ++ bytesOfWord v.h

/-- `sha256(M)` (42_nonce.md R182). -/
def sha256 (msg : List Byte) : List Byte := ((pieces 64 (shaPad msg)).foldl shaCompress shaInitial).bytes

/-- `hmac(key, msg)` for a 32-byte key (42_nonce.md R183). -/
def hmac (key msg : List Byte) : List Byte :=
  let k0 := key ++ zeros 32
  sha256 ((k0.map fun b => b ^^^ 0x5C) ++ sha256 ((k0.map fun b => b ^^^ 0x36) ++ msg))

end Sys2Proof.Machine
end

