-- ==== Sys2Proof/Machine/Drbg.lean ====
section
/-! DEFINITION. The HMAC-DRBG and the bounded nonce search (spec/42_nonce.md R184 to R186, R197). -/

namespace Sys2Proof.Machine

/-- A generator `(Kd, Vd)`: two 32-byte strings (42_nonce.md R185). -/
structure Drbg where
  kd : List Byte
  vd : List Byte
  deriving DecidableEq, Repr

/-- `drbg_init(d, z)` (42_nonce.md R185), with the input conversion of R184. -/
def drbgInit (d z : Nat) : Drbg :=
  let xo := be 32 d
  let ho := be 32 (z % groupOrder)
  let v0 := List.replicate 32 (0x01 : Byte)
  let k1 := hmac (zeros 32) (v0 ++ 0x00 :: (xo ++ ho))
  let v1 := hmac k1 v0
  let k2 := hmac k1 (v1 ++ 0x01 :: (xo ++ ho))
  { kd := k2, vd := hmac k2 v1 }

/-- `drbg_gen` (42_nonce.md R186): the generator after one candidate; the candidate is `int(Vd)`. -/
def drbgGen (g : Drbg) : Drbg := { g with vd := hmac g.kd g.vd }

/-- The candidate `k` of a generator just advanced (R186). -/
def Drbg.candidate (g : Drbg) : Nat := beInt g.vd

/-- `drbg_reseed` (42_nonce.md R186). -/
def drbgReseed (g : Drbg) : Drbg :=
  let k := hmac g.kd (g.vd ++ [0x00])
  { kd := k, vd := hmac k g.vd }

/-- A candidate is acceptable: `1 <= k <= n-1` (42_nonce.md R197). -/
def nonceValid (k : Nat) : Bool := decide (1 ≤ k) && decide (k < groupOrder)

/-- What a search that succeeds returns: the generator, whose candidate is the nonce, and how many candidates
may still be drawn (R197's `budget - used`). -/
structure NonceDraw where
  gen : Drbg
  left : Nat
  deriving DecidableEq, Repr

/-- `nonce_search(Kd, Vd, budget)` (42_nonce.md R197). -/
def nonceSearch (budget : Nat) (g : Drbg) : Except ErrCode NonceDraw :=
  match budget with
  | 0 => .error .nonceExhausted
  | left + 1 =>
    if nonceValid (drbgGen g).candidate then .ok { gen := drbgGen g, left := left }
    else nonceSearch left (drbgReseed (drbgGen g))

end Sys2Proof.Machine
end

