-- ==== Sys2Proof/Machine/Curve.lean ====
section
/-! DEFINITION. The group of the curve: points, the group law, the scalar multiple and the ladder, the point
encodings (spec/41_point.md R150 to R153, R160). -/

namespace Sys2Proof.Machine

/-- A point: `INF` or a pair of coordinates (41_point.md R150). -/
inductive Point where
  | inf
  | affine (x y : Nat)
  deriving DecidableEq, Repr

/-- `on_curve(x, y)` (41_point.md R150). -/
def onCurve (x y : Nat) : Bool :=
  decide (x < fieldPrime) && decide (y < fieldPrime)
    && decide (y * y % fieldPrime = (x * x * x + 7) % fieldPrime)

/-- The predicate of R150 on a point. -/
def Point.valid : Point → Bool
  | .inf => true
  | .affine x y => onCurve x y

/-- The base point `G` (00_scope.md R12). -/
def basePoint : Point := .affine genX genY

/-- The chord or tangent step of R151: from the slope `lam`, the third point. -/
def paddSlope (lam x1 y1 x2 : Nat) : Point :=
  let x3 := subm (subm (mulm lam lam fieldPrime) x1 fieldPrime) x2 fieldPrime
  .affine x3 (subm (mulm lam (subm x1 x3 fieldPrime) fieldPrime) y1 fieldPrime)

/-- The group law `padd` (41_point.md R151). -/
def padd (a b : Point) : Point :=
  match a, b with
  | .inf, q => q
  | .affine x1 y1, .inf => .affine x1 y1
  | .affine x1 y1, .affine x2 y2 =>
    if x1 = x2 then
      if (y1 + y2) % fieldPrime = 0 then .inf
      else
        paddSlope (mulm (3 * x1 * x1 % fieldPrime) (invm (2 * y1 % fieldPrime) fieldPrime) fieldPrime) x1 y1 x2
    else
      paddSlope (mulm (subm y2 y1 fieldPrime) (invm (subm x2 x1 fieldPrime) fieldPrime) fieldPrime) x1 y1 x2

/-- The inverse of a point (41_point.md R151): `-(x, y) = (x, p - y)`. -/
def pneg : Point → Point
  | .inf => .inf
  | .affine x y => .affine x (fieldPrime - y)

/-- The scalar multiple (41_point.md R152): `smul(0, A) = INF`, `smul(k+1, A) = padd(smul(k, A), A)`. -/
def smul (k : Nat) (a : Point) : Point :=
  match k with
  | 0 => .inf
  | k + 1 => padd (smul k a) a

/-- The ladder's steps for bits `bits - 1` down to 0 of `k` (41_point.md R153). -/
def ladderSteps (k bits : Nat) (r0 r1 : Point) : Point :=
  match bits with
  | 0 => r0
  | i + 1 =>
    if k.testBit i then ladderSteps k i (padd r0 r1) (padd r1 r1)
    else ladderSteps k i (padd r0 r0) (padd r0 r1)

/-- The Montgomery ladder of exactly 256 steps (41_point.md R153). -/
def ladder (k : Nat) (a : Point) : Point := ladderSteps k 256 .inf a

/-- `enc_c(x, y)` (41_point.md R160): 33 bytes. -/
def encCompressed (x y : Nat) : List Byte := BitVec.ofNat 8 (0x02 + y % 2) :: be 32 x

/-- `enc_u(x, y)` (41_point.md R160): 65 bytes. -/
def encUncompressed (x y : Nat) : List Byte := 0x04 :: (be 32 x ++ be 32 y)

/-- The encoding `comp` selects (41_point.md R161). -/
def encPoint : PointForm → Nat → Nat → List Byte
  | .compressed, x, y => encCompressed x y
  | .uncompressed, x, y => encUncompressed x y

/-- The length of the encoding `comp` selects (41_point.md R161). -/
def encLength : PointForm → Nat
  | .compressed => 33
  | .uncompressed => 65

/-- The 33-byte case of `PK_DECODE` (41_point.md R162): the square root of `x**3 + 7` with the stored parity;
`none` for a bad prefix, `x >= p`, or an `x` with no point. -/
def decodeCompressed (b : List Byte) : Option (Nat × Nat) :=
  let lead := b.headD 0
  let x := beInt (b.drop 1)
  let t := (x * x * x + 7) % fieldPrime
  let y := sqrtp t
  if lead ≠ 0x02 ∧ lead ≠ 0x03 then none
  else if fieldPrime ≤ x then none
  else if y * y % fieldPrime ≠ t then none
  else some (x, if y % 2 = lead.toNat % 2 then y else fieldPrime - y)

/-- The 65-byte case of `PK_DECODE` (41_point.md R162). -/
def decodeUncompressed (b : List Byte) : Option (Nat × Nat) :=
  let x := beInt ((b.drop 1).take 32)
  let y := beInt (b.drop 33)
  if b.headD 0 ≠ 0x04 then none
  else if onCurve x y then some (x, y)
  else none

/-- The validation of `PK_DECODE` (41_point.md R162): every other length is no encoding. -/
def decodePoint (b : List Byte) : Option (Nat × Nat) :=
  if b.length = 33 then decodeCompressed b
  else if b.length = 65 then decodeUncompressed b
  else none

end Sys2Proof.Machine
end

