-- ==== Sys2Proof/Machine/PointCmd.lean ====
section
/-! DEFINITION. The point commands (spec/41_point.md R157 to R162). -/

namespace Sys2Proof.Machine

/-- Two registers take a point's coordinates. -/
def State.setPoint (s : State) (ix iy : RegNum) (x y : Nat) : State := (s.setRegNat ix x).setRegNat iy y

/-- The result of `PMUL_G` and `PMUL` (41_point.md R157): `INF` gives zero coordinates and the flag `INF`. -/
def pmulResult (s : State) (x : Point) : State × ResultFlags :=
  match x with
  | .inf => (s.setPoint regPx regPy 0 0, infFlag)
  | .affine x y => (s.setPoint regPx regPy x y, parityFlag y)

/-- `PMUL_G` (41_point.md R157): any scalar, no error. -/
def execPmulG (s : State) : Host.Outcome State Fault Refusal :=
  finish s (.ok (pmulResult s (ladder (s.regNat regK) basePoint)))

/-- `(R[5], R[6])` is a point (41_point.md R150). -/
def State.publicPointValid (s : State) : Bool := onCurve (s.regNat regQx) (s.regNat regQy)

/-- `PMUL` (41_point.md R158). -/
def pmulCommand (s : State) : CommandResult :=
  if s.publicPointValid then
    .ok (pmulResult s (ladder (s.regNat regK) (.affine (s.regNat regQx) (s.regNat regQy))))
  else .error .invalidPublicKey

/-- `PMUL` (41_point.md R158). -/
def execPmul (s : State) : Host.Outcome State Fault Refusal := finish s (pmulCommand s)

/-- A private scalar in `[1, n-1]` (41_point.md R159, 60_exceptions.md R290 `InvalidKey`). -/
def scalarValid (d : Nat) : Bool := decide (1 ≤ d) && decide (d < groupOrder)

/-- `DERIVE` (41_point.md R159). For a scalar in range the product is never `INF`; the spec writes no case for
it, and the model, being total, gives `INF` the coordinates 0, with R159's own flags (log 12). -/
def deriveCommand (s : State) : CommandResult :=
  if scalarValid (s.regNat regD) then
    match ladder (s.regNat regD) basePoint with
    | .inf => .ok (s.setPoint regQx regQy 0 0, noFlags)
    | .affine x y => .ok (s.setPoint regQx regQy x y, parityFlag y)
  else .error .invalidKey

/-- `DERIVE` (41_point.md R159). -/
def execDerive (s : State) : Host.Outcome State Fault Refusal := finish s (deriveCommand s)

/-- `PK_ENCODE C/U` (41_point.md R161): the range before the value; `PARITY = R[6][0]`. -/
def pkEncodeCommand (comp : PointForm) (s : State) : CommandResult :=
  if !s.dstInRange (encLength comp) then .error .badRange
  else if !s.publicPointValid then .error .invalidPublicKey
  else .ok (s.memOutput (encPoint comp (s.regNat regQx) (s.regNat regQy)), parityFlag (s.regNat regQy))

/-- `PK_ENCODE C/U` (41_point.md R161). -/
def execPkEncode (comp : PointForm) (s : State) : Host.Outcome State Fault Refusal :=
  finishOutput s (pkEncodeCommand comp s)

/-- `PK_DECODE` (41_point.md R162). -/
def pkDecodeCommand (s : State) : CommandResult :=
  if !s.srcInRange then .error .badRange
  else
    match decodePoint s.srcBytes with
    | none => .error .invalidPublicKey
    | some (x, y) => .ok (s.setPoint regQx regQy x y, parityFlag y)

/-- `PK_DECODE` (41_point.md R162). -/
def execPkDecode (s : State) : Host.Outcome State Fault Refusal := finish s (pkDecodeCommand s)

end Sys2Proof.Machine
end

