-- ==== Sys2Proof/Machine/Nonce.lean ====
section
/-! DEFINITION. The nonce commands (spec/42_nonce.md R198, R199). -/

namespace Sys2Proof.Machine

/-- A nonce and its generator go to `R[2]` and the hidden registers (42_nonce.md R198, R199). -/
def State.putNonce (s : State) (g : Drbg) : State := (s.setRegNat regK g.candidate).setDrbg g.kd g.vd

/-- `NONCE_FIRST` (42_nonce.md R198). -/
def nonceFirstCommand (s : State) : CommandResult :=
  if scalarValid (s.regNat regD) then
    match nonceSearch s.params.nonceTries (drbgInit (s.regNat regD) (s.regNat regZ)) with
    | .error e => .error e
    | .ok draw => .ok (s.putNonce draw.gen, noFlags)
  else .error .invalidKey

/-- `NONCE_FIRST` (42_nonce.md R198). -/
def execNonceFirst (s : State) : Host.Outcome State Fault Refusal := finish s (nonceFirstCommand s)

/-- The live generator of `DRBG_K`, `DRBG_V` as strings (10_state.md R41). -/
def State.drbg (s : State) : Drbg := { kd := be256 s.drbgK, vd := be256 s.drbgV }

/-- `NONCE_NEXT` (42_nonce.md R199). It writes `DRBG_VALID` the value 1 it already has. -/
def nonceNextCommand (s : State) : CommandResult :=
  if s.drbgValid then
    match nonceSearch s.params.nonceTries (drbgReseed s.drbg) with
    | .error e => .error e
    | .ok draw => .ok (s.putNonce draw.gen, noFlags)
  else .error .sequence

/-- `NONCE_NEXT` (42_nonce.md R199). -/
def execNonceNext (s : State) : Host.Outcome State Fault Refusal := finish s (nonceNextCommand s)

end Sys2Proof.Machine
end

