-- ==== Sys2Proof/Machine/Sign.lean ====
section
/-! DEFINITION. The ECDSA sign core and its commands (spec/43_ecdsa_sign.md R210 to R213). -/

namespace Sys2Proof.Machine

/-- The low-s choice of R211. -/
def lowS (lows : Bool) (s : Nat) : Nat := if lows && decide (halfOrder < s) then groupOrder - s else s

/-- `sign_core(d, z, k, lows)` (43_ecdsa_sign.md R211). The product is never `INF` for `k` in range; the model,
being total, returns none for it (log 12). -/
def signCore (d z k : Nat) (lows : Bool) : Option (Nat × Nat) :=
  match ladder k basePoint with
  | .inf => none
  | .affine x1 _ =>
    let r := x1 % groupOrder
    let s := mulm (invm k groupOrder) ((z + r * d) % groupOrder) groupOrder
    if r = 0 then none
    else if s = 0 then none
    else some (r, lowS lows s)

/-- A signature goes to `R[3]`, `R[4]` (43_ecdsa_sign.md R212, R213). -/
def State.putSignature (s : State) (rs : Nat × Nat) : State := s.setPoint regSigR regSigS rs.1 rs.2

/-- `SIGN_K` (43_ecdsa_sign.md R212). -/
def signKCommand (s : State) : CommandResult :=
  if !scalarValid (s.regNat regD) then .error .invalidKey
  else if !nonceValid (s.regNat regK) then .error .badNonce
  else
    match signCore (s.regNat regD) (s.regNat regZ) (s.regNat regK) s.ctrl.lows with
    | none => .error .retry
    | some rs => .ok (s.putSignature rs, noFlags)

/-- `SIGN_K` (43_ecdsa_sign.md R212). -/
def execSignK (s : State) : Host.Outcome State Fault Refusal := finish s (signKCommand s)

/-- The loop of `ECDSA_SIGN` (43_ecdsa_sign.md R213) with `budget` candidates left. Every turn draws at least
one candidate, so `turns = budget` at the start is enough and the first case is met only with budget 0. -/
def signLoop (turns budget d z : Nat) (lows : Bool) (g : Drbg) : Except ErrCode (Nat × Nat) :=
  match turns with
  | 0 => .error .nonceExhausted
  | turns + 1 =>
    match nonceSearch budget g with
    | .error e => .error e
    | .ok draw =>
      match signCore d z draw.gen.candidate lows with
      | some rs => .ok rs
      | none => signLoop turns draw.left d z lows (drbgReseed draw.gen)

/-- `ECDSA_SIGN` (43_ecdsa_sign.md R213): the generator is private to the command. -/
def ecdsaSignCommand (s : State) : CommandResult :=
  if scalarValid (s.regNat regD) then
    match signLoop s.params.nonceTries s.params.nonceTries (s.regNat regD) (s.regNat regZ) s.ctrl.lows
        (drbgInit (s.regNat regD) (s.regNat regZ)) with
    | .error e => .error e
    | .ok rs => .ok (s.putSignature rs, noFlags)
  else .error .invalidKey

/-- `ECDSA_SIGN` (43_ecdsa_sign.md R213). -/
def execEcdsaSign (s : State) : Host.Outcome State Fault Refusal := finish s (ecdsaSignCommand s)

end Sys2Proof.Machine
end

