-- ==== Sys2Proof/Machine/System.lean ====
section
/-! DEFINITION. The system commands (spec/47_system.md). -/

namespace Sys2Proof.Machine

/-- `NOP` (47_system.md R280): its whole effect is that of issue and completion. -/
def execNop (s : State) : Host.Outcome State Fault Refusal := finish s (.ok (s, noFlags))

/-- `ZEROIZE` (47_system.md R281): every register, `IV`, `KSTATE`, all of DMEM, the DRBG state and the
descriptors; `CTRL` and `CMD` keep their values. -/
def execZeroize (s : State) : Host.Outcome State Fault Refusal := finish s (.ok (s.zeroized, noFlags))

end Sys2Proof.Machine
end

