-- ==== Sys2Proof/Machine/Verify.lean ====
section
/-! DEFINITION. The ECDSA verify core and its command (spec/44_ecdsa_verify.md R220, R221). -/

namespace Sys2Proof.Machine

/-- A signature half in `[1, n-1]` (44_ecdsa_verify.md R220). -/
def halfValid (r : Nat) : Bool := decide (1 ≤ r) && decide (r < groupOrder)

/-- The point `u1*G + u2*Q` of R220. -/
def verifyPoint (q : Point) (z r s : Nat) : Point :=
  let w := invm s groupOrder
  padd (ladder (mulm (z % groupOrder) w groupOrder) basePoint) (ladder (mulm r w groupOrder) q)

/-- `verify_core(Q, z, r, s)` (44_ecdsa_verify.md R220): total, false for every failing reason. -/
def verifyCore (q : Point) (z r s : Nat) : Bool :=
  if !halfValid r then false
  else if !halfValid s then false
  else
    match verifyPoint q z r s with
    | .inf => false
    | .affine x1 _ => decide (x1 % groupOrder = r)

/-- `ECDSA_VERIFY` (44_ecdsa_verify.md R221): the point before the signature's range; no register, no memory. -/
def ecdsaVerifyCommand (s : State) : CommandResult :=
  if s.publicPointValid then
    .ok (s, validFlag (verifyCore (.affine (s.regNat regQx) (s.regNat regQy)) (s.regNat regZ)
      (s.regNat regSigR) (s.regNat regSigS)))
  else .error .invalidPublicKey

/-- `ECDSA_VERIFY` (44_ecdsa_verify.md R221). -/
def execEcdsaVerify (s : State) : Host.Outcome State Fault Refusal := finish s (ecdsaVerifyCommand s)

end Sys2Proof.Machine
end

