-- ==== Sys2Proof/Machine/Dispatch.lean ====
section
/-! DEFINITION. One arm per command: the engine's `complete` step for a decoded command (spec/10_state.md R47). -/

namespace Sys2Proof.Machine

def exec (i : Instr) (s : State) : Host.Outcome State Fault Refusal :=
  match i with
  | .nop => Sys2Proof.Machine.execNop s
  | .zeroize => Sys2Proof.Machine.execZeroize s
  | .montMul rd ra rb msel => Sys2Proof.Machine.execMontMul rd ra rb msel s
  | .toMont rd ra msel => Sys2Proof.Machine.execToMont rd ra msel s
  | .fromMont rd ra msel => Sys2Proof.Machine.execFromMont rd ra msel s
  | .modMul rd ra rb msel => Sys2Proof.Machine.execModMul rd ra rb msel s
  | .modAdd rd ra rb msel => Sys2Proof.Machine.execModAdd rd ra rb msel s
  | .modSub rd ra rb msel => Sys2Proof.Machine.execModSub rd ra rb msel s
  | .modInv rd ra msel => Sys2Proof.Machine.execModInv rd ra msel s
  | .modRed rd ra msel => Sys2Proof.Machine.execModRed rd ra msel s
  | .pmulG => Sys2Proof.Machine.execPmulG s
  | .pmul => Sys2Proof.Machine.execPmul s
  | .derive => Sys2Proof.Machine.execDerive s
  | .pkEncode comp => Sys2Proof.Machine.execPkEncode comp s
  | .pkDecode => Sys2Proof.Machine.execPkDecode s
  | .nonceFirst => Sys2Proof.Machine.execNonceFirst s
  | .nonceNext => Sys2Proof.Machine.execNonceNext s
  | .signK => Sys2Proof.Machine.execSignK s
  | .ecdsaSign => Sys2Proof.Machine.execEcdsaSign s
  | .ecdsaVerify => Sys2Proof.Machine.execEcdsaVerify s
  | .keccakF1600 => Sys2Proof.Machine.execKeccakF1600 s
  | .keccakInit => Sys2Proof.Machine.execKeccakInit s
  | .keccakAbsorb => Sys2Proof.Machine.execKeccakAbsorb s
  | .keccakFinal rd => Sys2Proof.Machine.execKeccakFinal rd s
  | .keccak256 rd => Sys2Proof.Machine.execKeccak256 rd s
  | .aes256Enc ra => Sys2Proof.Machine.execAes256Enc ra s
  | .gcmEnc ra => Sys2Proof.Machine.execGcmEnc ra s
  | .gcmDec ra => Sys2Proof.Machine.execGcmDec ra s

end Sys2Proof.Machine
end

