-- ==== Sys2Proof/Machine/Port.lean ====
section
/-! DEFINITION. The host port and the window (spec/20_memory.md R60 to R70; spec/10_state.md R33 to R40, R48,
R49). -/

namespace Sys2Proof.Machine

/-- What stands at a mapped word of the window (20_memory.md R64). -/
inductive Slot where
  | id
  | version
  | ctrl
  | status
  | cmd
  | result
  | srcOff
  | srcLen
  | aadOff
  | aadLen
  | dstOff
  | dstLen
  /-- Word `j` of `IV`. -/
  | iv (j : Nat)
  /-- Word `j` of `R[i]`. -/
  | reg (i : RegNum) (j : Nat)
  /-- Word `j` of `KSTATE`. -/
  | kstate (j : Nat)
  /-- The word of DMEM at byte offset `off`. -/
  | dmem (off : Nat)
  deriving DecidableEq, Repr

/-- The single-word registers of the map (20_memory.md R64). -/
def controlSlot (a : Nat) : Option Slot :=
  match a with
  | 0x000 => some .id
  | 0x004 => some .version
  | 0x008 => some .ctrl
  | 0x00C => some .status
  | 0x010 => some .cmd
  | 0x014 => some .result
  | 0x020 => some .srcOff
  | 0x024 => some .srcLen
  | 0x028 => some .aadOff
  | 0x02C => some .aadLen
  | 0x030 => some .dstOff
  | 0x034 => some .dstLen
  | _ => none

/-- The map of the window (20_memory.md R64) with the alignment rule (R63): `none` for an access that gets
`BUSERR`. -/
def slotAt (dmemBytes a : Nat) : Option Slot :=
  if a % 4 ≠ 0 then none
  else if a < 0x040 then controlSlot a
  else if a < 0x04C then some (.iv ((a - 0x040) / 4))
  else if a < 0x100 then none
  else if a < 0x300 then some (.reg (BitVec.ofNat 4 ((a - 0x100) / 32)) ((a - 0x100) % 32 / 4))
  else if a < 0x400 then none
  else if a < 0x4C8 then some (.kstate ((a - 0x400) / 4))
  else if a < 0x1000 then none
  else if a < 0x1000 + dmemBytes then some (.dmem (a - 0x1000))
  else none

/-- Word `j` of a byte-string register (10_state.md R36, R37): four bytes, the first in bits 31:24. -/
def packedWord {n : Nat} (v : Vector Byte n) (j : Nat) : Word := wordOfBytes ((v.toList.drop (4 * j)).take 4)

/-- Put a byte string into a vector from place `at` on. -/
def putBytes {n : Nat} (v : Vector Byte n) (pos : Nat) (bytes : List Byte) : Vector Byte n :=
  match bytes with
  | [] => v
  | b :: rest => putBytes (v.setIfInBounds pos b) (pos + 1) rest

/-- Word `j` of a general register (20_memory.md R65): bits `255-32*j` to `224-32*j`. -/
def regWord (r : Reg) (j : Nat) : Word := (r >>> (224 - 32 * j)).setWidth 32

/-- Replace word `j` of a general register and leave the other 224 bits (20_memory.md R65). -/
def putRegWord (r : Reg) (j : Nat) (v : Word) : Reg :=
  (r &&& ~~~(0xFFFFFFFF#256 <<< (224 - 32 * j))) ||| (v.setWidth 256 <<< (224 - 32 * j))

/-- The value of a word while idle (10_state.md R49, R33 to R40; 20_memory.md R65, R66). -/
def State.slotValue (s : State) (slot : Slot) : Word :=
  match slot with
  | .id => Config.idValue
  | .version => Config.versionValue
  | .ctrl => s.ctrlWord
  | .status => s.statusWord
  | .cmd => s.cmd
  | .result => s.resultWord
  | .srcOff => s.srcOff
  | .srcLen => s.srcLen
  | .aadOff => s.aadOff
  | .aadLen => s.aadLen
  | .dstOff => s.dstOff
  | .dstLen => s.dstLen
  | .iv j => packedWord s.iv j
  | .reg i j => regWord (s.reg i) j
  | .kstate j => packedWord s.kstate j
  | .dmem off => wordOfBytes (s.memRead off 4)

/-- The words that read their true value while busy (10_state.md R48). -/
def visibleBusy (slot : Slot) : Bool :=
  match slot with
  | .id | .version | .ctrl | .status | .cmd => true
  | .result | .srcOff | .srcLen | .aadOff | .aadLen | .dstOff | .dstLen | .iv _ | .reg _ _ | .kstate _
  | .dmem _ => false

/-- The effect of an accepted write while idle (10_state.md R49): a store, the write-1-to-clear of `STATUS.DONE`
(R35), an issue (R46), or nothing for a read-only word. -/
def State.writeSlot (s : State) (slot : Slot) (v : Word) : State :=
  match slot with
  | .id | .version | .result | .dstLen => s
  | .ctrl => { s with ctrl := { ie := v.getLsbD 0, lows := v.getLsbD 1 } }
  | .status => if v.getLsbD 1 then s.acknowledge else s
  | .cmd => s.issue v
  | .srcOff => { s with srcOff := v }
  | .srcLen => { s with srcLen := v }
  | .aadOff => { s with aadOff := v }
  | .aadLen => { s with aadLen := v }
  | .dstOff => { s with dstOff := v }
  | .iv j => { s with iv := putBytes s.iv (4 * j) (bytesOfWord v) }
  | .reg i j => s.setReg i (putRegWord (s.reg i) j v)
  | .kstate j => { s with kstate := putBytes s.kstate (4 * j) (bytesOfWord v) }
  | .dmem off => s.memWrite off (bytesOfWord v)

/-- `HostRead32(a)` (20_memory.md R61, R63; 10_state.md R48, R49). A read changes no state (R70). -/
def State.hostRead32 (s : State) (a : Nat) : PortResponse :=
  match slotAt s.params.dmemBytes a with
  | none => .busErr
  | some slot => .okRead (if s.status.busy && !visibleBusy slot then 0 else s.slotValue slot)

/-- `HostWrite32(a, v)` (20_memory.md R61, R63; 10_state.md R46, R48, R49): the state after it and the
response. -/
def State.hostWrite32 (s : State) (a : Nat) (v : Word) : State × PortResponse :=
  match slotAt s.params.dmemBytes a with
  | none => (s, .busErr)
  | some slot => (if s.status.busy then s else s.writeSlot slot v, .okWrite)

end Sys2Proof.Machine
end

