-- ==== Sys2Proof/Machine/Engine.lean ====
section
/-! DEFINITION. The engine's turn and the events of the outside world (spec/10_state.md R20, R31, R38, R47;
spec/70_reset_and_hazards.md R330). -/

namespace Sys2Proof.Machine

/-- The engine's turn (10_state.md R47): when busy, `complete` the word in `CMD`, which for a word that does not
decode is `IllegalCommand` (60_exceptions.md R291); when idle the step is not enabled and nothing happens. -/
def engineStep (s : State) : Host.Outcome State Fault Refusal :=
  if s.status.busy then
    match decode s.cmd with
    | .ok i => exec i s
    | .error _ => .next s.illegal
  else .next s

/-- A host read as a step: the state is unchanged but for the model's own record of the response. -/
def State.takeRead (s : State) (a : Nat) : State := { s with response := some (s.hostRead32 a) }

/-- A host write as a step. -/
def State.takeWrite (s : State) (a : Nat) (v : Word) : State :=
  { (s.hostWrite32 a v).1 with response := some (s.hostWrite32 a v).2 }

/-- Reset as a step (70_reset_and_hazards.md R330): everything at its reset value, a command in flight
abandoned. What the outside world does afterwards, and the parameters, are no state of the block and stay. -/
def State.takeReset (s : State) : State := State.resetWith s.params s.schedule

/-- One event. -/
def stepEvent (e : Event) (s : State) : Host.Outcome State Fault Refusal :=
  match e with
  | .hostRead a => .next (s.takeRead a)
  | .hostWrite a v => .next (s.takeWrite a v)
  | .engine => engineStep s
  | .reset => .next s.takeReset

/-- `CMD` holds the word in execution (10_state.md R31, R38): put it there as an issue does (R46), and give the
next turn to the engine. -/
def State.placeCommand (s : State) (w : Word) : State :=
  match s.schedule with
  | [] => s.issue w
  | e :: rest => { s.issue w with schedule := .engine :: e :: rest }

end Sys2Proof.Machine
end

