-- ==== Sys2Proof/Machine/Step.lean ====
section
/-! DEFINITION. One step of the machine: the next event of the schedule, or the engine's turn when the schedule
is empty (spec/10_state.md R20, R47; log 3). -/

namespace Sys2Proof.Machine

/-- One step: the oldest scheduled event, and with an empty schedule the engine's turn, so that a busy block
always completes (70_reset_and_hazards.md R345). -/
def step (s : State) : Host.Outcome State Fault Refusal :=
  match s.schedule with
  | [] => engineStep s
  | e :: rest => stepEvent e { s with schedule := rest }

/-- The host's issue of an opcode-table word (10_state.md R46), with the next turn the engine's: the next step
runs that command (log 6). -/
def State.withFetchWord (s : State) (nbits w : Nat) : State := s.placeCommand (tableWord nbits w)

end Sys2Proof.Machine
end

