-- ==== Sys2Proof/Machine/HexCodec.lean ====
section
/-! DEFINITION. The hex codec of the host adapter (spec/30_encoding.md R104, R105). Host software, specified as
the textual layer (spec/00_scope.md R5(b)). -/

namespace Sys2Proof.Machine

/-- The value of a hex digit: `0-9`, `a-f`, `A-F` (30_encoding.md R104). -/
def hexDigit (c : Char) : Option Nat :=
  if '0' ≤ c ∧ c ≤ '9' then some (c.toNat - 48)
  else if 'a' ≤ c ∧ c ≤ 'f' then some (c.toNat - 87)
  else if 'A' ≤ c ∧ c ≤ 'F' then some (c.toNat - 55)
  else none

/-- Pairs of digits, left to right, the first digit the high nibble (R104). -/
def hexPairs (text : List Char) : Except ErrCode (List Byte) :=
  match text with
  | [] => .ok []
  | [_] => .error .invalidEncoding
  | hi :: lo :: rest =>
    match hexDigit hi, hexDigit lo, hexPairs rest with
    | some h, some l, .ok bytes => .ok (BitVec.ofNat 8 (16 * h + l) :: bytes)
    | _, _, _ => .error .invalidEncoding

/-- `hexdecode(s)` (30_encoding.md R104): `mayBeEmpty` says whether an empty value is allowed. -/
def hexDecode (mayBeEmpty : Bool) (text : List Char) : Except ErrCode (List Byte) :=
  if text.isEmpty && !mayBeEmpty then .error .invalidEncoding else hexPairs text

/-- The lower-case digit of a nibble (R105). -/
def nibbleChar (v : Nat) : Char := if v < 10 then Char.ofNat (48 + v) else Char.ofNat (87 + v)

/-- `hexencode(b)` (30_encoding.md R105): two digits a byte, lower case, no separators. -/
def hexEncode (bytes : List Byte) : List Char :=
  bytes.flatMap fun b => [nibbleChar (b.toNat / 16), nibbleChar (b.toNat % 16)]

end Sys2Proof.Machine
end

