-- ==== Sys2Proof/Machine/HostScript.lean ====
section
/-! DEFINITION. The host's side: the accesses of a host script and the script notation itself
(spec/30_encoding.md R109). Host software, executed by the host and not by the block (R97). -/

namespace Sys2Proof.Machine

/-- `WR a, v` (R109). -/
def State.wr (s : State) (a : Nat) (v : Word) : State := (s.hostWrite32 a v).1

/-- `RD a` (R109); an access that gets `BUSERR` returns no value, read here as 0. -/
def State.rd (s : State) (a : Nat) : Word :=
  match s.hostRead32 a with
  | .okRead v => v
  | .okWrite | .busErr => 0

/-- Writes of consecutive words from a window address on. -/
def State.wrWords (s : State) (a : Nat) (words : List Word) : State :=
  match words with
  | [] => s
  | w :: rest => State.wrWords (s.wr a w) (a + 4) rest

/-- Reads of `count` consecutive words. -/
def State.rdWords (s : State) (a count : Nat) : List Word := (List.range count).map fun j => s.rd (a + 4 * j)

/-- The window address of `R[i]` (20_memory.md R64). -/
def regAddr (i : RegNum) : Nat := 0x100 + 32 * i.toNat

/-- `WR256 Ri, v` (R109). -/
def State.wr256 (s : State) (i : RegNum) (v : Nat) : State :=
  s.wrWords (regAddr i) ((List.range 8).map fun j => BitVec.ofNat 32 (v >>> (224 - 32 * j)))

/-- `RD256 Ri` (R109). -/
def State.rd256 (s : State) (i : RegNum) : Nat :=
  (s.rdWords (regAddr i) 8).foldl (fun acc w => acc * 2 ^ 32 + w.toNat) 0

/-- A byte string cut into big-endian words, the last padded on the right with 0x00 bytes (R109). -/
def wordsOfBytes (bytes : List Byte) : List Word :=
  (pieces 4 bytes).map fun p => wordOfBytes (p ++ zeros (4 - p.length))

/-- `WRIV b` (R109). -/
def State.wrIv (s : State) (bytes : List Byte) : State := s.wrWords 0x040 (wordsOfBytes bytes)

/-- `WRB o, b` (R109). -/
def State.wrB (s : State) (o : Nat) (bytes : List Byte) : State := s.wrWords (0x1000 + o) (wordsOfBytes bytes)

/-- `RDB o, n` (R109): `ceil(n/4)` reads, the first `n` bytes kept. -/
def State.rdB (s : State) (o n : Nat) : List Byte :=
  ((s.rdWords (0x1000 + o) ((n + 3) / 4)).flatMap bytesOfWord).take n

/-- `CMD <command>` (R109): the write of the command's word to `CMD`. -/
def State.issueCommand (s : State) (i : Instr) : State := s.wr 0x010 (encode i)

/-- `WAIT` (R109): `STATUS` is read until `BUSY = 0`. The engine's step is eventually taken
(70_reset_and_hazards.md R345) and reads change nothing, so the state at the end is the state after that step
(log 9), or the same state when the engine moved before (log 24). -/
def State.waitIdle (s : State) : State :=
  match engineStep s with
  | .next t => t
  | .fault _ => s
  | .refused _ => s

/-- `CMD <command> ; WAIT`. -/
def State.runCommand (s : State) (i : Instr) : State := (s.issueCommand i).waitIdle

/-- `ERR`, shorthand for `st[15:8]` after the last `WAIT` (R109). -/
def State.errRead (s : State) : Nat := (s.rd 0x00C).toNat / 256 % 256

/-- A host variable's value: a number or a byte string (R109). -/
inductive HostValue where
  | number (v : Nat)
  | bytes (b : List Byte)
  deriving DecidableEq, Repr

/-- A value where a line wants a number; of a byte string it is `int(b)` (00_scope.md R9; log 17). -/
def HostValue.toNumber : HostValue → Nat
  | .number v => v
  | .bytes b => beInt b

/-- A value where a line wants a byte string; of a number it is `be256(v)` (00_scope.md R9; log 17). -/
def HostValue.toBytes : HostValue → List Byte
  | .number v => be 32 v
  | .bytes b => b

/-- A host variable (R109): `st`, which `WAIT` sets, or one of the script's own, numbered. -/
inductive HostVar where
  | st
  | named (x : Nat)
  deriving DecidableEq, Repr

/-- What a line may use as a value, an address, an offset, a length or a side of a comparison: a host variable
(`st` too), `ERR`, or a constant (R109, R115). -/
inductive ScriptOperand where
  | var (x : HostVar)
  | err
  | const (v : HostValue)
  deriving DecidableEq, Repr

/-- A constant number as an operand. -/
def ScriptOperand.num (v : Nat) : ScriptOperand := .const (.number v)

/-- A line of a host script (R109). Labels are numbered. -/
inductive ScriptLine where
  | wr (a v : ScriptOperand)
  | rd (a : ScriptOperand) (x : HostVar)
  | wr256 (i : RegNum) (v : ScriptOperand)
  | rd256 (i : RegNum) (x : HostVar)
  | wrIv (b : ScriptOperand)
  | wrB (o b : ScriptOperand)
  | rdB (o n : ScriptOperand) (x : HostVar)
  | cmd (i : Instr)
  | wait
  | label (l : Nat)
  | goto (l : Nat)
  | ifEq (a b : ScriptOperand) (l : Nat)
  | ifNe (a b : ScriptOperand) (l : Nat)
  | halt
  deriving DecidableEq, Repr

/-- The host while it runs a script: the block, the variables, the latest setting of one first, and when the
engine moves beside the script. -/
structure ScriptHost where
  block : State
  vars : List (HostVar × HostValue)
  /-- DESIGN CHOICE (log 24), the latency that 70_reset_and_hazards.md R345 leaves open: for each line that is no
  jump, whether the engine takes its step before it. With nothing left in the list the engine moves at `WAIT`
  only, and a read of `STATUS` before the `WAIT` gives `BUSY = 1`. -/
  turns : List Bool := []
  deriving DecidableEq, Repr

/-- The value of a variable; one never set has the number 0 (log 17). -/
def ScriptHost.value (h : ScriptHost) (x : HostVar) : HostValue :=
  ((h.vars.find? fun p => p.1 == x).map (·.2)).getD (.number 0)

/-- The value of an operand; `ERR` is `st[15:8]` (R109). -/
def ScriptHost.operand (h : ScriptHost) (o : ScriptOperand) : HostValue :=
  match o with
  | .var x => h.value x
  | .err => .number ((h.value .st).toNumber / 256 % 256)
  | .const v => v

/-- An operand as a number. -/
def ScriptHost.number (h : ScriptHost) (o : ScriptOperand) : Nat := (h.operand o).toNumber

/-- An operand as a byte string. -/
def ScriptHost.bytes (h : ScriptHost) (o : ScriptOperand) : List Byte := (h.operand o).toBytes

/-- Set a variable. -/
def ScriptHost.put (h : ScriptHost) (x : HostVar) (v : HostValue) : ScriptHost := { h with vars := (x, v) :: h.vars }

/-- The lines after a label; none where the label is missing (log 17). -/
def linesAfter (l : Nat) (script : List ScriptLine) : List ScriptLine :=
  (script.dropWhile fun line => line != .label l).drop 1

/-- The engine's turn before a line, if the list gives it one (log 24). -/
def ScriptHost.engineTurn (h : ScriptHost) : ScriptHost :=
  match h.turns with
  | [] => h
  | moves :: later => { h with block := if moves then h.block.waitIdle else h.block, turns := later }

/-- A line that is no jump: its effect on the host and the block (R109). -/
def ScriptHost.run (h : ScriptHost) (line : ScriptLine) : ScriptHost :=
  match line with
  | .wr a v => { h with block := h.block.wr (h.number a) (BitVec.ofNat 32 (h.number v)) }
  | .rd a x => h.put x (.number (h.block.rd (h.number a)).toNat)
  | .wr256 i v => { h with block := h.block.wr256 i (h.number v) }
  | .rd256 i x => h.put x (.number (h.block.rd256 i))
  | .wrIv b => { h with block := h.block.wrIv (h.bytes b) }
  | .wrB o b => { h with block := h.block.wrB (h.number o) (h.bytes b) }
  | .rdB o n x => h.put x (.bytes (h.block.rdB (h.number o) (h.number n)))
  | .cmd i => { h with block := h.block.issueCommand i }
  | .wait => { h with block := h.block.waitIdle }.put .st (.number (h.block.waitIdle.rd 0x00C).toNat)
  | .label _ | .goto _ | .ifEq .. | .ifNe .. | .halt => h

/-- Run at most `fuel` lines of a script from `rest` on (R109; log 17), the engine moving before a line where
`turns` says so and at `WAIT` (log 24). -/
def runScript (fuel : Nat) (script rest : List ScriptLine) (h : ScriptHost) : ScriptHost :=
  match fuel, rest with
  | 0, _ => h
  | _ + 1, [] => h
  | fuel + 1, line :: more =>
    match line with
    | .halt => h
    | .goto l => runScript fuel script (linesAfter l script) h
    | .ifEq a b l =>
      if h.operand a = h.operand b then runScript fuel script (linesAfter l script) h
      else runScript fuel script more h
    | .ifNe a b l =>
      if h.operand a = h.operand b then runScript fuel script more h
      else runScript fuel script (linesAfter l script) h
    | .wr .. | .rd .. | .wr256 .. | .rd256 .. | .wrIv _ | .wrB .. | .rdB .. | .cmd _ | .wait | .label _ =>
      runScript fuel script more (h.engineTurn.run line)

/-- After a `CMD`: nothing but reads of `STATUS` up to the next `WAIT` (R109, last sentence). -/
def reachesWait (lines : List ScriptLine) : Bool :=
  match lines with
  | .wait :: _ => true
  | .rd a _ :: rest => a == ScriptOperand.num 0x00C && reachesWait rest
  | _ => false

/-- The access rule scripts obey (R109): every `CMD` reaches its `WAIT`. -/
def obeysWaits (script : List ScriptLine) : Bool :=
  match script with
  | [] => true
  | .cmd _ :: rest => reachesWait rest && obeysWaits rest
  | _ :: rest => obeysWaits rest

end Sys2Proof.Machine
end

