-- ==== Sys2Proof/Machine/Adapter.lean ====
section
/-! DEFINITION. The host adapter: argument checks, error mapping, and the six textual commands
(spec/30_encoding.md R106 to R108, R110 to R115). Host software over the host port only. DESIGN CHOICE (log 23):
the six commands are the expansions as R110 to R115 write them, which issue no `ZEROIZE`; 47_system.md R281 says
the adapter ends a command that handled a secret with one, and `thenZeroize` adds it. -/

namespace Sys2Proof.Machine

/-- The arguments of the textual commands (30_encoding.md R106). -/
inductive ArgKind where
  | privateKey
  | messageDigest
  | signature
  | publicKey
  | aeadKey
  | aeadNonce
  | data
  | plaintext
  | associatedData
  | ciphertextWithTag
  deriving DecidableEq, Repr

/-- How a textual command fails: a kind of the source's set, or one of the two documented exceptions
(30_encoding.md R108, R114). -/
inductive AdapterError where
  | kind (e : ErrCode)
  | capacityExceeded
  /-- A completion code a correct adapter does not provoke (R108). -/
  | internalFailure (code : Nat)
  deriving DecidableEq, Repr

/-- Output lines, or a failure. -/
abbrev AdapterResult := Except AdapterError (List (List Char))

/-- Whether an argument may be empty (R106). `ciphertext_with_tag` has "any" length, so an empty one goes to
the hardware (log 10). -/
def ArgKind.mayBeEmpty : ArgKind → Bool
  | .data | .plaintext | .associatedData | .ciphertextWithTag => true
  | .privateKey | .messageDigest | .signature | .publicKey | .aeadKey | .aeadNonce => false

/-- The required lengths (R106); an empty list: any length. -/
def ArgKind.lengths : ArgKind → List Nat
  | .privateKey | .messageDigest | .aeadKey => [32]
  | .signature => [64]
  | .publicKey => [33, 65]
  | .aeadNonce => [12]
  | .data | .plaintext | .associatedData | .ciphertextWithTag => []

/-- The error of a wrong length (R106). -/
def ArgKind.lengthError : ArgKind → ErrCode
  | .privateKey | .aeadKey => .invalidKey
  | .messageDigest | .aeadNonce => .invalidEncoding
  | .signature => .invalidSignature
  | .publicKey => .invalidPublicKey
  | .data | .plaintext | .associatedData | .ciphertextWithTag => .invalidEncoding

/-- Decode one argument, then check its length (R104, R106). -/
def decodeArg (k : ArgKind) (text : List Char) : Except ErrCode (List Byte) :=
  match hexDecode k.mayBeEmpty text with
  | .error e => .error e
  | .ok b => if k.lengths.isEmpty || k.lengths.contains b.length then .ok b else .error k.lengthError

/-- Arguments are decoded and checked left to right; the first failure is the one reported (R106). -/
def decodeArgs (args : List (ArgKind × List Char)) : Except ErrCode (List (List Byte)) :=
  match args with
  | [] => .ok []
  | (k, text) :: rest =>
    match decodeArg k text with
    | .error e => .error e
    | .ok b =>
      match decodeArgs rest with
      | .error e => .error e
      | .ok bs => .ok (b :: bs)

/-- The adapter's reading of a completion (R108): codes 2, 3 and 5 are the source's kinds. -/
def mapError (code : Nat) : AdapterError :=
  if code = 2 then .kind .invalidKey
  else if code = 3 then .kind .invalidPublicKey
  else if code = 5 then .kind .authenticationFailure
  else .internalFailure code

/-- Go on after `CMD ; WAIT` when `ERR = 0`, else fail (R108). -/
def ifOk (s : State) (more : AdapterResult × State) : AdapterResult × State :=
  if s.errRead = 0 then more else (.error (mapError s.errRead), s)

/-- The `ZEROIZE` that 47_system.md R281 puts at the end of a textual command that handled a secret, and that
30_encoding.md R115 leaves to the adapter ("should", "if the key must not remain"): apply it to the outcome of
`derivePublicKey`, `ecdsaSignText`, `aeadEncryptText` or `aeadDecryptText` (log 23). -/
def thenZeroize (outcome : AdapterResult × State) : AdapterResult × State :=
  (outcome.1, outcome.2.runCommand .zeroize)

/-- `derive-public-key private_key` (30_encoding.md R110). DESIGN CHOICE (log 23): no `ZEROIZE` at its end, the
key stays in `R[0]`; `thenZeroize` adds it. -/
def derivePublicKey (privateKey : List Char) (s : State) : AdapterResult × State :=
  match decodeArgs [(.privateKey, privateKey)] with
  | .ok [key] =>
    let s1 := (s.wr256 0 (beInt key)).runCommand .derive
    ifOk s1 <|
      let s2 := (s1.wr 0x030 0).runCommand (.pkEncode .compressed)
      let s3 := s2.runCommand (.pkEncode .uncompressed)
      ifOk s2 <| ifOk s3 (.ok [hexEncode (s2.rdB 0 33), hexEncode (s3.rdB 0 65)], s3)
  | .ok _ => (.ok [], s)
  | .error e => (.error (.kind e), s)

/-- `ecdsa-sign message_digest private_key` (30_encoding.md R111). DESIGN CHOICE (log 23): no `ZEROIZE` at its
end, the key stays in `R[0]`; `thenZeroize` adds it. -/
def ecdsaSignText (digest privateKey : List Char) (s : State) : AdapterResult × State :=
  match decodeArgs [(.messageDigest, digest), (.privateKey, privateKey)] with
  | .ok [z, key] =>
    let s1 := ((s.wr256 1 (beInt z)).wr256 0 (beInt key)).runCommand .ecdsaSign
    ifOk s1 (.ok [hexEncode (be 32 (s1.rd256 3) ++ be 32 (s1.rd256 4))], s1)
  | .ok _ => (.ok [], s)
  | .error e => (.error (.kind e), s)

/-- `ecdsa-verify message_digest signature public_key` (30_encoding.md R112). -/
def ecdsaVerifyText (digest signature publicKey : List Char) (s : State) : AdapterResult × State :=
  match decodeArgs [(.messageDigest, digest), (.signature, signature), (.publicKey, publicKey)] with
  | .ok [z, sig, key] =>
    let s1 := (((s.wrB 0 key).wr 0x020 0).wr 0x024 (BitVec.ofNat 32 key.length)).runCommand .pkDecode
    ifOk s1 <|
      let s2 := (((s1.wr256 1 (beInt z)).wr256 3 (beInt (sig.take 32))).wr256 4 (beInt (sig.drop 32))).runCommand
        .ecdsaVerify
      ifOk s2 (.ok [if (s2.rd 0x014).getLsbD 0 then "True".toList else "False".toList], s2)
  | .ok _ => (.ok [], s)
  | .error e => (.error (.kind e), s)

/-- The whole blocks of a streamed hash (30_encoding.md R113): while more than `DMEM_BYTES` bytes remain, the
next `B` bytes are absorbed. Returns what remains and the block. -/
def streamBlocks (fuel : Nat) (data : List Byte) (s : State) : List Byte × State :=
  match fuel with
  | 0 => (data, s)
  | fuel + 1 =>
    if data.length ≤ s.params.dmemBytes then (data, s)
    else
      let b := keccakRate * (s.params.dmemBytes / keccakRate)
      streamBlocks fuel (data.drop b)
        ((((s.wrB 0 (data.take b)).wr 0x020 0).wr 0x024 (BitVec.ofNat 32 b)).runCommand .keccakAbsorb)

/-- `keccak256 data` (30_encoding.md R113). -/
def keccak256Text (data : List Char) (s : State) : AdapterResult × State :=
  match decodeArgs [(.data, data)] with
  | .ok [bytes] =>
    if bytes.length ≤ s.params.dmemBytes then
      let s1 := (((s.wrB 0 bytes).wr 0x020 0).wr 0x024 (BitVec.ofNat 32 bytes.length)).runCommand (.keccak256 1)
      ifOk s1 (.ok [hexEncode (be 32 (s1.rd256 1))], s1)
    else
      let streamed := streamBlocks bytes.length bytes (s.runCommand .keccakInit)
      let s1 := ((streamed.2.wrB 0 streamed.1).wr 0x024 (BitVec.ofNat 32 streamed.1.length)).runCommand
        (.keccakFinal 1)
      ifOk s1 (.ok [hexEncode (be 32 (s1.rd256 1))], s1)
  | .ok _ => (.ok [], s)
  | .error e => (.error (.kind e), s)

/-- `4*ceil(len/4)`, the place of the text after the associated data (30_encoding.md R114). -/
def wordAligned (n : Nat) : Nat := 4 * ((n + 3) / 4)

/-- The inputs of an AEAD command, written as R114 and R115 write them. -/
def aeadInputs (key nonce aad text : List Byte) (s : State) : State :=
  let a4 := wordAligned aad.length
  let s1 := (s.wr256 10 (beInt key)).wrIv nonce
  let s2 := ((s1.wrB 0 aad).wr 0x028 0).wr 0x02C (BitVec.ofNat 32 aad.length)
  let s3 := ((s2.wrB a4 text).wr 0x020 (BitVec.ofNat 32 a4)).wr 0x024 (BitVec.ofNat 32 text.length)
  s3.wr 0x030 (BitVec.ofNat 32 a4)

/-- `aead-encrypt key nonce plaintext associated_data` (30_encoding.md R114). DESIGN CHOICE (log 23): no `ZEROIZE`
at its end, the key stays in `R[10]`; `thenZeroize` adds it. -/
def aeadEncryptText (key nonce plaintext aad : List Char) (s : State) : AdapterResult × State :=
  match decodeArgs [(.aeadKey, key), (.aeadNonce, nonce), (.plaintext, plaintext), (.associatedData, aad)] with
  | .ok [k, iv, pt, ad] =>
    if s.params.dmemBytes < wordAligned ad.length + pt.length + 16 then (.error .capacityExceeded, s)
    else
      let s1 := (aeadInputs k iv ad pt s).runCommand (.gcmEnc 10)
      ifOk s1 (.ok [hexEncode (s1.rdB (wordAligned ad.length) (pt.length + 16))], s1)
  | .ok _ => (.ok [], s)
  | .error e => (.error (.kind e), s)

/-- `aead-decrypt key nonce ciphertext_with_tag associated_data` (30_encoding.md R115). DESIGN CHOICE (log 23): no
`ZEROIZE` at its end, the key stays in `R[10]`; `thenZeroize` adds it. -/
def aeadDecryptText (key nonce ciphertext aad : List Char) (s : State) : AdapterResult × State :=
  match decodeArgs [(.aeadKey, key), (.aeadNonce, nonce), (.ciphertextWithTag, ciphertext),
      (.associatedData, aad)] with
  | .ok [k, iv, ct, ad] =>
    if s.params.dmemBytes < wordAligned ad.length + ct.length then (.error .capacityExceeded, s)
    else
      let s1 := (aeadInputs k iv ad ct s).runCommand (.gcmDec 10)
      ifOk s1 (.ok [hexEncode (s1.rdB (wordAligned ad.length) (s1.rd 0x034).toNat)], s1)
  | .ok _ => (.ok [], s)
  | .error e => (.error (.kind e), s)

end Sys2Proof.Machine
end

