-- ==== Sys2Proof/Safety.lean ====
section
/-! DEFINITION. What a good state and a good step are, in the terms the claims use: the invariant every step
keeps, what a command may change, how a command ends, which errors and flags it may report. Each clause names the
rule it comes from. -/

namespace Sys2Proof.Machine

/-- The codes the hardware puts into `STATUS.ERR` (spec/60_exceptions.md R290): every code but 1 and 4. -/
def hardwareCodes : List (BitVec 8) :=
  [0x00, 0x02, 0x03, 0x05, 0x10, 0x11, 0x12, 0x13, 0x14, 0x15, 0x16]

/-- At most one flag of `RESULT` is set: no command produces two (10_state.md R32, 41_point.md R157,
44_ecdsa_verify.md R221). -/
def ResultFlags.single (f : ResultFlags) : Bool :=
  f == noFlags || f == validFlag true || f == infFlag || f == { valid := false, inf := false, parity := true }

/-- The invariant of the block. -/
structure State.Inv (s : State) : Prop where
  /-- The parameters lie in the ranges of 00_scope.md R6. -/
  params_valid : s.params.valid = true
  /-- DMEM keeps its canonical form. -/
  dmem_wf : s.dmem.wf = true
  /-- DMEM holds nothing at or above `DMEM_BYTES` (20_memory.md R60). -/
  dmem_within : s.dmem.within s.params.dmemBytes = true
  /-- `STATUS.ERR` holds a code of 60_exceptions.md R290, and never 1 or 4. -/
  err_legal : s.status.err ∈ hardwareCodes
  /-- "`BUSY` and `DONE` are never both 1" (10_state.md R35). -/
  not_busy_done : ¬ (s.status.busy = true ∧ s.status.done = true)
  /-- While a command is in flight there is no code and no flag (10_state.md R46). -/
  busy_clear : s.status.busy = true → s.status.err = 0 ∧ s.result = noFlags
  /-- "On a completion with an error all three `RESULT` bits are 0" (10_state.md R32). -/
  err_no_flags : s.status.err ≠ 0 → s.result = noFlags
  /-- No command produces two flags (10_state.md R32). -/
  one_flag : s.result.single = true
  /-- Without a live generator the hidden pair is clear (10_state.md R41). -/
  drbg_clear : s.drbgValid = false → s.drbgK = 0 ∧ s.drbgV = 0
  /-- `DST_LEN` counts bytes of DMEM (10_state.md R40). -/
  dst_len_le : s.dstLen.toNat ≤ s.params.dmemBytes

/-- A step that stops the machine: it has no next state. -/
def stops (o : Host.Outcome State Fault Refusal) : Bool :=
  match o with
  | .next _ => false
  | .fault _ => true
  | .refused _ => true

/-- Every bit of state at the reset value of 10_state.md R44, in the words the host reads where there are some. -/
structure State.AtReset (s : State) : Prop where
  regs : ∀ i, s.reg i = 0
  iv : s.iv.toList = zeros 12
  kstate : s.kstate.toList = zeros 200
  dmem : ∀ a, s.dmem.readByte a = 0
  drbg : s.drbgK = 0 ∧ s.drbgV = 0 ∧ s.drbgValid = false
  ctrl : s.ctrlWord = 0x00000002
  status : s.statusWord = 0 ∧ s.status.busy = false ∧ s.status.done = false ∧ s.status.err = 0
  cmd : s.cmd = 0
  result : s.resultWord = 0 ∧ s.result = noFlags
  descriptors : s.srcOff = 0 ∧ s.srcLen = 0 ∧ s.aadOff = 0 ∧ s.aadLen = 0 ∧ s.dstOff = 0 ∧ s.dstLen = 0
  irq : s.irq = false

/-- What a command may change besides `STATUS` and `RESULT` (10_state.md R24, R40, R41; 20_memory.md R78): the
general registers of `regs`, `KSTATE`, the DRBG state, the `stored` bytes of DMEM from `DST_OFF` on, `DST_LEN`. -/
structure Footprint where
  regs : List RegNum := []
  kstate : Bool := false
  drbg : Bool := false
  stored : Nat := 0
  dstLen : Bool := false
  deriving DecidableEq, Repr

/-- From `s` to `t` nothing changed outside the footprint but `STATUS` and `RESULT`. The bytes stored to are the
`f.stored` bytes from `DST_OFF` on, `DST_OFF` as it was in `s`. -/
structure Framed (f : Footprint) (s t : State) : Prop where
  params : t.params = s.params
  regs : ∀ i, i ∉ f.regs → t.reg i = s.reg i
  iv : t.iv = s.iv
  kstate : f.kstate = false → t.kstate = s.kstate
  mem : ∀ a, a < s.dstOff.toNat ∨ s.dstOff.toNat + f.stored ≤ a → t.dmem.readByte a = s.dmem.readByte a
  drbg : f.drbg = false → t.drbgK = s.drbgK ∧ t.drbgV = s.drbgV ∧ t.drbgValid = s.drbgValid
  ctrl : t.ctrl = s.ctrl
  cmd : t.cmd = s.cmd
  src : t.srcOff = s.srcOff ∧ t.srcLen = s.srcLen
  aad : t.aadOff = s.aadOff ∧ t.aadLen = s.aadLen
  dstOff : t.dstOff = s.dstOff
  dstLen : f.dstLen = false → t.dstLen = s.dstLen
  outside : t.schedule = s.schedule ∧ t.response = s.response

/-- A completion without an error (10_state.md R47): idle, done, no code, the flags written. -/
structure Succeeded (t : State) (flags : ResultFlags) : Prop where
  status : t.status = { busy := false, done := true, err := 0 }
  result : t.result = flags

/-- A completion with an error (60_exceptions.md R296): idle, done, the code, no flag. -/
structure Failed (t : State) (e : ErrCode) : Prop where
  status : t.status = { busy := false, done := true, err := e.code }
  result : t.result = noFlags

/-- The four commands that write DMEM and `DST_LEN`, and whose error clears `DST_LEN` (10_state.md R40, R47). -/
def writesOutput : Instr → Bool
  | .pkEncode _ | .aes256Enc _ | .gcmEnc _ | .gcmDec _ => true
  | .nop | .zeroize | .montMul .. | .toMont .. | .fromMont .. | .modMul .. | .modAdd .. | .modSub .. | .modInv ..
  | .modRed .. | .pmulG | .pmul | .derive | .pkDecode | .nonceFirst | .nonceNext | .signK | .ecdsaSign
  | .ecdsaVerify | .keccakF1600 | .keccakInit | .keccakAbsorb | .keccakFinal _ | .keccak256 _ => false

/-- The footprint of an error (60_exceptions.md R296): `DST_LEN` for the four output commands, nothing else. -/
def errorFootprint (i : Instr) : Footprint := { dstLen := writesOutput i }

/-- A command ends with an error and none of its writes (60_exceptions.md R296). -/
structure FailsWith (i : Instr) (s t : State) (e : ErrCode) : Prop where
  failed : Failed t e
  framed : Framed (errorFootprint i) s t
  dstLen : writesOutput i = true → t.dstLen = 0

/-- The command completes with the error `e` and none of its writes. -/
def Raises (i : Instr) (s : State) (e : ErrCode) : Prop := ∃ t, exec i s = .next t ∧ FailsWith i s t e

/-- The write columns of 10_state.md R24 and 20_memory.md R78. `ZEROIZE` clears more than a footprint can name
(47_system.md R281) and has its own statement; its entry here is not used. -/
def footprint (i : Instr) (s : State) : Footprint :=
  match i with
  | .nop | .zeroize | .ecdsaVerify => {}
  | .montMul rd _ _ _ | .modMul rd _ _ _ | .modAdd rd _ _ _ | .modSub rd _ _ _ => { regs := [rd] }
  | .toMont rd _ _ | .fromMont rd _ _ | .modInv rd _ _ | .modRed rd _ _ => { regs := [rd] }
  | .pmulG | .pmul => { regs := [regPx, regPy] }
  | .derive | .pkDecode => { regs := [regQx, regQy] }
  | .pkEncode comp => { stored := encLength comp, dstLen := true }
  | .nonceFirst | .nonceNext => { regs := [regK], drbg := true }
  | .signK | .ecdsaSign => { regs := [regSigR, regSigS] }
  | .keccakF1600 | .keccakInit | .keccakAbsorb => { kstate := true }
  | .keccakFinal rd | .keccak256 rd => { regs := [rd], kstate := true }
  | .aes256Enc _ => { stored := 16, dstLen := true }
  | .gcmEnc _ => { stored := s.srcLen.toNat + 16, dstLen := true }
  | .gcmDec _ => { stored := s.srcLen.toNat - 16, dstLen := true }

/-- The errors a decoded command may report (60_exceptions.md R290, columns "raised by" and "cause"). -/
def reportable (i : Instr) : List ErrCode :=
  match i with
  | .nop | .zeroize | .modRed .. | .pmulG | .keccakF1600 | .keccakInit => []
  | .montMul .. | .toMont .. | .fromMont .. | .modMul .. | .modAdd .. | .modSub .. | .modInv .. => [.operandRange]
  | .pmul | .ecdsaVerify => [.invalidPublicKey]
  | .derive => [.invalidKey]
  | .pkEncode _ | .pkDecode => [.badRange, .invalidPublicKey]
  | .nonceFirst | .ecdsaSign => [.invalidKey, .nonceExhausted]
  | .nonceNext => [.sequence, .nonceExhausted]
  | .signK => [.invalidKey, .badNonce, .retry]
  | .keccakAbsorb | .keccakFinal _ | .keccak256 _ | .aes256Enc _ | .gcmEnc _ => [.badRange]
  | .gcmDec _ => [.badRange, .authenticationFailure]

/-- The flags a command may set (10_state.md R32, columns "flag" and "set to 1 by"): whether it may set `VALID`,
`INF`, `PARITY`. -/
def settable (i : Instr) : ResultFlags :=
  match i with
  | .ecdsaVerify => { valid := true, inf := false, parity := false }
  | .pmulG | .pmul => { valid := false, inf := true, parity := true }
  | .derive | .pkEncode _ | .pkDecode => { valid := false, inf := false, parity := true }
  | .nop | .zeroize | .montMul .. | .toMont .. | .fromMont .. | .modMul .. | .modAdd .. | .modSub .. | .modInv ..
  | .modRed .. | .nonceFirst | .nonceNext | .signK | .ecdsaSign | .keccakF1600 | .keccakInit | .keccakAbsorb
  | .keccakFinal _ | .keccak256 _ | .aes256Enc _ | .gcmEnc _ | .gcmDec _ => noFlags

/-- The host's loop on the low-level signing path (43_ecdsa_sign.md R213, 42_nonce.md R199): `SIGN_K`, and on
`Retry` a `NONCE_NEXT` and again, at most `turns` times. -/
def lowLevelSign (turns : Nat) (s : State) : Host.Outcome State Fault Refusal :=
  match turns with
  | 0 => .next s
  | turns + 1 =>
    match exec .signK s with
    | .next t =>
      if t.status.err = ErrCode.code .retry then
        match exec .nonceNext t with
        | .next u => lowLevelSign turns u
        | .fault r => .fault r
        | .refused r => .refused r
      else .next t
    | .fault r => .fault r
    | .refused r => .refused r

end Sys2Proof.Machine
end

