-- ==== Sys2Proof/Certificates/Slice0/Obligations.lean ====
section
/-! DEFINITION. The statements for the provers. `Framed`, `Succeeded`, `Raises`, `State.Inv` and the other words
used here are defined in Sys2Proof/Safety.lean. -/

open Sys2Proof Sys2Proof.Machine

/-! Encoding. -/

/-- 30_encoding.md R95, "Encoding is the inverse": no field of any command is dropped. -/
def Obligations.DecodeEncodeCommand : Prop :=
  ∀ i : Instr, i.wellFormed = true → decode (encode i) = .ok i

/-- 30_encoding.md R95: a word is one command with its field values, so no bit of an accepted word is ignored. -/
def Obligations.EncodeDecodeWord : Prop :=
  ∀ (w : Word) (i : Instr), decode w = .ok i → encode i = w

/-- 30_encoding.md R91, R95, R96: the decoder accepts exactly the instances of the 28 rows, no word is an instance
of two rows, and each of the two reasons to refuse is given exactly where it applies. -/
def Obligations.DecodeAcceptsTableWords : Prop :=
  (∀ w : Word, (∃ i, decode w = .ok i) ↔ ∃ row ∈ opcodeRows, w &&& row.2 = row.1) ∧
  (∀ (w : Word) (r₁ r₂ : Word × Word), r₁ ∈ opcodeRows → r₂ ∈ opcodeRows → w &&& r₁.2 = r₁.1 → w &&& r₂.2 = r₂.1 →
    r₁ = r₂) ∧
  (∀ w : Word, decode w = .error (.reservedOpcode (opField w)) ↔
    ∀ row ∈ opcodeRows, row.1 ≠ (opField w).setWidth 32) ∧
  (∀ w : Word, decode w = .error (.strayBits w) ↔
    ∃ row ∈ opcodeRows, row.1 = (opField w).setWidth 32 ∧ w &&& row.2 ≠ row.1)

/-- Words of the spec's examples (R128, R129, R131, R133 to R135, R161, R262, R291), one or more of a family. -/
def Obligations.ExampleWordsDecode : Prop :=
  decode 0x00000001 = .ok .zeroize ∧ decode 0x00110210 = .ok (.montMul 2 0 1 .orderN) ∧
  decode 0x00000111 = .ok (.toMont 1 0 .fieldP) ∧ decode 0x00101117 = .ok (.modRed 1 1 .orderN) ∧
  decode 0x00000123 = .ok (.pkEncode .compressed) ∧ decode 0x00000030 = .ok .nonceFirst ∧
  decode 0x00000039 = .ok .ecdsaSign ∧ decode 0x00000040 = .ok .ecdsaVerify ∧
  decode 0x00000154 = .ok (.keccak256 1) ∧ decode 0x0000A060 = .ok (.aes256Enc 10) ∧
  decode 0x00000070 = .error (.reservedOpcode 0x70) ∧ decode 0x00000120 = .error (.strayBits 0x120) ∧
  decode 0x00200010 = .error (.strayBits 0x200010)

/-! The step. -/

/-- 10_state.md R47: when busy, the engine's turn is `exec` of the command in `CMD`; and a word placed by
`withFetchWord` is the command the very next step runs. -/
def Obligations.StepRunsDecodedCommand : Prop :=
  (∀ (s : State) (i : Instr), s.status.busy = true → decode s.cmd = .ok i → s.schedule = [] → step s = exec i s) ∧
  (∀ (s : State) (i : Instr) (rest : List Event), s.status.busy = true → decode s.cmd = .ok i →
    s.schedule = .engine :: rest → step s = exec i { s with schedule := rest }) ∧
  (∀ (s : State) (w : Word) (i : Instr), decode w = .ok i →
    step (s.withFetchWord 32 w.toNat) = exec i (s.issue w))

/-- 60_exceptions.md R291: a word the decoder refuses completes with code 0x10 and no other change, at any turn of
the engine: with nothing scheduled, or with its turn at the head of the schedule, which that turn uses up. The
schedule is the model's (log 3). -/
def Obligations.IllegalWordCompletes : Prop :=
  (∀ s : State, s.status.busy = true → (∀ i, decode s.cmd ≠ .ok i) → s.schedule.headD .engine = .engine →
    ∃ t, step s = .next t ∧ Failed t .illegalCommand ∧ Framed {} { s with schedule := s.schedule.tail } t ∧
      t.statusWord = 0x00001006 ||| bitAt s.drbgValid 3 ∧ t.resultWord = 0) ∧
  (∀ w : Word, w = 0x00000070 ∨ w = 0x00000120 ∨ w = 0x00200010 → ∀ i, decode w ≠ .ok i)

/-- "Nothing in this hardware is `stuck`" (93_implementation_defined.md part 1): every state has a next state, the
parameters never change, and one event of the schedule is used up. -/
def Obligations.StepNeverStops : Prop :=
  ∀ s : State, ∃ t, step s = .next t ∧ t.params = s.params ∧ t.schedule = s.schedule.tail

/-- 70_reset_and_hazards.md R345, over the model's schedule (log 3): an engine turn ends every command, and the
block is idle after the scheduled events and one turn more. -/
def Obligations.BusyBlockCompletes : Prop :=
  (∀ s : State, s.status.busy = true → s.schedule.headD .engine = .engine →
    ∃ t, step s = .next t ∧ t.status.busy = false ∧ t.status.done = true) ∧
  (∀ s : State, ∃ t : State, Host.Core.run Sys2Proof.core (s.schedule.length + 1) s = .next t ∧
    t.status.busy = false ∧ t.schedule = [])

/-- The invariant (`State.Inv`, whose clauses name their rules) is kept by every step from every state. -/
def Obligations.StepKeepsInvariant : Prop :=
  ∀ s t : State, s.Inv → step s = .next t → t.Inv

/-- The invariant holds after reset, with any parameters in range and any schedule. -/
def Obligations.ResetHasInvariant : Prop :=
  State.reset.Inv ∧ ∀ (c : Params) (events : List Event), c.valid = true → (State.resetWith c events).Inv

/-- 10_state.md R44 and 70_reset_and_hazards.md R330: reset gives every bit its reset value, at any time, also with
a command in flight; the constants read the same. That a reset is an event of the schedule and keeps the later
events is the model's choice (logs 3, 16), and so is that it keeps the parameters (logs 1, 2). -/
def Obligations.ResetValues : Prop :=
  State.reset.AtReset ∧ State.reset.hostRead32 0x000 = .okRead 0x42514331 ∧
  State.reset.hostRead32 0x004 = .okRead 0x00070000 ∧
  ∀ (s : State) (rest : List Event), s.schedule = .reset :: rest →
    ∃ t, step s = .next t ∧ t.AtReset ∧ t.params = s.params ∧ t.schedule = rest

/-! The host port. -/

/-- 20_memory.md R63 with the map of R64 written out: an access is accepted exactly when it is aligned and mapped,
idle or busy; any other gets `BUSERR` and changes nothing. -/
def Obligations.PortAcceptsMappedWords : Prop :=
  ∀ (s : State) (a : Nat) (v : Word),
    if a % 4 = 0 ∧ (a < 0x018 ∨ (0x020 ≤ a ∧ a < 0x038) ∨ (0x040 ≤ a ∧ a < 0x04C) ∨ (0x100 ≤ a ∧ a < 0x300) ∨
        (0x400 ≤ a ∧ a < 0x4C8) ∨ (0x1000 ≤ a ∧ a < 0x1000 + s.params.dmemBytes)) then
      (∃ x, s.hostRead32 a = .okRead x) ∧ (s.hostWrite32 a v).2 = .okWrite
    else s.hostRead32 a = .busErr ∧ s.hostWrite32 a v = (s, .busErr)

/-- 10_state.md R48: while busy no write changes anything, five words read their true value, every other accepted
read gives 0, and an access that gets `BUSERR` when idle gets it when busy. -/
def Obligations.BusyFreezesHost : Prop :=
  ∀ (s : State) (a : Nat) (v : Word), s.status.busy = true →
    (s.hostWrite32 a v).1 = s ∧
    s.hostRead32 0x000 = .okRead 0x42514331 ∧ s.hostRead32 0x004 = .okRead 0x00070000 ∧
    s.hostRead32 0x008 = .okRead s.ctrlWord ∧ s.hostRead32 0x00C = .okRead s.statusWord ∧
    s.hostRead32 0x010 = .okRead s.cmd ∧
    (a ≠ 0x000 ∧ a ≠ 0x004 ∧ a ≠ 0x008 ∧ a ≠ 0x00C ∧ a ≠ 0x010 → s.hostRead32 a =
      (if ({ s with status := { s.status with busy := false } } : State).hostRead32 a = .busErr
        then .busErr else .okRead 0)) ∧
    (s.hostWrite32 a v).2 = (if ({ s with status := { s.status with busy := false } } : State).hostRead32 a = .busErr
      then .busErr else .okWrite)

/-- 10_state.md R46, R38: an idle write to `CMD` issues, whatever the word, and changes nothing else; `CMD` then
reads the word. -/
def Obligations.WriteToCmdIssues : Prop :=
  ∀ (s : State) (w : Word), s.status.busy = false →
    ∃ t, s.hostWrite32 0x010 w = (t, .okWrite) ∧ t.cmd = w ∧
      t.status = { busy := true, done := false, err := 0 } ∧ t.result = noFlags ∧
      { t with cmd := s.cmd, status := s.status, result := s.result } = s ∧
      t.hostRead32 0x010 = .okRead w ∧ t.irq = false

/-- 20_memory.md R65: word `j` of `R[i]`, read and written, and the 32 bytes at ascending addresses. -/
def Obligations.RegisterWords : Prop :=
  ∀ (s : State) (i : RegNum) (j : Nat) (v : Word), s.status.busy = false → j < 8 →
    s.hostRead32 (0x100 + 32 * i.toNat + 4 * j)
      = .okRead (BitVec.ofNat 32 (s.regNat i / 2 ^ (224 - 32 * j) % 2 ^ 32)) ∧
    (s.rdWords (0x100 + 32 * i.toNat) 8).flatMap bytesOfWord = be256 (s.reg i) ∧
    ∃ t, s.hostWrite32 (0x100 + 32 * i.toNat + 4 * j) v = (t, .okWrite) ∧
      (∀ b, b < 256 → (t.reg i).getLsbD b
        = if 224 - 32 * j ≤ b ∧ b < 256 - 32 * j then v.getLsbD (b - (224 - 32 * j)) else (s.reg i).getLsbD b) ∧
      (∀ k, k ≠ i → t.reg k = s.reg k) ∧ { t with regs := s.regs } = s

/-- 20_memory.md R66, 10_state.md R36, R37: the words of DMEM, `IV` and `KSTATE`, big-endian at the port. -/
def Obligations.ByteStringWords : Prop :=
  (∀ (s : State) (o : Nat) (v : Word), s.status.busy = false → o % 4 = 0 → o + 4 ≤ s.params.dmemBytes →
    s.hostRead32 (0x1000 + o) = .okRead (s.dmem.readByte o ++ s.dmem.readByte (o + 1) ++ s.dmem.readByte (o + 2)
      ++ s.dmem.readByte (o + 3)) ∧
    ∃ t, s.hostWrite32 (0x1000 + o) v = (t, .okWrite) ∧
      (∀ k, k < 4 → t.dmem.readByte (o + k) = v.extractLsb' (24 - 8 * k) 8) ∧
      (∀ a, a < o ∨ o + 4 ≤ a → t.dmem.readByte a = s.dmem.readByte a) ∧ { t with dmem := s.dmem } = s) ∧
  (∀ (s : State) (j : Nat) (v : Word), s.status.busy = false → j < 3 →
    s.hostRead32 (0x040 + 4 * j) = .okRead (s.iv.toList.getD (4 * j) 0 ++ s.iv.toList.getD (4 * j + 1) 0
      ++ s.iv.toList.getD (4 * j + 2) 0 ++ s.iv.toList.getD (4 * j + 3) 0) ∧
    ∃ t, s.hostWrite32 (0x040 + 4 * j) v = (t, .okWrite) ∧ { t with iv := s.iv } = s ∧
      ∀ k, k < 12 → t.iv.toList.getD k 0
        = if 4 * j ≤ k ∧ k < 4 * j + 4 then v.extractLsb' (24 - 8 * (k - 4 * j)) 8 else s.iv.toList.getD k 0) ∧
  (∀ (s : State) (j : Nat) (v : Word), s.status.busy = false → j < 50 →
    s.hostRead32 (0x400 + 4 * j) = .okRead (s.kstate.toList.getD (4 * j) 0 ++ s.kstate.toList.getD (4 * j + 1) 0
      ++ s.kstate.toList.getD (4 * j + 2) 0 ++ s.kstate.toList.getD (4 * j + 3) 0) ∧
    ∃ t, s.hostWrite32 (0x400 + 4 * j) v = (t, .okWrite) ∧ { t with kstate := s.kstate } = s ∧
      ∀ k, k < 200 → t.kstate.toList.getD k 0
        = if 4 * j ≤ k ∧ k < 4 * j + 4 then v.extractLsb' (24 - 8 * (k - 4 * j)) 8 else s.kstate.toList.getD k 0)

/-- 20_memory.md R70: a read changes no state of the block and may be repeated; a write taken twice is a write taken
once, on a DMEM in its canonical form (`StepKeepsInvariant`); only the words `CMD` and `STATUS` change the status. -/
def Obligations.OnlyTwoWordsHaveSideEffects : Prop :=
  (∀ (s : State) (a : Nat) (rest : List Event), s.schedule = .hostRead a :: rest →
    step s = .next { s with schedule := rest, response := some (s.hostRead32 a) } ∧
    ∀ t, step s = .next t → t.hostRead32 a = s.hostRead32 a) ∧
  (∀ (s : State) (a : Nat) (v : Word), s.dmem.wf = true →
    ((s.hostWrite32 a v).1.hostWrite32 a v).1 = (s.hostWrite32 a v).1) ∧
  (∀ (s : State) (a : Nat) (v : Word), a ≠ 0x010 → a ≠ 0x00C →
    (s.hostWrite32 a v).1.status = s.status ∧ (s.hostWrite32 a v).1.result = s.result ∧
    (s.hostWrite32 a v).1.cmd = s.cmd)

/-- 10_state.md R35, R43, 60_exceptions.md R303: `STATUS.DONE` is set by every completion, cleared by writing 1 to
it or by an issue, and by nothing else the host writes; `IRQ` is `DONE` masked by `IE`. -/
def Obligations.DoneAndInterrupt : Prop :=
  (∀ (i : Instr) (s t : State), exec i s = .next t → t.status.done = true ∧ t.irq = s.ctrl.ie) ∧
  (∀ (s : State) (v : Word), s.status.busy = false →
    ∃ t, s.hostWrite32 0x00C v = (t, .okWrite) ∧ t.status.done = (s.status.done && !v.getLsbD 1) ∧
      t.irq = (s.status.done && !v.getLsbD 1 && s.ctrl.ie) ∧
      { t with status := { t.status with done := s.status.done } } = s) ∧
  (∀ (s : State) (v : Word), s.status.busy = false →
    ∃ t, s.hostWrite32 0x008 v = (t, .okWrite) ∧ t.irq = (s.status.done && v.getLsbD 0))

/-- 10_state.md R33, R34, R40, R49: an idle write to a control word stores the bits the word has; a write to a
read-only word is ignored with response OK. -/
def Obligations.ControlWordsStore : Prop :=
  ∀ (s : State) (v : Word), s.status.busy = false →
    (∃ t, s.hostWrite32 0x008 v = (t, .okWrite) ∧ t.hostRead32 0x008 = .okRead (v &&& 3) ∧
      t.ctrl.ie = v.getLsbD 0 ∧ t.ctrl.lows = v.getLsbD 1 ∧ { t with ctrl := s.ctrl } = s) ∧
    (∃ t, s.hostWrite32 0x020 v = (t, .okWrite) ∧ t.hostRead32 0x020 = .okRead v ∧ { t with srcOff := s.srcOff } = s) ∧
    (∃ t, s.hostWrite32 0x024 v = (t, .okWrite) ∧ t.hostRead32 0x024 = .okRead v ∧ { t with srcLen := s.srcLen } = s) ∧
    (∃ t, s.hostWrite32 0x028 v = (t, .okWrite) ∧ t.hostRead32 0x028 = .okRead v ∧ { t with aadOff := s.aadOff } = s) ∧
    (∃ t, s.hostWrite32 0x02C v = (t, .okWrite) ∧ t.hostRead32 0x02C = .okRead v ∧ { t with aadLen := s.aadLen } = s) ∧
    (∃ t, s.hostWrite32 0x030 v = (t, .okWrite) ∧ t.hostRead32 0x030 = .okRead v ∧ { t with dstOff := s.dstOff } = s) ∧
    s.hostWrite32 0x000 v = (s, .okWrite) ∧ s.hostWrite32 0x004 v = (s, .okWrite) ∧
    s.hostWrite32 0x014 v = (s, .okWrite) ∧ s.hostWrite32 0x034 v = (s, .okWrite) ∧
    s.hostRead32 0x000 = .okRead 0x42514331 ∧ s.hostRead32 0x004 = .okRead 0x00070000 ∧
    s.hostRead32 0x014 = .okRead s.resultWord ∧ s.hostRead32 0x034 = .okRead s.dstLen

/-- 10_state.md R41, 20_memory.md R61: no host access reads or writes `DRBG_K` or `DRBG_V`. -/
def Obligations.DrbgPairHidden : Prop :=
  ∀ (s : State) (k v : Reg) (a : Nat) (w : Word),
    ({ s with drbgK := k, drbgV := v } : State).hostRead32 a = s.hostRead32 a ∧
    ({ s with drbgK := k, drbgV := v } : State).hostWrite32 a w
      = ({ (s.hostWrite32 a w).1 with drbgK := k, drbgV := v }, (s.hostWrite32 a w).2) ∧
    (s.hostWrite32 a w).1.drbgK = s.drbgK ∧ (s.hostWrite32 a w).1.drbgV = s.drbgV ∧
    (s.hostWrite32 a w).1.drbgValid = s.drbgValid

/-! The system commands. -/

/-- 47_system.md R280. -/
def Obligations.NopEffect : Prop :=
  encode .nop = 0x00000000 ∧ ∀ s : State, ∃ t, exec .nop s = .next t ∧ Succeeded t noFlags ∧ Framed {} s t

/-- 47_system.md R281: everything but `CTRL`, `CMD` and `STATUS.DONE` is as after reset. -/
def Obligations.ZeroizeEffect : Prop :=
  encode .zeroize = 0x00000001 ∧
  ∀ s : State, ∃ t, exec .zeroize s = .next t ∧ Succeeded t noFlags ∧ t.statusWord = 0x00000002 ∧
    ({ t with ctrl := State.reset.ctrl, cmd := 0, status := { t.status with done := false } } : State).AtReset ∧
    t.ctrl = s.ctrl ∧ t.cmd = s.cmd ∧ t.params = s.params ∧ t.schedule = s.schedule ∧ t.response = s.response ∧
    Raises .nonceNext t .sequence

/-! Modular arithmetic. `m` is the modulus the command selects, `a` and `b` the values of `R[ra]` and `R[rb]`. -/

/-- 40_modarith.md R128, R121, R123: the product times `RR = 2^256` is congruent to `a * b`. -/
def Obligations.MontMulEffect : Prop :=
  (∀ (rd ra rb : RegNum) (msel : Modulus),
    encode (.montMul rd ra rb msel) =
      0x10 ||| rd.setWidth 32 <<< 8 ||| ra.setWidth 32 <<< 12 ||| rb.setWidth 32 <<< 16 ||| (mselBit msel).setWidth 32 <<< 20) ∧
  ∀ (rd ra rb : RegNum) (msel : Modulus) (s : State),
    if s.regNat ra < modulusOf msel ∧ s.regNat rb < modulusOf msel then
      ∃ t, exec (.montMul rd ra rb msel) s = .next t ∧ Succeeded t noFlags ∧ Framed { regs := [rd] } s t ∧
        t.regNat rd = s.regNat ra * s.regNat rb * montInverse msel % modulusOf msel ∧
        t.regNat rd < modulusOf msel ∧
        t.regNat rd * 2 ^ 256 % modulusOf msel = s.regNat ra * s.regNat rb % modulusOf msel
    else Raises (.montMul rd ra rb msel) s .operandRange

/-- 40_modarith.md R129, R130, R121: into and out of Montgomery form, and each undoes the other. -/
def Obligations.MontConversionEffect : Prop :=
  (∀ (rd ra : RegNum) (msel : Modulus),
    encode (.toMont rd ra msel) =
      0x11 ||| rd.setWidth 32 <<< 8 ||| ra.setWidth 32 <<< 12 ||| (mselBit msel).setWidth 32 <<< 20 ∧
    encode (.fromMont rd ra msel) =
      0x12 ||| rd.setWidth 32 <<< 8 ||| ra.setWidth 32 <<< 12 ||| (mselBit msel).setWidth 32 <<< 20) ∧
  ∀ (rd ra : RegNum) (msel : Modulus) (s : State),
    if s.regNat ra < modulusOf msel then
      (∃ t, exec (.toMont rd ra msel) s = .next t ∧ Succeeded t noFlags ∧ Framed { regs := [rd] } s t ∧
        t.regNat rd = s.regNat ra * 2 ^ 256 % modulusOf msel ∧
        ∃ u, exec (.fromMont rd rd msel) t = .next u ∧ Succeeded u noFlags ∧ u.regNat rd = s.regNat ra) ∧
      (∃ t, exec (.fromMont rd ra msel) s = .next t ∧ Succeeded t noFlags ∧ Framed { regs := [rd] } s t ∧
        t.regNat rd = s.regNat ra * montInverse msel % modulusOf msel ∧
        t.regNat rd * 2 ^ 256 % modulusOf msel = s.regNat ra ∧
        ∃ u, exec (.toMont rd rd msel) t = .next u ∧ Succeeded u noFlags ∧ u.regNat rd = s.regNat ra)
    else Raises (.toMont rd ra msel) s .operandRange ∧ Raises (.fromMont rd ra msel) s .operandRange

/-- 40_modarith.md R131, R132, R133, R121. -/
def Obligations.ModMulAddSubEffect : Prop :=
  (∀ (rd ra rb : RegNum) (msel : Modulus),
    encode (.modMul rd ra rb msel) =
      0x13 ||| rd.setWidth 32 <<< 8 ||| ra.setWidth 32 <<< 12 ||| rb.setWidth 32 <<< 16 ||| (mselBit msel).setWidth 32 <<< 20 ∧
    encode (.modAdd rd ra rb msel) =
      0x14 ||| rd.setWidth 32 <<< 8 ||| ra.setWidth 32 <<< 12 ||| rb.setWidth 32 <<< 16 ||| (mselBit msel).setWidth 32 <<< 20 ∧
    encode (.modSub rd ra rb msel) =
      0x15 ||| rd.setWidth 32 <<< 8 ||| ra.setWidth 32 <<< 12 ||| rb.setWidth 32 <<< 16 ||| (mselBit msel).setWidth 32 <<< 20) ∧
  ∀ (rd ra rb : RegNum) (msel : Modulus) (s : State),
    if s.regNat ra < modulusOf msel ∧ s.regNat rb < modulusOf msel then
      (∃ t, exec (.modMul rd ra rb msel) s = .next t ∧ Succeeded t noFlags ∧ Framed { regs := [rd] } s t ∧
        t.regNat rd = s.regNat ra * s.regNat rb % modulusOf msel) ∧
      (∃ t, exec (.modAdd rd ra rb msel) s = .next t ∧ Succeeded t noFlags ∧ Framed { regs := [rd] } s t ∧
        t.regNat rd = if s.regNat ra + s.regNat rb < modulusOf msel then s.regNat ra + s.regNat rb
          else s.regNat ra + s.regNat rb - modulusOf msel) ∧
      (∃ t, exec (.modSub rd ra rb msel) s = .next t ∧ Succeeded t noFlags ∧ Framed { regs := [rd] } s t ∧
        t.regNat rd = if s.regNat rb ≤ s.regNat ra then s.regNat ra - s.regNat rb
          else s.regNat ra + modulusOf msel - s.regNat rb)
    else Raises (.modMul rd ra rb msel) s .operandRange ∧ Raises (.modAdd rd ra rb msel) s .operandRange ∧
      Raises (.modSub rd ra rb msel) s .operandRange

/-- 40_modarith.md R134: the power `a^(m-2)`, the corner cases, and the two errors. -/
def Obligations.ModInvEffect : Prop :=
  (∀ (rd ra : RegNum) (msel : Modulus),
    encode (.modInv rd ra msel) =
      0x16 ||| rd.setWidth 32 <<< 8 ||| ra.setWidth 32 <<< 12 ||| (mselBit msel).setWidth 32 <<< 20) ∧
  ∀ (rd ra : RegNum) (msel : Modulus) (s : State),
    if 1 ≤ s.regNat ra ∧ s.regNat ra < modulusOf msel then
      ∃ t, exec (.modInv rd ra msel) s = .next t ∧ Succeeded t noFlags ∧ Framed { regs := [rd] } s t ∧
        t.regNat rd = s.regNat ra ^ (modulusOf msel - 2) % modulusOf msel ∧
        (s.regNat ra = 1 → t.regNat rd = 1) ∧
        (s.regNat ra = 2 → t.regNat rd = (modulusOf msel + 1) / 2) ∧
        (s.regNat ra = modulusOf msel - 1 → t.regNat rd = modulusOf msel - 1)
    else Raises (.modInv rd ra msel) s .operandRange

/-- 40_modarith.md R135: any 256-bit operand. -/
def Obligations.ModRedEffect : Prop :=
  (∀ (rd ra : RegNum) (msel : Modulus),
    encode (.modRed rd ra msel) =
      0x17 ||| rd.setWidth 32 <<< 8 ||| ra.setWidth 32 <<< 12 ||| (mselBit msel).setWidth 32 <<< 20) ∧
  ∀ (rd ra : RegNum) (msel : Modulus) (s : State),
    ∃ t, exec (.modRed rd ra msel) s = .next t ∧ Succeeded t noFlags ∧ Framed { regs := [rd] } s t ∧
      t.regNat rd = (if modulusOf msel ≤ s.regNat ra then s.regNat ra - modulusOf msel else s.regNat ra) ∧
      t.regNat rd = s.regNat ra % modulusOf msel

/-- 40_modarith.md R124: the reduction the hardware performs has the value of the normative definition. -/
def Obligations.MontReduceEqualsMont : Prop :=
  ∀ (a b : Nat) (msel : Modulus), a < modulusOf msel → b < modulusOf msel → montReduce a b msel = mont a b msel

/-- 40_modarith.md R125: so has the word-serial form, for every datapath width that divides 256. -/
def Obligations.MontSerialEqualsMont : Prop :=
  ∀ (width a b : Nat) (msel : Modulus), width ∣ 256 → a < modulusOf msel → b < modulusOf msel →
    montSerial width a b msel = mont a b msel

/-- 40_modarith.md R126, with `toMontForm` and `fromMontForm` as the Montgomery products R126 writes. -/
def Obligations.MontFormLaws : Prop :=
  ∀ (a b : Nat) (msel : Modulus), a < modulusOf msel → b < modulusOf msel →
    toMontForm a msel = a * montRadix % modulusOf msel ∧
    fromMontForm a msel = a * montInverse msel % modulusOf msel ∧
    fromMontForm (toMontForm a msel) msel = a ∧ toMontForm (fromMontForm a msel) msel = a ∧
    mont (toMontForm a msel) (toMontForm b msel) msel = toMontForm (a * b % modulusOf msel) msel ∧
    mont (toMontForm a msel) b msel = a * b % modulusOf msel ∧
    (toMontForm a msel + toMontForm b msel) % modulusOf msel = toMontForm ((a + b) % modulusOf msel) msel ∧
    toMontForm 1 msel = montRadix % modulusOf msel ∧ toMontForm 0 msel = 0

/-! The point commands. -/

/-- 41_point.md R157: any scalar; the product `INF` gives zero coordinates and the flag; 0 gives `INF`, 1 gives
`G`. -/
def Obligations.PmulGEffect : Prop :=
  encode .pmulG = 0x00000020 ∧
  ∀ s : State, ∃ t, exec .pmulG s = .next t ∧ Framed { regs := [regPx, regPy] } s t ∧
    (match ladder (s.regNat regK) basePoint with
      | .inf => Succeeded t infFlag ∧ t.regNat regPx = 0 ∧ t.regNat regPy = 0
      | .affine x y => Succeeded t (parityFlag y) ∧ t.regNat regPx = x ∧ t.regNat regPy = y) ∧
    (s.regNat regK = 0 → t.resultWord = 2 ∧ t.reg regPx = 0 ∧ t.reg regPy = 0) ∧
    (s.regNat regK = 1 → t.resultWord = 0 ∧ t.regNat regPx = genX ∧ t.regNat regPy = genY)

/-- 41_point.md R158: the same for a point the host supplies, 1 copies it; a pair that is no point is an error. -/
def Obligations.PmulEffect : Prop :=
  encode .pmul = 0x00000021 ∧
  ∀ s : State,
    if onCurve (s.regNat regQx) (s.regNat regQy) = true then
      ∃ t, exec .pmul s = .next t ∧ Framed { regs := [regPx, regPy] } s t ∧
        (match ladder (s.regNat regK) (.affine (s.regNat regQx) (s.regNat regQy)) with
          | .inf => Succeeded t infFlag ∧ t.regNat regPx = 0 ∧ t.regNat regPy = 0
          | .affine x y => Succeeded t (parityFlag y) ∧ t.regNat regPx = x ∧ t.regNat regPy = y) ∧
        (s.regNat regK = 1 → t.reg regPx = s.reg regQx ∧ t.reg regPy = s.reg regQy)
    else Raises .pmul s .invalidPublicKey

/-- 41_point.md R159: a scalar in range, whose product is a pair of coordinates, and the error for any other. -/
def Obligations.DeriveEffect : Prop :=
  encode .derive = 0x00000022 ∧
  (∀ (s : State) (x y : Nat), 1 ≤ s.regNat regD → s.regNat regD < groupOrder →
    ladder (s.regNat regD) basePoint = .affine x y →
    ∃ t, exec .derive s = .next t ∧ Succeeded t (parityFlag y) ∧ Framed { regs := [regQx, regQy] } s t ∧
      t.regNat regQx = x ∧ t.regNat regQy = y) ∧
  (∀ s : State, s.regNat regD = 1 →
    ∃ t, exec .derive s = .next t ∧ Succeeded t noFlags ∧ t.regNat regQx = genX ∧ t.regNat regQy = genY) ∧
  (∀ s : State, s.regNat regD = 0 ∨ groupOrder ≤ s.regNat regD → Raises .derive s .invalidKey)

/-- 41_point.md R161, R160: the encoding's bytes at `DST_OFF`, no byte beyond them; the range before the point. -/
def Obligations.PkEncodeEffect : Prop :=
  encode (.pkEncode .uncompressed) = 0x00000023 ∧ encode (.pkEncode .compressed) = 0x00000123 ∧
  ∀ (comp : PointForm) (s : State),
    if s.params.dmemBytes < s.dstOff.toNat + encLength comp then Raises (.pkEncode comp) s .badRange
    else if onCurve (s.regNat regQx) (s.regNat regQy) = false then Raises (.pkEncode comp) s .invalidPublicKey
    else
      ∃ t, exec (.pkEncode comp) s = .next t ∧ Succeeded t (parityFlag (s.regNat regQy)) ∧
        Framed { stored := encLength comp, dstLen := true } s t ∧ t.dstLen.toNat = encLength comp ∧
        t.memRead s.dstOff.toNat (encLength comp) =
          match comp with
          | .compressed => BitVec.ofNat 8 (0x02 + s.regNat regQy % 2) :: be256 (s.reg regQx)
          | .uncompressed => 0x04 :: (be256 (s.reg regQx) ++ be256 (s.reg regQy))

/-- 41_point.md R162: the range before the encoding, then the length; for 33 bytes the lead byte, the coordinate,
the square root and the choice of its parity written out; for 65 bytes the lead byte and the two coordinates. -/
def Obligations.PkDecodeEffect : Prop :=
  encode .pkDecode = 0x00000024 ∧
  ∀ s : State,
    if s.params.dmemBytes < s.srcOff.toNat + s.srcLen.toNat then Raises .pkDecode s .badRange
    else
      (∀ x y, decodePoint (s.memRead s.srcOff.toNat s.srcLen.toNat) = some (x, y) →
        ∃ t, exec .pkDecode s = .next t ∧ Succeeded t (parityFlag y) ∧ Framed { regs := [regQx, regQy] } s t ∧
          t.regNat regQx = x ∧ t.regNat regQy = y) ∧
      (decodePoint (s.memRead s.srcOff.toNat s.srcLen.toNat) = none → Raises .pkDecode s .invalidPublicKey) ∧
      (∀ (lead : Byte) (x c y : Nat), s.srcLen.toNat = 33 → lead = s.dmem.readByte s.srcOff.toNat →
        x = beInt (s.memRead (s.srcOff.toNat + 1) 32) → c = (x * x * x + 7) % fieldPrime →
        y = c ^ ((fieldPrime + 1) / 4) % fieldPrime →
        if (lead = 0x02 ∨ lead = 0x03) ∧ x < fieldPrime ∧ y * y % fieldPrime = c then
          ∃ (t : State) (root : Nat), root = (if y % 2 = lead.toNat % 2 then y else fieldPrime - y) ∧
            exec .pkDecode s = .next t ∧ Succeeded t (parityFlag root) ∧ Framed { regs := [regQx, regQy] } s t ∧
            t.regNat regQx = x ∧ t.regNat regQy = root
        else Raises .pkDecode s .invalidPublicKey) ∧
      (∀ (x y : Nat), s.srcLen.toNat = 65 → x = beInt (s.memRead (s.srcOff.toNat + 1) 32) →
        y = beInt (s.memRead (s.srcOff.toNat + 33) 32) →
        if s.dmem.readByte s.srcOff.toNat = 0x04 ∧ onCurve x y = true then
          ∃ t, exec .pkDecode s = .next t ∧ Succeeded t (parityFlag y) ∧ Framed { regs := [regQx, regQy] } s t ∧
            t.regNat regQx = x ∧ t.regNat regQy = y
        else Raises .pkDecode s .invalidPublicKey) ∧
      (s.srcLen.toNat ≠ 33 → s.srcLen.toNat ≠ 65 → Raises .pkDecode s .invalidPublicKey)

/-- 41_point.md R162 and R163, the halves that need no theory of the field: what is decoded encodes to the same
bytes and satisfies the curve equation, from 65 bytes it is on the curve, from 33 bytes `y` is at most `p`; an
uncompressed encoding of a point decodes to it; and 33 bytes decode to the root with the lead byte's parity exactly
when the lead byte is 02 or 03, the coordinate is below `p` and the power `t^((p+1)/4)` is a root. -/
def Obligations.PointCodecRoundTrip : Prop :=
  (∀ (b : List Byte) (x y : Nat), decodePoint b = some (x, y) →
    x < fieldPrime ∧ y * y % fieldPrime = (x * x * x + 7) % fieldPrime ∧
    ((b.length = 33 ∧ encPoint .compressed x y = b ∧ y ≤ fieldPrime) ∨
      (b.length = 65 ∧ encPoint .uncompressed x y = b ∧ onCurve x y = true))) ∧
  (∀ x y : Nat, onCurve x y = true → decodePoint (encPoint .uncompressed x y) = some (x, y)) ∧
  (∀ (lead : Byte) (rest : List Byte) (x c y : Nat), rest.length = 32 → x = beInt rest →
    c = (x * x * x + 7) % fieldPrime → y = c ^ ((fieldPrime + 1) / 4) % fieldPrime →
    decodePoint (lead :: rest) =
      if (lead = 0x02 ∨ lead = 0x03) ∧ x < fieldPrime ∧ y * y % fieldPrime = c then
        some (x, if y % 2 = lead.toNat % 2 then y else fieldPrime - y)
      else none)

/-! The nonce commands. -/

/-- 42_nonce.md R197, R186: a search of `budget` candidates finds the earliest acceptable one and counts what is
left to draw, or finds none among `budget`. Candidate `j` (from 0) is that of `drbgGen` after `j` rejections. That
the count is of candidates left, where R197 returns the candidates used, is the model's (log 14). -/
def Obligations.NonceSearchBounded : Prop :=
  ∀ (budget : Nat) (g : Drbg),
    (∀ draw, nonceSearch budget g = .ok draw ↔
      ∃ j, j < budget ∧ draw.left = budget - (j + 1) ∧
        draw.gen = drbgGen ((fun h => drbgReseed (drbgGen h))^[j] g) ∧
        1 ≤ draw.gen.candidate ∧ draw.gen.candidate < groupOrder ∧
        ∀ k, k < j → nonceValid (drbgGen ((fun h => drbgReseed (drbgGen h))^[k] g)).candidate = false) ∧
    (nonceSearch budget g = .error .nonceExhausted ↔
      ∀ k, k < budget → nonceValid (drbgGen ((fun h => drbgReseed (drbgGen h))^[k] g)).candidate = false)

/-- 42_nonce.md R198, R184: the nonce in range, the generator kept, the two errors; a digest enters modulo `n`. -/
def Obligations.NonceFirstEffect : Prop :=
  encode .nonceFirst = 0x00000030 ∧
  (∀ (s : State) (draw : NonceDraw), 1 ≤ s.regNat regD → s.regNat regD < groupOrder →
    nonceSearch s.params.nonceTries (drbgInit (s.regNat regD) (s.regNat regZ)) = .ok draw →
    ∃ t, exec .nonceFirst s = .next t ∧ Succeeded t noFlags ∧ Framed { regs := [regK], drbg := true } s t ∧
      t.regNat regK = draw.gen.candidate ∧ 1 ≤ t.regNat regK ∧ t.regNat regK < groupOrder ∧
      be256 t.drbgK = draw.gen.kd ∧ be256 t.drbgV = draw.gen.vd ∧ t.drbgValid = true) ∧
  (∀ s : State, s.regNat regD = 0 ∨ groupOrder ≤ s.regNat regD → Raises .nonceFirst s .invalidKey) ∧
  (∀ s : State, 1 ≤ s.regNat regD → s.regNat regD < groupOrder →
    nonceSearch s.params.nonceTries (drbgInit (s.regNat regD) (s.regNat regZ)) = .error .nonceExhausted →
    Raises .nonceFirst s .nonceExhausted) ∧
  (∀ d z : Nat, drbgInit d (z + groupOrder) = drbgInit d z)

/-- 42_nonce.md R199: the next nonce of the live generator, whatever `R[0]` and `R[1]` hold. -/
def Obligations.NonceNextEffect : Prop :=
  encode .nonceNext = 0x00000031 ∧
  (∀ (s : State) (draw : NonceDraw), s.drbgValid = true →
    nonceSearch s.params.nonceTries (drbgReseed { kd := be256 s.drbgK, vd := be256 s.drbgV }) = .ok draw →
    ∃ t, exec .nonceNext s = .next t ∧ Succeeded t noFlags ∧ Framed { regs := [regK], drbg := true } s t ∧
      t.regNat regK = draw.gen.candidate ∧ 1 ≤ t.regNat regK ∧ t.regNat regK < groupOrder ∧
      be256 t.drbgK = draw.gen.kd ∧ be256 t.drbgV = draw.gen.vd ∧ t.drbgValid = true) ∧
  (∀ s : State, s.drbgValid = false → Raises .nonceNext s .sequence) ∧
  (∀ s : State, s.drbgValid = true →
    nonceSearch s.params.nonceTries (drbgReseed { kd := be256 s.drbgK, vd := be256 s.drbgV }) = .error .nonceExhausted →
    Raises .nonceNext s .nonceExhausted) ∧
  (∀ (s : State) (d z : Reg), ∃ t u, exec .nonceNext s = .next t ∧
    exec .nonceNext ((s.setReg regD d).setReg regZ z) = .next u ∧
    u.status = t.status ∧ u.reg regK = t.reg regK ∧ u.drbgK = t.drbgK ∧ u.drbgV = t.drbgV)

/-! Signing. -/

/-- 43_ecdsa_sign.md R211, R212: the two halves from the nonce's point, the low-s choice, and the errors in their
order. -/
def Obligations.SignKEffect : Prop :=
  encode .signK = 0x00000038 ∧
  (∀ (s : State) (x y r w : Nat), 1 ≤ s.regNat regD → s.regNat regD < groupOrder → 1 ≤ s.regNat regK →
    s.regNat regK < groupOrder → ladder (s.regNat regK) basePoint = .affine x y → r = x % groupOrder →
    w = s.regNat regK ^ (groupOrder - 2) * ((s.regNat regZ + r * s.regNat regD) % groupOrder) % groupOrder →
    (r ≠ 0 ∧ w ≠ 0 →
      ∃ t, exec .signK s = .next t ∧ Succeeded t noFlags ∧ Framed { regs := [regSigR, regSigS] } s t ∧
        t.regNat regSigR = r ∧
        t.regNat regSigS = (if s.ctrl.lows = true ∧ (groupOrder - 1) / 2 < w then groupOrder - w else w) ∧
        0 < t.regNat regSigR ∧ t.regNat regSigR < groupOrder ∧ 0 < t.regNat regSigS ∧
        t.regNat regSigS < groupOrder ∧ (s.ctrl.lows = true → t.regNat regSigS ≤ (groupOrder - 1) / 2)) ∧
    (r = 0 ∨ w = 0 → Raises .signK s .retry)) ∧
  (∀ s : State, s.regNat regD = 0 ∨ groupOrder ≤ s.regNat regD → Raises .signK s .invalidKey) ∧
  (∀ s : State, 1 ≤ s.regNat regD → s.regNat regD < groupOrder →
    s.regNat regK = 0 ∨ groupOrder ≤ s.regNat regK → Raises .signK s .badNonce)

/-- 43_ecdsa_sign.md R213: the signature of the loop, its range, and the errors; `R[2]` and the live generator are
not touched. -/
def Obligations.EcdsaSignEffect : Prop :=
  encode .ecdsaSign = 0x00000039 ∧
  (∀ (s : State) (r w : Nat), 1 ≤ s.regNat regD → s.regNat regD < groupOrder →
    signLoop s.params.nonceTries s.params.nonceTries (s.regNat regD) (s.regNat regZ) s.ctrl.lows
      (drbgInit (s.regNat regD) (s.regNat regZ)) = .ok (r, w) →
    ∃ t, exec .ecdsaSign s = .next t ∧ Succeeded t noFlags ∧ Framed { regs := [regSigR, regSigS] } s t ∧
      t.regNat regSigR = r ∧ t.regNat regSigS = w ∧ 0 < r ∧ r < groupOrder ∧ 0 < w ∧ w < groupOrder ∧
      (s.ctrl.lows = true → w ≤ (groupOrder - 1) / 2)) ∧
  (∀ s : State, s.regNat regD = 0 ∨ groupOrder ≤ s.regNat regD → Raises .ecdsaSign s .invalidKey) ∧
  (∀ s : State, 1 ≤ s.regNat regD → s.regNat regD < groupOrder →
    (∀ rs, signLoop s.params.nonceTries s.params.nonceTries (s.regNat regD) (s.regNat regZ) s.ctrl.lows
      (drbgInit (s.regNat regD) (s.regNat regZ)) ≠ .ok rs) → Raises .ecdsaSign s .nonceExhausted)

/-- 43_ecdsa_sign.md R213: "The result equals what the host would obtain with `NONCE_FIRST`, `SIGN_K`, and on
`Retry` `NONCE_NEXT`, `SIGN_K`, and so on." -/
def Obligations.EcdsaSignMatchesLowLevelPath : Prop :=
  ∀ s v : State, exec .ecdsaSign s = .next v → v.status.err = 0 →
    ∃ (t u : State) (turns : Nat), exec .nonceFirst s = .next t ∧ t.status.err = 0 ∧
      lowLevelSign turns t = .next u ∧ u.status.err = 0 ∧
      u.reg regSigR = v.reg regSigR ∧ u.reg regSigS = v.reg regSigS

/-! Verifying. -/

/-- 44_ecdsa_verify.md R220, R221: the point before the signature; out-of-range halves are `false` and no error;
nothing but `STATUS` and `RESULT` changes. -/
def Obligations.EcdsaVerifyEffect : Prop :=
  encode .ecdsaVerify = 0x00000040 ∧
  ∀ s : State,
    if onCurve (s.regNat regQx) (s.regNat regQy) = true then
      ∃ (t : State) (valid : Bool), exec .ecdsaVerify s = .next t ∧ Succeeded t (validFlag valid) ∧ Framed {} s t ∧
        t.resultWord = (if valid then 1 else 0) ∧
        (valid = true ↔
          1 ≤ s.regNat regSigR ∧ s.regNat regSigR < groupOrder ∧ 1 ≤ s.regNat regSigS ∧
          s.regNat regSigS < groupOrder ∧
          ∃ w x y, w = s.regNat regSigS ^ (groupOrder - 2) % groupOrder ∧
            padd (ladder (s.regNat regZ % groupOrder * w % groupOrder) basePoint)
              (ladder (s.regNat regSigR * w % groupOrder) (.affine (s.regNat regQx) (s.regNat regQy))) = .affine x y ∧
            x % groupOrder = s.regNat regSigR)
    else Raises .ecdsaVerify s .invalidPublicKey

/-! Keccak. -/

/-- 45_keccak.md R235, R236. -/
def Obligations.KeccakPermuteInitEffect : Prop :=
  encode .keccakF1600 = 0x00000050 ∧ encode .keccakInit = 0x00000051 ∧
  ∀ s : State,
    (∃ t, exec .keccakF1600 s = .next t ∧ Succeeded t noFlags ∧ Framed { kstate := true } s t ∧
      t.kstate.toList = keccakF s.kstate.toList) ∧
    (∃ t, exec .keccakInit s = .next t ∧ Succeeded t noFlags ∧ Framed { kstate := true } s t ∧
      t.kstate.toList = zeros 200)

/-- 45_keccak.md R237, R238, R239: the sponge state, the digest as the bytes of `R[rd]`, the cleared `KSTATE`, and
`BadRange`. -/
def Obligations.KeccakHashingEffect : Prop :=
  encode .keccakAbsorb = 0x00000052 ∧
  (∀ (rd : RegNum),
    encode (.keccakFinal rd) =
      0x53 ||| rd.setWidth 32 <<< 8 ∧
    encode (.keccak256 rd) =
      0x54 ||| rd.setWidth 32 <<< 8) ∧
  ∀ (rd : RegNum) (s : State),
    if s.params.dmemBytes < s.srcOff.toNat + s.srcLen.toNat then
      Raises .keccakAbsorb s .badRange ∧ Raises (.keccakFinal rd) s .badRange ∧ Raises (.keccak256 rd) s .badRange
    else
      (s.srcLen.toNat % 136 ≠ 0 → Raises .keccakAbsorb s .badRange) ∧
      (s.srcLen.toNat % 136 = 0 →
        ∃ t, exec .keccakAbsorb s = .next t ∧ Succeeded t noFlags ∧ Framed { kstate := true } s t ∧
          t.kstate.toList = keccakAbsorb s.kstate.toList (s.memRead s.srcOff.toNat s.srcLen.toNat) ∧
          (s.srcLen.toNat = 0 → t.kstate = s.kstate)) ∧
      (∃ t, exec (.keccakFinal rd) s = .next t ∧ Succeeded t noFlags ∧ Framed { regs := [rd], kstate := true } s t ∧
        be256 (t.reg rd) = keccakFinalDigest s.kstate.toList (s.memRead s.srcOff.toNat s.srcLen.toNat) ∧
        t.kstate.toList = zeros 200) ∧
      (∃ t, exec (.keccak256 rd) s = .next t ∧ Succeeded t noFlags ∧ Framed { regs := [rd], kstate := true } s t ∧
        be256 (t.reg rd) = keccakHash (s.memRead s.srcOff.toNat s.srcLen.toNat) ∧ t.kstate.toList = zeros 200)

/-- 45_keccak.md R239: "Identical to `KECCAK_INIT` followed by `KECCAK_FINAL rd`", for a source range in DMEM. -/
def Obligations.Keccak256IsInitThenFinal : Prop :=
  ∀ (rd : RegNum) (s : State), s.srcOff.toNat + s.srcLen.toNat ≤ s.params.dmemBytes →
    ∃ t u, exec .keccakInit s = .next t ∧ exec (.keccakFinal rd) t = .next u ∧ exec (.keccak256 rd) s = .next u

/-- 45_keccak.md R240: any split into pieces of whole blocks and a rest gives the digest of the whole. -/
def Obligations.KeccakChunking : Prop :=
  ∀ (chunks : List (List Byte)) (rest : List Byte), (∀ c ∈ chunks, c.length % 136 = 0) →
    keccakFinalDigest (chunks.foldl keccakAbsorb (zeros 200)) rest = keccakHash (chunks.flatten ++ rest)

/-- 45_keccak.md R231: the lanes of a 200-byte string, and back. -/
def Obligations.KeccakLaneLayout : Prop :=
  ∀ b : List Byte, b.length = 200 →
    storeLanes (loadLanes b) = b ∧
    ∀ x y, x < 5 → y < 5 →
      (laneAt (loadLanes b) x y).toNat = ∑ t ∈ Finset.range 8, (b.getD (8 * (x + 5 * y) + t) 0).toNat * 2 ^ (8 * t)

/-! AES and GCM. -/

/-- 46_aes_gcm.md R262: sixteen bytes, in place or not; source range before destination range, one code. -/
def Obligations.AesEncryptEffect : Prop :=
  (∀ (ra : RegNum),
    encode (.aes256Enc ra) =
      0x60 ||| ra.setWidth 32 <<< 12) ∧
  ∀ (ra : RegNum) (s : State),
    if s.srcOff.toNat + 16 ≤ s.params.dmemBytes ∧ s.dstOff.toNat + 16 ≤ s.params.dmemBytes then
      ∃ t, exec (.aes256Enc ra) s = .next t ∧ Succeeded t noFlags ∧ Framed { stored := 16, dstLen := true } s t ∧
        t.memRead s.dstOff.toNat 16 = aes256 (be256 (s.reg ra)) (s.memRead s.srcOff.toNat 16) ∧
        t.dstLen = 16
    else Raises (.aes256Enc ra) s .badRange

/-- 46_aes_gcm.md R270, R269: ciphertext and tag at `DST_OFF`; every text in range encrypts. -/
def Obligations.GcmEncryptEffect : Prop :=
  (∀ (ra : RegNum),
    encode (.gcmEnc ra) =
      0x61 ||| ra.setWidth 32 <<< 12) ∧
  ∀ (ra : RegNum) (s : State), s.params.valid = true →
    if s.srcOff.toNat + s.srcLen.toNat ≤ s.params.dmemBytes ∧ s.aadOff.toNat + s.aadLen.toNat ≤ s.params.dmemBytes ∧
        s.dstOff.toNat + s.srcLen.toNat + 16 ≤ s.params.dmemBytes then
      ∃ t, exec (.gcmEnc ra) s = .next t ∧ Succeeded t noFlags ∧
        Framed { stored := s.srcLen.toNat + 16, dstLen := true } s t ∧
        t.memRead s.dstOff.toNat s.srcLen.toNat =
          gctr (be256 (s.reg ra)) (inc32 (counterBlock0 s.iv.toList)) (s.memRead s.srcOff.toNat s.srcLen.toNat) ∧
        t.memRead (s.dstOff.toNat + s.srcLen.toNat) 16 =
          gcmTag (be256 (s.reg ra)) s.iv.toList (s.memRead s.aadOff.toNat s.aadLen.toNat)
            (t.memRead s.dstOff.toNat s.srcLen.toNat) ∧
        t.dstLen.toNat = s.srcLen.toNat + 16
    else Raises (.gcmEnc ra) s .badRange

/-- 46_aes_gcm.md R271, R269, R273: the plaintext only when the last 16 source bytes are the recomputed tag; else
`AuthenticationFailure` and no byte written; the destination is checked only for a source of 16 bytes or more. -/
def Obligations.GcmDecryptEffect : Prop :=
  (∀ (ra : RegNum),
    encode (.gcmDec ra) =
      0x62 ||| ra.setWidth 32 <<< 12) ∧
  ∀ (ra : RegNum) (s : State), s.params.valid = true →
    if s.srcOff.toNat + s.srcLen.toNat ≤ s.params.dmemBytes ∧ s.aadOff.toNat + s.aadLen.toNat ≤ s.params.dmemBytes ∧
        (16 ≤ s.srcLen.toNat → s.dstOff.toNat + (s.srcLen.toNat - 16) ≤ s.params.dmemBytes) then
      (s.srcLen.toNat < 16 → Raises (.gcmDec ra) s .authenticationFailure) ∧
      ∀ n, s.srcLen.toNat = n + 16 →
        if s.memRead (s.srcOff.toNat + n) 16 =
            gcmTag (be256 (s.reg ra)) s.iv.toList (s.memRead s.aadOff.toNat s.aadLen.toNat)
              (s.memRead s.srcOff.toNat n) then
          ∃ t, exec (.gcmDec ra) s = .next t ∧ Succeeded t noFlags ∧ Framed { stored := n, dstLen := true } s t ∧
            t.memRead s.dstOff.toNat n =
              gctr (be256 (s.reg ra)) (inc32 (counterBlock0 s.iv.toList)) (s.memRead s.srcOff.toNat n) ∧
            t.dstLen.toNat = n
        else Raises (.gcmDec ra) s .authenticationFailure
    else Raises (.gcmDec ra) s .badRange

/-- 46_aes_gcm.md R272: what `GCM_ENC` wrote, `GCM_DEC` turns back into the plaintext, under the same key, `IV` and
associated data, wherever the destination. -/
def Obligations.GcmRoundTrip : Prop :=
  ∀ (ra : RegNum) (s t u : State), s.params.valid = true → exec (.gcmEnc ra) s = .next t → t.status.err = 0 →
    u.params = s.params → u.reg ra = s.reg ra → u.iv = s.iv → u.srcLen = t.dstLen →
    u.srcOff.toNat + u.srcLen.toNat ≤ u.params.dmemBytes →
    u.memRead u.srcOff.toNat u.srcLen.toNat = t.memRead s.dstOff.toNat t.dstLen.toNat →
    u.aadOff.toNat + u.aadLen.toNat ≤ u.params.dmemBytes →
    u.memRead u.aadOff.toNat u.aadLen.toNat = s.memRead s.aadOff.toNat s.aadLen.toNat →
    u.dstOff.toNat + s.srcLen.toNat ≤ u.params.dmemBytes →
    ∃ v, exec (.gcmDec ra) u = .next v ∧ Succeeded v noFlags ∧ v.dstLen = s.srcLen ∧
      v.memRead u.dstOff.toNat s.srcLen.toNat = s.memRead s.srcOff.toNat s.srcLen.toNat

/-- 46_aes_gcm.md R274: the outcome of both commands depends on nothing but `R[ra]`, `IV`, the descriptors and the
DMEM ranges they name (and the size of DMEM). -/
def Obligations.GcmPurity : Prop :=
  ∀ (ra : RegNum) (s u : State), u.params = s.params → u.reg ra = s.reg ra → u.iv = s.iv →
    u.srcOff = s.srcOff → u.srcLen = s.srcLen → u.aadOff = s.aadOff → u.aadLen = s.aadLen → u.dstOff = s.dstOff →
    u.memRead s.srcOff.toNat s.srcLen.toNat = s.memRead s.srcOff.toNat s.srcLen.toNat →
    u.memRead s.aadOff.toNat s.aadLen.toNat = s.memRead s.aadOff.toNat s.aadLen.toNat →
    (∃ t v, exec (.gcmEnc ra) s = .next t ∧ exec (.gcmEnc ra) u = .next v ∧ v.status = t.status ∧
      v.dstLen = t.dstLen ∧
      (t.status.err = 0 → v.memRead s.dstOff.toNat (s.srcLen.toNat + 16)
        = t.memRead s.dstOff.toNat (s.srcLen.toNat + 16))) ∧
    (∃ t v, exec (.gcmDec ra) s = .next t ∧ exec (.gcmDec ra) u = .next v ∧ v.status = t.status ∧
      v.dstLen = t.dstLen ∧
      (t.status.err = 0 → v.memRead s.dstOff.toNat (s.srcLen.toNat - 16)
        = t.memRead s.dstOff.toNat (s.srcLen.toNat - 16)))

/-- 46_aes_gcm.md R263: the block `80 00 .. 00` is the field's one, and the product is linear in its argument. -/
def Obligations.GmulLaws : Prop :=
  (∀ y : BitVec 128, gmul (1#128 <<< 127) y = y) ∧
  (∀ a b y : BitVec 128, gmul (a ^^^ b) y = gmul a y ^^^ gmul b y) ∧
  (∀ x a b : BitVec 128, gmul x (a ^^^ b) = gmul x a ^^^ gmul x b)

/-! The machine as a whole. -/

/-- 10_state.md R24, R40, R41, 20_memory.md R78: no command changes anything outside its row of the tables. -/
def Obligations.CommandFootprint : Prop :=
  ∀ (i : Instr) (s t : State), i ≠ .zeroize → exec i s = .next t → Framed (footprint i s) s t

/-- 60_exceptions.md R290, R296: a completion has `ERR = 0`, or a code the table gives that command and none of
the command's writes. -/
def Obligations.ErrorsWriteNothing : Prop :=
  ∀ (i : Instr) (s : State), ∃ t, exec i s = .next t ∧ t.status.busy = false ∧ t.status.done = true ∧
    (t.status.err = 0 ∨ ∃ e ∈ reportable i, FailsWith i s t e ∧ ∀ a, t.dmem.readByte a = s.dmem.readByte a)

/-- 10_state.md R32: which command may set which flag, never two at once, none with an error; and no command reads
a flag. -/
def Obligations.FlagsAreOutputsOnly : Prop :=
  (∀ (i : Instr) (s t : State), exec i s = .next t →
    (t.result.valid = true → (settable i).valid = true) ∧ (t.result.inf = true → (settable i).inf = true) ∧
    (t.result.parity = true → (settable i).parity = true) ∧ t.result.single = true ∧
    (t.status.err ≠ 0 → t.resultWord = 0)) ∧
  (∀ (i : Instr) (s : State) (st : Status) (r : ResultFlags),
    exec i { s with status := st, result := r } = exec i s)

/-! The textual layer. -/

/-- 30_encoding.md R105: `hexdecode(hexencode(b)) = b`, two lower-case digits a byte, high nibble first; an odd
string never decodes (R104). -/
def Obligations.HexRoundTrip : Prop :=
  (∀ b : List Byte, hexDecode true (hexEncode b) = .ok b) ∧
  (∀ (a : Byte) (b : List Byte), hexEncode (a :: b)
    = "0123456789abcdef".toList.getD (a.toNat / 16) '0' :: "0123456789abcdef".toList.getD (a.toNat % 16) '0'
      :: hexEncode b) ∧
  (∀ (e : Bool) (text : List Char), text.length % 2 = 1 → hexDecode e text = .error .invalidEncoding)

/-- 30_encoding.md R106: arguments are checked left to right, the first failure is reported, after good arguments
too, and the hardware is not touched. -/
def Obligations.RejectedArgumentsLeaveHardware : Prop :=
  ∀ (s : State) (a b c d : List Char) (e : ErrCode),
    (decodeArgs [(.privateKey, a)] = .error e → derivePublicKey a s = (.error (.kind e), s)) ∧
    (decodeArgs [(.messageDigest, a), (.privateKey, b)] = .error e → ecdsaSignText a b s = (.error (.kind e), s)) ∧
    (decodeArgs [(.messageDigest, a), (.signature, b), (.publicKey, c)] = .error e →
      ecdsaVerifyText a b c s = (.error (.kind e), s)) ∧
    (decodeArgs [(.data, a)] = .error e → keccak256Text a s = (.error (.kind e), s)) ∧
    (decodeArgs [(.aeadKey, a), (.aeadNonce, b), (.plaintext, c), (.associatedData, d)] = .error e →
      aeadEncryptText a b c d s = (.error (.kind e), s)) ∧
    (decodeArgs [(.aeadKey, a), (.aeadNonce, b), (.ciphertextWithTag, c), (.associatedData, d)] = .error e →
      aeadDecryptText a b c d s = (.error (.kind e), s)) ∧
    (∀ (k : ArgKind) (text : List Char) (rest : List (ArgKind × List Char)), decodeArg k text = .error e →
      decodeArgs ((k, text) :: rest) = .error e) ∧
    (∀ (k : ArgKind) (text : List Char) (rest : List (ArgKind × List Char)) (bytes : List Byte),
      decodeArg k text = .ok bytes → decodeArgs rest = .error e → decodeArgs ((k, text) :: rest) = .error e)
end

