-- ==== Sys2Proof/Laws/Bytes.lean ====
section
/-! SUPPORT. Byte strings and integers: lengths, round trips, pieces, vectors. -/

namespace Sys2Proof.Machine

@[simp] theorem be_length (k v : Nat) : (be k v).length = k := by
  induction k with
  | zero => rfl
  | succ k ih => simp [be, ih]

@[simp] theorem le_length (k v : Nat) : (le k v).length = k := by
  induction k generalizing v with
  | zero => rfl
  | succ k ih => simp [le, ih]

@[simp] theorem be256_length (v : Reg) : (be256 v).length = 32 := be_length 32 _

@[simp] theorem zeros_length (k : Nat) : (zeros k).length = k := by simp [zeros]

@[simp] theorem xorBytes_length (a b : List Byte) : (xorBytes a b).length = min a.length b.length := by
  simp [xorBytes]

@[simp] theorem bytesOfWord_length (w : Word) : (bytesOfWord w).length = 4 := be_length 4 _

/-- The integer of a string with one more byte in front. -/
theorem beInt_foldl (bytes : List Byte) (acc : Nat) :
    bytes.foldl (fun acc b => acc * 256 + b.toNat) acc = acc * 256 ^ bytes.length + beInt bytes := by
  unfold beInt
  induction bytes generalizing acc with
  | nil => simp
  | cons b rest ih =>
    simp only [List.foldl_cons, List.length_cons]
    rw [ih, ih (0 * 256 + b.toNat)]
    ring

@[simp] theorem beInt_nil : beInt [] = 0 := rfl

theorem beInt_cons (b : Byte) (rest : List Byte) : beInt (b :: rest) = b.toNat * 256 ^ rest.length + beInt rest := by
  have := beInt_foldl rest b.toNat
  simpa [beInt] using this

theorem beInt_append (a b : List Byte) : beInt (a ++ b) = beInt a * 256 ^ b.length + beInt b := by
  simp only [beInt, List.foldl_append]
  exact beInt_foldl b _

/-- A string of `k` bytes is an integer below 256^k. -/
theorem beInt_lt (bytes : List Byte) : beInt bytes < 256 ^ bytes.length := by
  induction bytes with
  | nil => simp
  | cons b rest ih =>
    rw [beInt_cons, List.length_cons, pow_succ]
    have hb : b.toNat < 256 := b.isLt
    nlinarith [Nat.mul_le_mul_right (256 ^ rest.length) (Nat.succ_le_of_lt hb)]

theorem pow256 (k : Nat) : (256 : Nat) ^ k = 2 ^ (8 * k) := by
  rw [pow_mul]; norm_num

/-- `int(be_k(v)) = v mod 256^k`. -/
theorem beInt_be (k v : Nat) : beInt (be k v) = v % 256 ^ k := by
  induction k with
  | zero => simp [be, Nat.mod_one]
  | succ k ih =>
    rw [be, beInt_cons, be_length, ih]
    have h256 := pow256 k
    have e : v % 256 ^ (k + 1) = v % 256 ^ k + 256 ^ k * (v / 256 ^ k % 256) := by
      rw [pow_succ (n := k), Nat.mod_mul]
    rw [Nat.shiftRight_eq_div_pow, ← h256, BitVec.toNat_ofNat, e]
    norm_num
    ring

/-- `be_k(int(b)) = b` for a string of `k` bytes. -/
theorem be_beInt (bytes : List Byte) : be bytes.length (beInt bytes) = bytes := by
  induction bytes with
  | nil => rfl
  | cons b rest ih =>
    have hlt := beInt_lt rest
    have key : ∀ (k : Nat) (v a : Nat), be k (a * 256 ^ k + v) = be k v := by
      intro k
      induction k with
      | zero => intro v a; rfl
      | succ k ihk =>
        intro v a
        have h256 := pow256 k
        have hpos : 0 < (256 : Nat) ^ k := by positivity
        have e1 : a * 256 ^ (k + 1) + v = (a * 256) * 256 ^ k + v := by rw [pow_succ]; ring
        rw [e1, be, be, ihk]
        congr 1
        rw [Nat.shiftRight_eq_div_pow, Nat.shiftRight_eq_div_pow, ← h256, Nat.add_comm, Nat.add_mul_div_right _ _ hpos]
        apply BitVec.eq_of_toNat_eq
        simp only [BitVec.toNat_ofNat, Nat.reducePow]
        omega
    rw [List.length_cons, be, beInt_cons]
    congr 1
    · have h256 := pow256 rest.length
      have hpos : 0 < (256 : Nat) ^ rest.length := by positivity
      rw [Nat.shiftRight_eq_div_pow, ← h256, Nat.add_comm, Nat.add_mul_div_right _ _ hpos, Nat.div_eq_of_lt hlt]
      simp
    · rw [key, ih]

/-- `int(be256(v)) = v`. -/
@[simp] theorem beInt_be256 (v : Reg) : beInt (be256 v) = v.toNat := by
  rw [be256, beInt_be]
  exact Nat.mod_eq_of_lt (by have := v.isLt; simpa using this)

/-- A 32-byte string kept as a register comes back. -/
theorem be256_ofNat_beInt (b : List Byte) (h : b.length = 32) : be256 (BitVec.ofNat 256 (beInt b)) = b := by
  have hlt := beInt_lt b
  rw [h] at hlt
  have h2 : beInt b % 2 ^ 256 = beInt b := Nat.mod_eq_of_lt (by simpa using hlt)
  rw [be256, BitVec.toNat_ofNat, h2, ← h, be_beInt]

/-- The bytes of a word make the word. -/
@[simp] theorem wordOfBytes_bytesOfWord (w : Word) : wordOfBytes (bytesOfWord w) = w := by
  apply BitVec.eq_of_toNat_eq
  rw [wordOfBytes, bytesOfWord, beInt_be, BitVec.toNat_ofNat]
  have := w.isLt
  omega

/-- Little-endian round trip: `leInt (le k v) = v mod 256^k`. -/
theorem leInt_le (k v : Nat) : leInt (le k v) = v % 256 ^ k := by
  induction k generalizing v with
  | zero => simp [le, leInt, Nat.mod_one]
  | succ k ih =>
    have e : v % 256 ^ (k + 1) = v % 256 + 256 * (v / 256 % 256 ^ k) := by
      rw [pow_succ' (n := k), Nat.mod_mul]
    rw [le, leInt, ih, BitVec.toNat_ofNat, Nat.shiftRight_eq_div_pow, e]

section
variable {α : Type}

@[simp] theorem pieces_nil (k : Nat) : pieces k ([] : List α) = [] := rfl

theorem piecesFuel_of_le (k : Nat) (hk : 0 < k) (f1 f2 : Nat) (l : List α) (h1 : l.length ≤ f1)
    (h2 : l.length ≤ f2) : piecesFuel k f1 l = piecesFuel k f2 l := by
  induction f1 generalizing f2 l with
  | zero =>
    have : l = [] := List.length_eq_zero_iff.mp (by omega)
    subst this
    cases f2 <;> rfl
  | succ f1 ih =>
    cases l with
    | nil => cases f2 <;> rfl
    | cons a rest =>
      cases f2 with
      | zero => simp at h2
      | succ f2 =>
        simp only [piecesFuel, List.length_cons] at *
        rw [ih f2]
        · simp only [List.length_drop, List.length_cons]; omega
        · simp only [List.length_drop, List.length_cons]; omega

/-- Cutting off the first piece. -/
theorem pieces_cons (k : Nat) (hk : 0 < k) (l : List α) (h : l ≠ []) :
    pieces k l = l.take k :: pieces k (l.drop k) := by
  cases l with
  | nil => exact absurd rfl h
  | cons a rest =>
    simp only [pieces, List.length_cons, piecesFuel]
    congr 1
    apply piecesFuel_of_le k hk
    · simp only [List.length_drop, List.length_cons]; omega
    · rfl

/-- Whole pieces first: cutting an appended list. -/
theorem pieces_append (k : Nat) (hk : 0 < k) (a b : List α) (h : k ∣ a.length) :
    pieces k (a ++ b) = pieces k a ++ pieces k b := by
  obtain ⟨n, hn⟩ := h
  induction n generalizing a with
  | zero =>
    have : a = [] := List.length_eq_zero_iff.mp (by simpa using hn)
    subst this
    simp
  | succ n ih =>
    have hlen : k ≤ a.length := by rw [hn, Nat.mul_succ]; omega
    have hne : a ≠ [] := by intro e; subst e; simp at hlen; omega
    rw [pieces_cons k hk (a ++ b) (by simp [hne]), pieces_cons k hk a hne, List.take_append_of_le_length hlen,
      List.drop_append_of_le_length hlen, ih (a.drop k) (by rw [List.length_drop, hn, Nat.mul_succ]; omega)]
    rfl

/-- The pieces, joined, are the list. -/
theorem pieces_flatten (k : Nat) (hk : 0 < k) (l : List α) : (pieces k l).flatten = l := by
  induction hn : l.length using Nat.strong_induction_on generalizing l with
  | _ n ih =>
    by_cases h : l = []
    · subst h; rfl
    · rw [pieces_cons k hk l h, List.flatten_cons]
      have hpos : 0 < l.length := List.length_pos_iff.mpr h
      rw [ih (l.drop k).length (by rw [List.length_drop]; omega) _ rfl, List.take_append_drop]

/-- A list of exactly `n` elements survives in a vector. -/
@[simp] theorem toVector_toList (n : Nat) (fill : α) (l : List α) (h : l.length = n) :
    (toVector n fill l).toList = l := by
  subst h
  simp [toVector, Vector.toList]

/-- A vector is the vector of its list. -/
@[simp] theorem toVector_of_toList {n : Nat} (fill : α) (v : Vector α n) : toVector n fill v.toList = v := by
  apply Vector.toList_inj.mp
  simp

end

end Sys2Proof.Machine
end

