-- ==== Sys2Proof/Laws/Keccak.lean ====
section
/-! SUPPORT. The lane arrays of the permutation: what a tabulated array reads, and that the gathered rho and pi
are the scattered ones of spec/45_keccak.md R233. -/

namespace Sys2Proof.Machine

/-- A tabulated array reads the function, indices taken modulo 5. -/
theorem laneAt_tabulateLanes (f : Nat → Nat → Lane) (x y : Nat) :
    laneAt (tabulateLanes f) x y = f (x % 5) (y % 5) := by
  have hx : x % 5 < 5 := Nat.mod_lt _ (by omega)
  have hy : y % 5 < 5 := Nat.mod_lt _ (by omega)
  have hi : x % 5 + 5 * (y % 5) < 25 := by omega
  have e1 : (x % 5 + 5 * (y % 5)) % 5 = x % 5 := by omega
  have e2 : (x % 5 + 5 * (y % 5)) / 5 = y % 5 := by omega
  simp [laneAt, tabulateLanes, hi, e1, e2]

/-- `B[y][(2x + 3y) mod 5] = rol(A[x][y], RHO[x][y])` (45_keccak.md R233). -/
theorem keccakRhoPi_scatter (a : List Lane) (x y : Nat) (hx : x < 5) (hy : y < 5) :
    laneAt (keccakRhoPi a) y (2 * x + 3 * y) = (laneAt a x y).rotateLeft (keccakRho x y) := by
  rw [keccakRhoPi, laneAt_tabulateLanes, Nat.mod_eq_of_lt hy]
  have e : (y + 3 * ((2 * x + 3 * y) % 5)) % 5 = x := by omega
  rw [e]
  congr 1
  simp only [laneAt]
  rw [e, Nat.mod_eq_of_lt hx]

end Sys2Proof.Machine
end

