-- ==== Sys2Proof/Laws/Lengths.lean ====
section
/-! SUPPORT. How long the byte strings of the units are. -/

namespace Sys2Proof.Machine

@[simp] theorem ShaWords.bytes_length (v : ShaWords) : v.bytes.length = 32 := by simp [ShaWords.bytes]

/-- A SHA-256 digest is 32 bytes. -/
@[simp] theorem sha256_length (msg : List Byte) : (sha256 msg).length = 32 := by simp [sha256]

/-- An HMAC is 32 bytes. -/
@[simp] theorem hmac_length (key msg : List Byte) : (hmac key msg).length = 32 := by simp [hmac]

@[simp] theorem drbgInit_kd_length (d z : Nat) : (drbgInit d z).kd.length = 32 := by simp [drbgInit]
@[simp] theorem drbgInit_vd_length (d z : Nat) : (drbgInit d z).vd.length = 32 := by simp [drbgInit]
@[simp] theorem drbgGen_vd_length (g : Drbg) : (drbgGen g).vd.length = 32 := by simp [drbgGen]
@[simp] theorem drbgGen_kd (g : Drbg) : (drbgGen g).kd = g.kd := rfl
@[simp] theorem drbgReseed_kd_length (g : Drbg) : (drbgReseed g).kd.length = 32 := by simp [drbgReseed]
@[simp] theorem drbgReseed_vd_length (g : Drbg) : (drbgReseed g).vd.length = 32 := by simp [drbgReseed]

/-- A compressed encoding is 33 bytes, an uncompressed one 65. -/
@[simp] theorem encPoint_length (c : PointForm) (x y : Nat) : (encPoint c x y).length = encLength c := by
  cases c <;> simp [encPoint, encCompressed, encUncompressed, encLength]

@[simp] theorem shiftRows_length (st : List Byte) : (shiftRows st).length = 16 := by simp [shiftRows]

@[simp] theorem mixColumn_length (col : List Byte) : (mixColumn col).length = 4 := by simp [mixColumn]

/-- Every whole piece has the length of a piece. -/
theorem length_of_mem_pieces {α : Type} (k : Nat) (hk : 0 < k) (l : List α) (h : k ∣ l.length) :
    ∀ p ∈ pieces k l, p.length = k := by
  obtain ⟨n, hn⟩ := h
  induction n generalizing l with
  | zero =>
    have : l = [] := List.length_eq_zero_iff.mp (by simpa using hn)
    subst this
    simp
  | succ n ih =>
    have hlen : k ≤ l.length := by rw [hn, Nat.mul_succ]; omega
    have hne : l ≠ [] := by intro e; subst e; simp at hlen; omega
    rw [pieces_cons k hk l hne]
    intro p hp
    rcases List.mem_cons.mp hp with rfl | hp'
    · simpa using hlen
    · exact ih (l.drop k) (by rw [List.length_drop, hn, Nat.mul_succ]; omega) p hp'

/-- A list of `n` whole pieces has `n` pieces. -/
theorem length_pieces {α : Type} (k : Nat) (hk : 0 < k) (n : Nat) (l : List α) (h : l.length = k * n) :
    (pieces k l).length = n := by
  induction n generalizing l with
  | zero =>
    have : l = [] := List.length_eq_zero_iff.mp (by simpa using h)
    subst this
    rfl
  | succ n ih =>
    have hlen : k ≤ l.length := by rw [h, Nat.mul_succ]; omega
    have hne : l ≠ [] := by intro e; subst e; simp at hlen; omega
    rw [pieces_cons k hk l hne, List.length_cons, ih (l.drop k) (by rw [List.length_drop, h, Nat.mul_succ]; omega)]

@[simp] theorem mixColumns_length (st : List Byte) (h : st.length = 16) : (mixColumns st).length = 16 := by
  have h4 : (pieces 4 st).length = 4 := length_pieces 4 (by omega) 4 st h
  simp [mixColumns, List.length_flatMap, h4]

/-- The rounds keep 16 bytes, when every round key has 16. -/
theorem aesRounds_length (keys : List (List Byte)) (st : List Byte) (hk : ∀ k ∈ keys, k.length = 16)
    (hs : st.length = 16) : (aesRounds keys st).length = 16 := by
  induction keys generalizing st with
  | nil => exact hs
  | cons k rest ih =>
    have hk0 : k.length = 16 := hk k (by simp)
    cases rest with
    | nil => simp [aesRounds, hk0]
    | cons k' rest' =>
      rw [aesRounds]
      · apply ih _ fun x hx => hk x (by simp [hx])
        simp [hk0]
      · simp

/-- A list of words of four bytes each, expanded, is again one. -/
theorem expandKeyFrom_word (count i : Nat) (back : List (List Byte)) (h8 : 8 ≤ back.length)
    (h : ∀ w ∈ back, w.length = 4) :
    (∀ w ∈ expandKeyFrom count i back, w.length = 4) ∧ (expandKeyFrom count i back).length = count + back.length := by
  induction count generalizing i back with
  | zero => exact ⟨h, by simp [expandKeyFrom]⟩
  | succ count ih =>
    have h7 : (back.getD 7 []).length = 4 := by
      rw [List.getD_eq_getElem _ _ (by omega)]
      exact h _ (List.getElem_mem _)
    have hhead : (back.headD []).length = 4 := by
      cases back with
      | nil => simp at h8
      | cons a l => exact h a (by simp)
    have hstep : (expandStep i (back.headD [])).length = 4 := by
      unfold expandStep
      dsimp only
      split
      · rfl
      · split
        · rw [List.length_map]; exact hhead
        · exact hhead
    have := ih (i + 1) (xorBytes (back.getD 7 []) (expandStep i (back.headD [])) :: back) (by simp; omega) (by
      intro w hw
      rcases List.mem_cons.mp hw with rfl | hw'
      · rw [xorBytes_length, h7, hstep]; rfl
      · exact h w hw')
    refine ⟨this.1, ?_⟩
    rw [expandKeyFrom, this.2, List.length_cons]
    omega

/-- A 32-byte key has 15 round keys of 16 bytes. -/
theorem roundKeys_spec (key : List Byte) (h : key.length = 32) :
    (∀ k ∈ roundKeys key, k.length = 16) ∧ (roundKeys key).length = 15 := by
  have hp : (pieces 4 key).length = 8 := length_pieces 4 (by omega) 8 key h
  have hw := expandKeyFrom_word 52 8 (pieces 4 key).reverse (by simp [hp]) (by
    intro w hw
    exact length_of_mem_pieces 4 (by omega) key (by rw [h]; decide) w (by simpa using hw))
  have hflat : (expandKeyFrom 52 8 (pieces 4 key).reverse).reverse.flatten.length = 240 := by
    have hl : (expandKeyFrom 52 8 (pieces 4 key).reverse).length = 60 := by rw [hw.2]; simp [hp]
    rw [List.length_flatten]
    have hmap : (expandKeyFrom 52 8 (pieces 4 key).reverse).reverse.map List.length
        = List.replicate 60 4 := by
      rw [List.eq_replicate_iff]
      refine ⟨by simp [hl], ?_⟩
      intro n hn
      obtain ⟨w, hwmem, rfl⟩ := List.mem_map.mp hn
      exact hw.1 w (by simpa using hwmem)
    rw [hmap]
    simp
  exact ⟨length_of_mem_pieces 16 (by omega) _ (by rw [hflat]; decide), length_pieces 16 (by omega) 15 _ hflat⟩

/-- The cipher gives 16 bytes for a 32-byte key and a 16-byte block. -/
theorem aes256_length (key blk : List Byte) (hk : key.length = 32) (hb : blk.length = 16) :
    (aes256 key blk).length = 16 := by
  obtain ⟨hall, hlen⟩ := roundKeys_spec key hk
  unfold aes256
  split
  · exact hb
  · rename_i k0 rest heq
    rw [heq] at hall
    apply aesRounds_length rest _ fun k hkm => hall k (by simp [hkm])
    rw [xorBytes_length, hb, hall k0 (by simp)]
    rfl

@[simp] theorem inc32_length (cb : List Byte) (h : cb.length = 16) : (inc32 cb).length = 16 := by
  simp [inc32, h]

@[simp] theorem counterBlock0_length (iv : List Byte) (h : iv.length = 12) : (counterBlock0 iv).length = 16 := by
  simp [counterBlock0, h]

/-- `gctr` gives as many bytes as it is given. -/
theorem gctrBlocks_length (key cb : List Byte) (blocks : List (List Byte)) (hk : key.length = 32)
    (hc : cb.length = 16) (hb : ∀ b ∈ blocks, b.length ≤ 16) :
    (gctrBlocks key cb blocks).length = blocks.flatten.length := by
  induction blocks generalizing cb with
  | nil => rfl
  | cons b rest ih =>
    have h16 := hb b (by simp)
    have haes := aes256_length key cb hk hc
    rw [gctrBlocks, List.length_append, xorBytes_length, haes, ih (inc32 cb) (by simp [hc])
      fun x hx => hb x (by simp [hx])]
    simp [Nat.min_eq_left h16]

/-- A piece is no longer than a piece. -/
theorem length_le_of_mem_pieces {α : Type} (k : Nat) (hk : 0 < k) (l : List α) : ∀ p ∈ pieces k l, p.length ≤ k := by
  induction hn : l.length using Nat.strong_induction_on generalizing l with
  | _ n ih =>
    by_cases h : l = []
    · subst h; simp
    · rw [pieces_cons k hk l h]
      have hpos : 0 < l.length := List.length_pos_iff.mpr h
      intro p hp
      rcases List.mem_cons.mp hp with rfl | hp'
      · simp
      · exact ih (l.drop k).length (by rw [List.length_drop]; omega) (l.drop k) rfl p hp'

/-- `gctr` gives as many bytes as it is given (46_aes_gcm.md R267). -/
theorem gctr_length (key icb data : List Byte) (hk : key.length = 32) (hc : icb.length = 16) :
    (gctr key icb data).length = data.length := by
  rw [gctr, gctrBlocks_length key icb _ hk hc (length_le_of_mem_pieces 16 (by omega) data),
    pieces_flatten 16 (by omega)]

/-- The tag is 16 bytes (46_aes_gcm.md R268). -/
theorem gcmTag_length (key iv aad ct : List Byte) (hk : key.length = 32) (hi : iv.length = 12) :
    (gcmTag key iv aad ct).length = 16 := by
  unfold gcmTag
  simp [aes256_length key _ hk (counterBlock0_length iv hi)]

/-- The output of encryption: the text's length and 16 (46_aes_gcm.md R269). -/
theorem gcmEncrypt_length (key iv aad pt : List Byte) (hk : key.length = 32) (hi : iv.length = 12) :
    (gcmEncrypt key iv aad pt).length = pt.length + 16 := by
  unfold gcmEncrypt
  simp [gcmTag_length key iv _ _ hk hi, gctr_length key _ pt hk (inc32_length _ (counterBlock0_length iv hi))]

/-- The output of a decryption that succeeds: 16 bytes fewer (46_aes_gcm.md R269). -/
theorem gcmDecrypt_length (key iv aad ctt pt : List Byte) (hk : key.length = 32) (hi : iv.length = 12)
    (h : gcmDecrypt key iv aad ctt = .ok pt) : pt.length + 16 = ctt.length := by
  unfold gcmDecrypt at h
  split at h
  · cases h
  · dsimp only at h
    split at h
    · cases h
    · cases h
      rw [gctr_length key _ _ hk (inc32_length _ (counterBlock0_length iv hi)), List.length_take]
      omega

@[simp] theorem tabulateLanes_length (f : Nat → Nat → Lane) : (tabulateLanes f).length = 25 := by
  simp [tabulateLanes]

@[simp] theorem keccakIota_length (rc : Lane) (a : List Lane) : (keccakIota rc a).length = a.length := by
  cases a <;> rfl

@[simp] theorem keccakRound_length (a : List Lane) (rc : Lane) : (keccakRound a rc).length = 25 := by
  simp [keccakRound, keccakChi]

theorem keccakRounds_length (rcs : List Lane) (a : List Lane) (h : a.length = 25) :
    (rcs.foldl keccakRound a).length = 25 := by
  induction rcs generalizing a with
  | nil => exact h
  | cons rc rest ih => exact ih _ (by simp)

theorem storeLanes_length (lanes : List Lane) : (storeLanes lanes).length = 8 * lanes.length := by
  simp [storeLanes, List.length_flatMap, Nat.mul_comm]

/-- The permutation gives 200 bytes (45_keccak.md R233). -/
@[simp] theorem keccakF_length (bytes : List Byte) : (keccakF bytes).length = 200 := by
  have : (keccakRC.foldl keccakRound (loadLanes bytes)).length = 25 := by
    rw [show keccakRC = 0x0000000000000001 :: keccakRC.tail from rfl, List.foldl_cons]
    exact keccakRounds_length _ _ (by simp)
  rw [keccakF, storeLanes_length, this]

/-- The sponge keeps 200 bytes (45_keccak.md R234). -/
theorem keccakAbsorb_length (st data : List Byte) (h : st.length = 200) : (keccakAbsorb st data).length = 200 := by
  unfold keccakAbsorb
  generalize pieces keccakRate data = blocks
  induction blocks generalizing st with
  | nil => exact h
  | cons b rest ih => exact ih _ (by simp)

/-- The digest is 32 bytes (45_keccak.md R234). -/
@[simp] theorem keccakFinalDigest_length (st data : List Byte) : (keccakFinalDigest st data).length = 32 := by
  simp [keccakFinalDigest]

end Sys2Proof.Machine
end

