-- ==== Sys2Proof/Laws/Memory.lean ====
section
/-! SUPPORT. The laws of DMEM: read after write, and the canonical form, which every operation keeps. -/

namespace Sys2Proof.Machine

/-- A list without a cell at an offset reads there as unlisted. -/
theorem Memory.readByte_of_absent (m : Memory) (off : Nat) (h : ∀ c ∈ m, c.1 ≠ off) :
    m.readByte off = Memory.unlisted := by
  induction m with
  | nil => rfl
  | cons c rest ih =>
    have hc : c.1 ≠ off := h c (by simp)
    simp [Memory.readByte, hc, ih fun d hd => h d (by simp [hd])]

/-- Removing the cells at one offset does not show at another. -/
theorem Memory.readByte_filter_ne (m : Memory) {off a : Nat} (h : a ≠ off) :
    Memory.readByte (m.filter fun c => c.1 != off) a = m.readByte a := by
  induction m with
  | nil => rfl
  | cons c rest ih =>
    by_cases hc : c.1 = off
    · have hca : ¬ c.1 = a := fun e => h (e.symm.trans hc)
      have : (c.1 != off) = false := by simp [hc]
      rw [List.filter_cons_of_neg (by simp [hc]), ih]
      simp [Memory.readByte, hca]
    · rw [List.filter_cons_of_pos (by simp [hc])]
      simp only [Memory.readByte, ih]

/-- An inserted cell is read, when no other cell has its offset. -/
theorem Memory.readByte_insertCell_self (m : Memory) (off : Nat) (b : Byte) (h : ∀ c ∈ m, c.1 ≠ off) :
    (m.insertCell off b).readByte off = b := by
  induction m with
  | nil => simp [Memory.insertCell, Memory.readByte]
  | cons c rest ih =>
    have hc : c.1 ≠ off := h c (by simp)
    by_cases hlt : off < c.1
    · simp [Memory.insertCell, hlt, Memory.readByte]
    · simp [Memory.insertCell, hlt, Memory.readByte, hc, ih fun d hd => h d (by simp [hd])]

/-- An inserted cell does not show at another offset. -/
theorem Memory.readByte_insertCell_ne (m : Memory) {off a : Nat} (b : Byte) (h : a ≠ off) :
    (m.insertCell off b).readByte a = m.readByte a := by
  induction m with
  | nil => simp [Memory.insertCell, Memory.readByte, Ne.symm h]
  | cons c rest ih =>
    by_cases hlt : off < c.1
    · simp [Memory.insertCell, hlt, Memory.readByte, Ne.symm h]
    · simp [Memory.insertCell, hlt, Memory.readByte, ih]

/-- A byte just written is read back, whatever the list. -/
@[simp] theorem Memory.readByte_writeByte_self (m : Memory) (off : Nat) (b : Byte) :
    (m.writeByte off b).readByte off = b := by
  have habs : ∀ c ∈ m.filter (fun c => c.1 != off), c.1 ≠ off := by
    intro c hc
    simpa using (List.mem_filter.mp hc).2
  unfold Memory.writeByte
  by_cases hb : b = Memory.unlisted
  · simpa [hb] using Memory.readByte_of_absent _ off habs
  · simpa [hb] using Memory.readByte_insertCell_self _ off b habs

/-- A write of one byte leaves every other byte. -/
theorem Memory.readByte_writeByte_ne (m : Memory) {off a : Nat} (b : Byte) (h : a ≠ off) :
    (m.writeByte off b).readByte a = m.readByte a := by
  unfold Memory.writeByte
  by_cases hb : b = Memory.unlisted
  · simpa [hb] using Memory.readByte_filter_ne m h
  · simpa [hb] using (Memory.readByte_insertCell_ne _ b h).trans (Memory.readByte_filter_ne m h)

/-- A string write leaves every byte outside its range. -/
theorem Memory.readByte_writeBytes_outside (bytes : List Byte) (m : Memory) (off a : Nat)
    (h : a < off ∨ off + bytes.length ≤ a) : (m.writeBytes off bytes).readByte a = m.readByte a := by
  induction bytes generalizing m off with
  | nil => rfl
  | cons b rest ih =>
    simp only [List.length_cons] at h
    rw [Memory.writeBytes, ih _ _ (by omega), Memory.readByte_writeByte_ne _ _ (by omega)]

/-- A string write stores byte `i` of the string at the `i`-th byte of its range. -/
theorem Memory.readByte_writeBytes_inside (bytes : List Byte) (m : Memory) (off i : Nat) (h : i < bytes.length) :
    (m.writeBytes off bytes).readByte (off + i) = bytes[i] := by
  induction bytes generalizing m off i with
  | nil => simp at h
  | cons b rest ih =>
    cases i with
    | zero => simp [Memory.writeBytes, Memory.readByte_writeBytes_outside]
    | succ i =>
      have := ih (m.writeByte off b) (off + 1) i (by simpa using h)
      rw [show off + (i + 1) = off + 1 + i by omega]
      simpa [Memory.writeBytes] using this

/-- Reading back a string just written. -/
@[simp] theorem Memory.readBytes_writeBytes (m : Memory) (off : Nat) (bytes : List Byte) :
    (m.writeBytes off bytes).readBytes off bytes.length = bytes := by
  apply List.ext_getElem
  · simp [Memory.readBytes]
  · intro i h1 h2
    simp [Memory.readBytes, Memory.readByte_writeBytes_inside, h2]

@[simp] theorem Memory.length_readBytes (m : Memory) (off n : Nat) : (m.readBytes off n).length = n := by
  simp [Memory.readBytes]

theorem Memory.getElem_readBytes (m : Memory) (off n i : Nat) (h : i < (m.readBytes off n).length) :
    (m.readBytes off n)[i] = m.readByte (off + i) := by
  simp [Memory.readBytes]

/-- Two memories that read alike over a range give the same string there. -/
theorem Memory.readBytes_congr {m m' : Memory} {off n : Nat}
    (h : ∀ a, off ≤ a → a < off + n → m.readByte a = m'.readByte a) : m.readBytes off n = m'.readBytes off n := by
  apply List.map_congr_left
  intro i hi
  have := List.mem_range.mp hi
  exact h _ (by omega) (by omega)

/-- The canonical form as a pairwise order and a condition on every cell. -/
theorem Memory.wf_iff (m : Memory) :
    m.wf = true ↔ m.Pairwise (fun c d => c.1 < d.1) ∧ ∀ c ∈ m, c.2 ≠ Memory.unlisted := by
  induction m with
  | nil => simp [Memory.wf]
  | cons c rest ih =>
    cases rest with
    | nil => simp [Memory.wf]
    | cons d rest =>
      have key : (Memory.wf (c :: d :: rest) = true) ↔
          c.2 ≠ Memory.unlisted ∧ c.1 < d.1 ∧ Memory.wf (d :: rest) = true := by
        simp [Memory.wf, and_assoc]
      rw [key, ih]
      constructor
      · rintro ⟨h1, h2, h3, h4⟩
        refine ⟨?_, ?_⟩
        · rw [List.pairwise_cons]
          refine ⟨?_, h3⟩
          intro e he
          rcases List.mem_cons.mp he with rfl | he'
          · exact h2
          · exact lt_trans h2 ((List.pairwise_cons.mp h3).1 e he')
        · intro e he
          rcases List.mem_cons.mp he with rfl | he'
          · exact h1
          · exact h4 e he'
      · rintro ⟨h1, h2⟩
        have hp := List.pairwise_cons.mp h1
        exact ⟨h2 c (by simp), hp.1 d (by simp), hp.2, fun e he => h2 e (by simp [he])⟩

/-- The cells of an insertion. -/
theorem Memory.mem_insertCell {m : Memory} {off : Nat} {b : Byte} {c : Host.Cell} :
    c ∈ m.insertCell off b ↔ c = (off, b) ∨ c ∈ m := by
  induction m with
  | nil => simp [Memory.insertCell]
  | cons d rest ih =>
    by_cases hlt : off < d.1
    · simp [Memory.insertCell, hlt]
    · simp only [Memory.insertCell, hlt, if_false, List.mem_cons, ih]
      tauto

/-- Insertion keeps the rising order. -/
theorem Memory.pairwise_insertCell {m : Memory} {off : Nat} {b : Byte} (hm : m.Pairwise fun c d => c.1 < d.1)
    (habs : ∀ c ∈ m, c.1 ≠ off) : (m.insertCell off b).Pairwise fun c d => c.1 < d.1 := by
  induction m with
  | nil => simp [Memory.insertCell]
  | cons d rest ih =>
    have hp := List.pairwise_cons.mp hm
    by_cases hlt : off < d.1
    · simp only [Memory.insertCell, hlt, if_true]
      refine List.pairwise_cons.mpr ⟨?_, hm⟩
      intro e he
      rcases List.mem_cons.mp he with rfl | he'
      · exact hlt
      · exact lt_trans hlt (hp.1 e he')
    · simp only [Memory.insertCell, hlt, if_false]
      refine List.pairwise_cons.mpr ⟨?_, ih hp.2 fun c hc => habs c (by simp [hc])⟩
      intro e he
      rcases Memory.mem_insertCell.mp he with rfl | he'
      · have := habs d (by simp)
        simp only
        omega
      · exact hp.1 e he'

/-- A write of one byte keeps the canonical form. -/
theorem Memory.wf_writeByte {m : Memory} (off : Nat) (b : Byte) (h : m.wf = true) : (m.writeByte off b).wf = true := by
  rw [Memory.wf_iff] at h ⊢
  obtain ⟨hp, hv⟩ := h
  have hp' : (m.filter fun c => c.1 != off).Pairwise fun c d => c.1 < d.1 := hp.filter _
  have hv' : ∀ c ∈ m.filter (fun c => c.1 != off), c.2 ≠ Memory.unlisted := fun c hc => hv c (List.mem_filter.mp hc).1
  have habs : ∀ c ∈ m.filter (fun c => c.1 != off), c.1 ≠ off := by
    intro c hc
    simpa using (List.mem_filter.mp hc).2
  unfold Memory.writeByte
  by_cases hb : b = Memory.unlisted
  · simp only [hb, if_true]
    exact ⟨hp', hv'⟩
  · simp only [hb, if_false]
    refine ⟨Memory.pairwise_insertCell hp' habs, ?_⟩
    intro c hc
    rcases Memory.mem_insertCell.mp hc with rfl | hc'
    · exact hb
    · exact hv' c hc'

/-- A string write keeps the canonical form. -/
theorem Memory.wf_writeBytes (bytes : List Byte) {m : Memory} (off : Nat) (h : m.wf = true) :
    (m.writeBytes off bytes).wf = true := by
  induction bytes generalizing m off with
  | nil => exact h
  | cons b rest ih => exact ih _ (Memory.wf_writeByte off b h)

theorem Memory.within_iff (m : Memory) (bound : Nat) : m.within bound = true ↔ ∀ c ∈ m, c.1 < bound := by
  simp [Memory.within]

/-- A write of one byte below the bound stays below the bound. -/
theorem Memory.within_writeByte {m : Memory} {off bound : Nat} (b : Byte) (h : m.within bound = true)
    (hoff : off < bound) : (m.writeByte off b).within bound = true := by
  rw [Memory.within_iff] at h ⊢
  unfold Memory.writeByte
  intro c hc
  by_cases hb : b = Memory.unlisted
  · simp only [hb, if_true] at hc
    exact h c (List.mem_filter.mp hc).1
  · simp only [hb, if_false] at hc
    rcases Memory.mem_insertCell.mp hc with rfl | hc'
    · exact hoff
    · exact h c (List.mem_filter.mp hc').1

/-- A string write that ends at or below the bound stays below the bound. -/
theorem Memory.within_writeBytes (bytes : List Byte) {m : Memory} {off bound : Nat} (h : m.within bound = true)
    (hoff : off + bytes.length ≤ bound) : (m.writeBytes off bytes).within bound = true := by
  induction bytes generalizing m off with
  | nil => exact h
  | cons b rest ih =>
    simp only [List.length_cons] at hoff
    exact ih (Memory.within_writeByte b h (by omega)) (by omega)

end Sys2Proof.Machine
end

