-- ==== Sys2Proof/Laws/Modular.lean ====
section
/-! SUPPORT. The modular helpers: what they compute, and the defining relations of the wired-in constants. -/

namespace Sys2Proof.Machine

/-- Square-and-multiply computes the power (00_scope.md R13), for an exponent of at most `bits` bits. -/
theorem powm_eq (m bits a e : Nat) (h : e < 2 ^ bits) : powm m bits a e = a ^ e % m := by
  induction bits generalizing a e with
  | zero =>
    have : e = 0 := by simpa using h
    subst this
    rfl
  | succ bits ih =>
    have hdiv : e / 2 < 2 ^ bits := by rw [pow_succ] at h; omega
    have hsq : (a * a % m) ^ (e / 2) % m = a ^ (2 * (e / 2)) % m := by
      rw [← Nat.pow_mod, pow_mul, pow_two]
    rw [powm, ih _ _ hdiv, hsq]
    split
    · rename_i hodd
      rw [Nat.mul_mod_mod, ← pow_succ']
      congr 2
      omega
    · rename_i heven
      congr 2
      omega

theorem powm_lt (m bits a e : Nat) (hm : 0 < m) : powm m bits a e < m := by
  induction bits generalizing a e with
  | zero => exact Nat.mod_lt _ hm
  | succ bits ih =>
    rw [powm]
    split
    · exact Nat.mod_lt _ hm
    · exact ih _ _

/-- The square root the hardware tries (00_scope.md R13): the power `(p + 1) / 4`. -/
theorem sqrtp_eq (t : Nat) : sqrtp t = t ^ ((fieldPrime + 1) / 4) % fieldPrime := by
  rw [show (fieldPrime + 1) / 4 = sqrtExponent by decide +kernel]
  exact powm_eq fieldPrime 256 t sqrtExponent (by decide +kernel)

theorem modulusOf_pos (m : Modulus) : 0 < modulusOf m := by cases m <;> decide

theorem modulusOf_lt (m : Modulus) : modulusOf m < 2 ^ 256 := by cases m <;> decide

/-- Every 256-bit value is below twice the modulus (00_scope.md R12). -/
theorem two_pow_lt_two_modulus (m : Modulus) : 2 ^ 256 < 2 * modulusOf m := by cases m <;> decide

/-- `RR * RR**(-1) mod m = 1` (40_modarith.md R122). -/
theorem montInverse_spec (m : Modulus) : montRadix * montInverse m % modulusOf m = 1 := by
  cases m <;> decide +kernel

/-- `(m * m' + 1) mod RR = 0` (40_modarith.md R122). -/
theorem montPrime_spec (m : Modulus) : (modulusOf m * montPrime m + 1) % montRadix = 0 := by
  cases m <;> decide +kernel

/-- `RR mod m` (40_modarith.md R122). -/
theorem montOne_spec (m : Modulus) : montOne m = montRadix % modulusOf m := by cases m <;> decide +kernel

/-- `RR**2 mod m` (40_modarith.md R122). -/
theorem montSquare_spec (m : Modulus) : montSquare m = montRadix * montRadix % modulusOf m := by
  cases m <;> decide +kernel

/-- `subm` is the least non-negative residue of the difference (00_scope.md R13): adding `b` back gives `a`. -/
theorem subm_add (a b m : Nat) (hm : 0 < m) : (subm a b m + b) % m = a % m := by
  have hb : b % m < m := Nat.mod_lt _ hm
  have e : a + (m - b % m) + b = a + m * (b / m + 1) := by
    have := Nat.div_add_mod b m
    rw [Nat.mul_add, Nat.mul_one]
    omega
  rw [subm, Nat.mod_add_mod, e, Nat.add_mul_mod_self_left]

end Sys2Proof.Machine
end

