-- ==== Sys2Proof/Laws/State.lean ====
section
/-! SUPPORT. One lemma per field per update of the state, each true by unfolding, so that no later proof opens
a record update. -/

namespace Sys2Proof.Machine

section
variable (s : State) (i : RegNum) (v : Reg)
@[simp] theorem State.setReg_params : (s.setReg i v).params = s.params := rfl
@[simp] theorem State.setReg_regs : (s.setReg i v).regs = s.regs.set i.toNat v := rfl
@[simp] theorem State.setReg_iv : (s.setReg i v).iv = s.iv := rfl
@[simp] theorem State.setReg_kstate : (s.setReg i v).kstate = s.kstate := rfl
@[simp] theorem State.setReg_dmem : (s.setReg i v).dmem = s.dmem := rfl
@[simp] theorem State.setReg_drbgK : (s.setReg i v).drbgK = s.drbgK := rfl
@[simp] theorem State.setReg_drbgV : (s.setReg i v).drbgV = s.drbgV := rfl
@[simp] theorem State.setReg_drbgValid : (s.setReg i v).drbgValid = s.drbgValid := rfl
@[simp] theorem State.setReg_ctrl : (s.setReg i v).ctrl = s.ctrl := rfl
@[simp] theorem State.setReg_status : (s.setReg i v).status = s.status := rfl
@[simp] theorem State.setReg_cmd : (s.setReg i v).cmd = s.cmd := rfl
@[simp] theorem State.setReg_result : (s.setReg i v).result = s.result := rfl
@[simp] theorem State.setReg_srcOff : (s.setReg i v).srcOff = s.srcOff := rfl
@[simp] theorem State.setReg_srcLen : (s.setReg i v).srcLen = s.srcLen := rfl
@[simp] theorem State.setReg_aadOff : (s.setReg i v).aadOff = s.aadOff := rfl
@[simp] theorem State.setReg_aadLen : (s.setReg i v).aadLen = s.aadLen := rfl
@[simp] theorem State.setReg_dstOff : (s.setReg i v).dstOff = s.dstOff := rfl
@[simp] theorem State.setReg_dstLen : (s.setReg i v).dstLen = s.dstLen := rfl
@[simp] theorem State.setReg_schedule : (s.setReg i v).schedule = s.schedule := rfl
@[simp] theorem State.setReg_response : (s.setReg i v).response = s.response := rfl
end

section
variable (s : State) (i : RegNum) (v : Nat)
@[simp] theorem State.setRegNat_params : (s.setRegNat i v).params = s.params := rfl
@[simp] theorem State.setRegNat_regs : (s.setRegNat i v).regs = s.regs.set i.toNat (BitVec.ofNat 256 v) := rfl
@[simp] theorem State.setRegNat_iv : (s.setRegNat i v).iv = s.iv := rfl
@[simp] theorem State.setRegNat_kstate : (s.setRegNat i v).kstate = s.kstate := rfl
@[simp] theorem State.setRegNat_dmem : (s.setRegNat i v).dmem = s.dmem := rfl
@[simp] theorem State.setRegNat_drbgK : (s.setRegNat i v).drbgK = s.drbgK := rfl
@[simp] theorem State.setRegNat_drbgV : (s.setRegNat i v).drbgV = s.drbgV := rfl
@[simp] theorem State.setRegNat_drbgValid : (s.setRegNat i v).drbgValid = s.drbgValid := rfl
@[simp] theorem State.setRegNat_ctrl : (s.setRegNat i v).ctrl = s.ctrl := rfl
@[simp] theorem State.setRegNat_status : (s.setRegNat i v).status = s.status := rfl
@[simp] theorem State.setRegNat_cmd : (s.setRegNat i v).cmd = s.cmd := rfl
@[simp] theorem State.setRegNat_result : (s.setRegNat i v).result = s.result := rfl
@[simp] theorem State.setRegNat_srcOff : (s.setRegNat i v).srcOff = s.srcOff := rfl
@[simp] theorem State.setRegNat_srcLen : (s.setRegNat i v).srcLen = s.srcLen := rfl
@[simp] theorem State.setRegNat_aadOff : (s.setRegNat i v).aadOff = s.aadOff := rfl
@[simp] theorem State.setRegNat_aadLen : (s.setRegNat i v).aadLen = s.aadLen := rfl
@[simp] theorem State.setRegNat_dstOff : (s.setRegNat i v).dstOff = s.dstOff := rfl
@[simp] theorem State.setRegNat_dstLen : (s.setRegNat i v).dstLen = s.dstLen := rfl
@[simp] theorem State.setRegNat_schedule : (s.setRegNat i v).schedule = s.schedule := rfl
@[simp] theorem State.setRegNat_response : (s.setRegNat i v).response = s.response := rfl
end

section
variable (s : State) (b : List Byte)
@[simp] theorem State.setKstate_params : (s.setKstate b).params = s.params := rfl
@[simp] theorem State.setKstate_regs : (s.setKstate b).regs = s.regs := rfl
@[simp] theorem State.setKstate_iv : (s.setKstate b).iv = s.iv := rfl
@[simp] theorem State.setKstate_kstate : (s.setKstate b).kstate = toVector 200 0 b := rfl
@[simp] theorem State.setKstate_dmem : (s.setKstate b).dmem = s.dmem := rfl
@[simp] theorem State.setKstate_drbgK : (s.setKstate b).drbgK = s.drbgK := rfl
@[simp] theorem State.setKstate_drbgV : (s.setKstate b).drbgV = s.drbgV := rfl
@[simp] theorem State.setKstate_drbgValid : (s.setKstate b).drbgValid = s.drbgValid := rfl
@[simp] theorem State.setKstate_ctrl : (s.setKstate b).ctrl = s.ctrl := rfl
@[simp] theorem State.setKstate_status : (s.setKstate b).status = s.status := rfl
@[simp] theorem State.setKstate_cmd : (s.setKstate b).cmd = s.cmd := rfl
@[simp] theorem State.setKstate_result : (s.setKstate b).result = s.result := rfl
@[simp] theorem State.setKstate_srcOff : (s.setKstate b).srcOff = s.srcOff := rfl
@[simp] theorem State.setKstate_srcLen : (s.setKstate b).srcLen = s.srcLen := rfl
@[simp] theorem State.setKstate_aadOff : (s.setKstate b).aadOff = s.aadOff := rfl
@[simp] theorem State.setKstate_aadLen : (s.setKstate b).aadLen = s.aadLen := rfl
@[simp] theorem State.setKstate_dstOff : (s.setKstate b).dstOff = s.dstOff := rfl
@[simp] theorem State.setKstate_dstLen : (s.setKstate b).dstLen = s.dstLen := rfl
@[simp] theorem State.setKstate_schedule : (s.setKstate b).schedule = s.schedule := rfl
@[simp] theorem State.setKstate_response : (s.setKstate b).response = s.response := rfl
end

section
variable (s : State) (off : Nat) (b : List Byte)
@[simp] theorem State.memWrite_params : (s.memWrite off b).params = s.params := rfl
@[simp] theorem State.memWrite_regs : (s.memWrite off b).regs = s.regs := rfl
@[simp] theorem State.memWrite_iv : (s.memWrite off b).iv = s.iv := rfl
@[simp] theorem State.memWrite_kstate : (s.memWrite off b).kstate = s.kstate := rfl
@[simp] theorem State.memWrite_dmem : (s.memWrite off b).dmem = s.dmem.writeBytes off b := rfl
@[simp] theorem State.memWrite_drbgK : (s.memWrite off b).drbgK = s.drbgK := rfl
@[simp] theorem State.memWrite_drbgV : (s.memWrite off b).drbgV = s.drbgV := rfl
@[simp] theorem State.memWrite_drbgValid : (s.memWrite off b).drbgValid = s.drbgValid := rfl
@[simp] theorem State.memWrite_ctrl : (s.memWrite off b).ctrl = s.ctrl := rfl
@[simp] theorem State.memWrite_status : (s.memWrite off b).status = s.status := rfl
@[simp] theorem State.memWrite_cmd : (s.memWrite off b).cmd = s.cmd := rfl
@[simp] theorem State.memWrite_result : (s.memWrite off b).result = s.result := rfl
@[simp] theorem State.memWrite_srcOff : (s.memWrite off b).srcOff = s.srcOff := rfl
@[simp] theorem State.memWrite_srcLen : (s.memWrite off b).srcLen = s.srcLen := rfl
@[simp] theorem State.memWrite_aadOff : (s.memWrite off b).aadOff = s.aadOff := rfl
@[simp] theorem State.memWrite_aadLen : (s.memWrite off b).aadLen = s.aadLen := rfl
@[simp] theorem State.memWrite_dstOff : (s.memWrite off b).dstOff = s.dstOff := rfl
@[simp] theorem State.memWrite_dstLen : (s.memWrite off b).dstLen = s.dstLen := rfl
@[simp] theorem State.memWrite_schedule : (s.memWrite off b).schedule = s.schedule := rfl
@[simp] theorem State.memWrite_response : (s.memWrite off b).response = s.response := rfl
end

section
variable (s : State) (n : Nat)
@[simp] theorem State.setDstLen_params : (s.setDstLen n).params = s.params := rfl
@[simp] theorem State.setDstLen_regs : (s.setDstLen n).regs = s.regs := rfl
@[simp] theorem State.setDstLen_iv : (s.setDstLen n).iv = s.iv := rfl
@[simp] theorem State.setDstLen_kstate : (s.setDstLen n).kstate = s.kstate := rfl
@[simp] theorem State.setDstLen_dmem : (s.setDstLen n).dmem = s.dmem := rfl
@[simp] theorem State.setDstLen_drbgK : (s.setDstLen n).drbgK = s.drbgK := rfl
@[simp] theorem State.setDstLen_drbgV : (s.setDstLen n).drbgV = s.drbgV := rfl
@[simp] theorem State.setDstLen_drbgValid : (s.setDstLen n).drbgValid = s.drbgValid := rfl
@[simp] theorem State.setDstLen_ctrl : (s.setDstLen n).ctrl = s.ctrl := rfl
@[simp] theorem State.setDstLen_status : (s.setDstLen n).status = s.status := rfl
@[simp] theorem State.setDstLen_cmd : (s.setDstLen n).cmd = s.cmd := rfl
@[simp] theorem State.setDstLen_result : (s.setDstLen n).result = s.result := rfl
@[simp] theorem State.setDstLen_srcOff : (s.setDstLen n).srcOff = s.srcOff := rfl
@[simp] theorem State.setDstLen_srcLen : (s.setDstLen n).srcLen = s.srcLen := rfl
@[simp] theorem State.setDstLen_aadOff : (s.setDstLen n).aadOff = s.aadOff := rfl
@[simp] theorem State.setDstLen_aadLen : (s.setDstLen n).aadLen = s.aadLen := rfl
@[simp] theorem State.setDstLen_dstOff : (s.setDstLen n).dstOff = s.dstOff := rfl
@[simp] theorem State.setDstLen_dstLen : (s.setDstLen n).dstLen = BitVec.ofNat 32 n := rfl
@[simp] theorem State.setDstLen_schedule : (s.setDstLen n).schedule = s.schedule := rfl
@[simp] theorem State.setDstLen_response : (s.setDstLen n).response = s.response := rfl
end

section
variable (s : State) (b : List Byte)
@[simp] theorem State.memOutput_params : (s.memOutput b).params = s.params := rfl
@[simp] theorem State.memOutput_regs : (s.memOutput b).regs = s.regs := rfl
@[simp] theorem State.memOutput_iv : (s.memOutput b).iv = s.iv := rfl
@[simp] theorem State.memOutput_kstate : (s.memOutput b).kstate = s.kstate := rfl
@[simp] theorem State.memOutput_dmem : (s.memOutput b).dmem = s.dmem.writeBytes s.dstOff.toNat b := rfl
@[simp] theorem State.memOutput_drbgK : (s.memOutput b).drbgK = s.drbgK := rfl
@[simp] theorem State.memOutput_drbgV : (s.memOutput b).drbgV = s.drbgV := rfl
@[simp] theorem State.memOutput_drbgValid : (s.memOutput b).drbgValid = s.drbgValid := rfl
@[simp] theorem State.memOutput_ctrl : (s.memOutput b).ctrl = s.ctrl := rfl
@[simp] theorem State.memOutput_status : (s.memOutput b).status = s.status := rfl
@[simp] theorem State.memOutput_cmd : (s.memOutput b).cmd = s.cmd := rfl
@[simp] theorem State.memOutput_result : (s.memOutput b).result = s.result := rfl
@[simp] theorem State.memOutput_srcOff : (s.memOutput b).srcOff = s.srcOff := rfl
@[simp] theorem State.memOutput_srcLen : (s.memOutput b).srcLen = s.srcLen := rfl
@[simp] theorem State.memOutput_aadOff : (s.memOutput b).aadOff = s.aadOff := rfl
@[simp] theorem State.memOutput_aadLen : (s.memOutput b).aadLen = s.aadLen := rfl
@[simp] theorem State.memOutput_dstOff : (s.memOutput b).dstOff = s.dstOff := rfl
@[simp] theorem State.memOutput_dstLen : (s.memOutput b).dstLen = BitVec.ofNat 32 b.length := rfl
@[simp] theorem State.memOutput_schedule : (s.memOutput b).schedule = s.schedule := rfl
@[simp] theorem State.memOutput_response : (s.memOutput b).response = s.response := rfl
end

section
variable (s : State) (kd vd : List Byte)
@[simp] theorem State.setDrbg_params : (s.setDrbg kd vd).params = s.params := rfl
@[simp] theorem State.setDrbg_regs : (s.setDrbg kd vd).regs = s.regs := rfl
@[simp] theorem State.setDrbg_iv : (s.setDrbg kd vd).iv = s.iv := rfl
@[simp] theorem State.setDrbg_kstate : (s.setDrbg kd vd).kstate = s.kstate := rfl
@[simp] theorem State.setDrbg_dmem : (s.setDrbg kd vd).dmem = s.dmem := rfl
@[simp] theorem State.setDrbg_drbgK : (s.setDrbg kd vd).drbgK = BitVec.ofNat 256 (beInt kd) := rfl
@[simp] theorem State.setDrbg_drbgV : (s.setDrbg kd vd).drbgV = BitVec.ofNat 256 (beInt vd) := rfl
@[simp] theorem State.setDrbg_drbgValid : (s.setDrbg kd vd).drbgValid = true := rfl
@[simp] theorem State.setDrbg_ctrl : (s.setDrbg kd vd).ctrl = s.ctrl := rfl
@[simp] theorem State.setDrbg_status : (s.setDrbg kd vd).status = s.status := rfl
@[simp] theorem State.setDrbg_cmd : (s.setDrbg kd vd).cmd = s.cmd := rfl
@[simp] theorem State.setDrbg_result : (s.setDrbg kd vd).result = s.result := rfl
@[simp] theorem State.setDrbg_srcOff : (s.setDrbg kd vd).srcOff = s.srcOff := rfl
@[simp] theorem State.setDrbg_srcLen : (s.setDrbg kd vd).srcLen = s.srcLen := rfl
@[simp] theorem State.setDrbg_aadOff : (s.setDrbg kd vd).aadOff = s.aadOff := rfl
@[simp] theorem State.setDrbg_aadLen : (s.setDrbg kd vd).aadLen = s.aadLen := rfl
@[simp] theorem State.setDrbg_dstOff : (s.setDrbg kd vd).dstOff = s.dstOff := rfl
@[simp] theorem State.setDrbg_dstLen : (s.setDrbg kd vd).dstLen = s.dstLen := rfl
@[simp] theorem State.setDrbg_schedule : (s.setDrbg kd vd).schedule = s.schedule := rfl
@[simp] theorem State.setDrbg_response : (s.setDrbg kd vd).response = s.response := rfl
end

section
variable (s : State) (w : Word)
@[simp] theorem State.issue_params : (s.issue w).params = s.params := rfl
@[simp] theorem State.issue_regs : (s.issue w).regs = s.regs := rfl
@[simp] theorem State.issue_iv : (s.issue w).iv = s.iv := rfl
@[simp] theorem State.issue_kstate : (s.issue w).kstate = s.kstate := rfl
@[simp] theorem State.issue_dmem : (s.issue w).dmem = s.dmem := rfl
@[simp] theorem State.issue_drbgK : (s.issue w).drbgK = s.drbgK := rfl
@[simp] theorem State.issue_drbgV : (s.issue w).drbgV = s.drbgV := rfl
@[simp] theorem State.issue_drbgValid : (s.issue w).drbgValid = s.drbgValid := rfl
@[simp] theorem State.issue_ctrl : (s.issue w).ctrl = s.ctrl := rfl
@[simp] theorem State.issue_status : (s.issue w).status = ⟨true, false, 0⟩ := rfl
@[simp] theorem State.issue_cmd : (s.issue w).cmd = w := rfl
@[simp] theorem State.issue_result : (s.issue w).result = noFlags := rfl
@[simp] theorem State.issue_srcOff : (s.issue w).srcOff = s.srcOff := rfl
@[simp] theorem State.issue_srcLen : (s.issue w).srcLen = s.srcLen := rfl
@[simp] theorem State.issue_aadOff : (s.issue w).aadOff = s.aadOff := rfl
@[simp] theorem State.issue_aadLen : (s.issue w).aadLen = s.aadLen := rfl
@[simp] theorem State.issue_dstOff : (s.issue w).dstOff = s.dstOff := rfl
@[simp] theorem State.issue_dstLen : (s.issue w).dstLen = s.dstLen := rfl
@[simp] theorem State.issue_schedule : (s.issue w).schedule = s.schedule := rfl
@[simp] theorem State.issue_response : (s.issue w).response = s.response := rfl
end

section
variable (s : State) (f : ResultFlags)
@[simp] theorem State.complete_params : (s.complete f).params = s.params := rfl
@[simp] theorem State.complete_regs : (s.complete f).regs = s.regs := rfl
@[simp] theorem State.complete_iv : (s.complete f).iv = s.iv := rfl
@[simp] theorem State.complete_kstate : (s.complete f).kstate = s.kstate := rfl
@[simp] theorem State.complete_dmem : (s.complete f).dmem = s.dmem := rfl
@[simp] theorem State.complete_drbgK : (s.complete f).drbgK = s.drbgK := rfl
@[simp] theorem State.complete_drbgV : (s.complete f).drbgV = s.drbgV := rfl
@[simp] theorem State.complete_drbgValid : (s.complete f).drbgValid = s.drbgValid := rfl
@[simp] theorem State.complete_ctrl : (s.complete f).ctrl = s.ctrl := rfl
@[simp] theorem State.complete_status : (s.complete f).status = ⟨false, true, 0⟩ := rfl
@[simp] theorem State.complete_cmd : (s.complete f).cmd = s.cmd := rfl
@[simp] theorem State.complete_result : (s.complete f).result = f := rfl
@[simp] theorem State.complete_srcOff : (s.complete f).srcOff = s.srcOff := rfl
@[simp] theorem State.complete_srcLen : (s.complete f).srcLen = s.srcLen := rfl
@[simp] theorem State.complete_aadOff : (s.complete f).aadOff = s.aadOff := rfl
@[simp] theorem State.complete_aadLen : (s.complete f).aadLen = s.aadLen := rfl
@[simp] theorem State.complete_dstOff : (s.complete f).dstOff = s.dstOff := rfl
@[simp] theorem State.complete_dstLen : (s.complete f).dstLen = s.dstLen := rfl
@[simp] theorem State.complete_schedule : (s.complete f).schedule = s.schedule := rfl
@[simp] theorem State.complete_response : (s.complete f).response = s.response := rfl
end

section
variable (s : State) (c : Bool) (e : ErrCode)
@[simp] theorem State.errorCommit_params : (s.errorCommit c e).params = s.params := rfl
@[simp] theorem State.errorCommit_regs : (s.errorCommit c e).regs = s.regs := rfl
@[simp] theorem State.errorCommit_iv : (s.errorCommit c e).iv = s.iv := rfl
@[simp] theorem State.errorCommit_kstate : (s.errorCommit c e).kstate = s.kstate := rfl
@[simp] theorem State.errorCommit_dmem : (s.errorCommit c e).dmem = s.dmem := rfl
@[simp] theorem State.errorCommit_drbgK : (s.errorCommit c e).drbgK = s.drbgK := rfl
@[simp] theorem State.errorCommit_drbgV : (s.errorCommit c e).drbgV = s.drbgV := rfl
@[simp] theorem State.errorCommit_drbgValid : (s.errorCommit c e).drbgValid = s.drbgValid := rfl
@[simp] theorem State.errorCommit_ctrl : (s.errorCommit c e).ctrl = s.ctrl := rfl
@[simp] theorem State.errorCommit_status : (s.errorCommit c e).status = ⟨false, true, e.code⟩ := rfl
@[simp] theorem State.errorCommit_cmd : (s.errorCommit c e).cmd = s.cmd := rfl
@[simp] theorem State.errorCommit_result : (s.errorCommit c e).result = noFlags := rfl
@[simp] theorem State.errorCommit_srcOff : (s.errorCommit c e).srcOff = s.srcOff := rfl
@[simp] theorem State.errorCommit_srcLen : (s.errorCommit c e).srcLen = s.srcLen := rfl
@[simp] theorem State.errorCommit_aadOff : (s.errorCommit c e).aadOff = s.aadOff := rfl
@[simp] theorem State.errorCommit_aadLen : (s.errorCommit c e).aadLen = s.aadLen := rfl
@[simp] theorem State.errorCommit_dstOff : (s.errorCommit c e).dstOff = s.dstOff := rfl
@[simp] theorem State.errorCommit_dstLen : (s.errorCommit c e).dstLen = if c then 0 else s.dstLen := rfl
@[simp] theorem State.errorCommit_schedule : (s.errorCommit c e).schedule = s.schedule := rfl
@[simp] theorem State.errorCommit_response : (s.errorCommit c e).response = s.response := rfl
end

section
variable (s : State)
@[simp] theorem State.acknowledge_params : s.acknowledge.params = s.params := rfl
@[simp] theorem State.acknowledge_regs : s.acknowledge.regs = s.regs := rfl
@[simp] theorem State.acknowledge_iv : s.acknowledge.iv = s.iv := rfl
@[simp] theorem State.acknowledge_kstate : s.acknowledge.kstate = s.kstate := rfl
@[simp] theorem State.acknowledge_dmem : s.acknowledge.dmem = s.dmem := rfl
@[simp] theorem State.acknowledge_drbgK : s.acknowledge.drbgK = s.drbgK := rfl
@[simp] theorem State.acknowledge_drbgV : s.acknowledge.drbgV = s.drbgV := rfl
@[simp] theorem State.acknowledge_drbgValid : s.acknowledge.drbgValid = s.drbgValid := rfl
@[simp] theorem State.acknowledge_ctrl : s.acknowledge.ctrl = s.ctrl := rfl
@[simp] theorem State.acknowledge_status : s.acknowledge.status = ⟨s.status.busy, false, s.status.err⟩ := rfl
@[simp] theorem State.acknowledge_cmd : s.acknowledge.cmd = s.cmd := rfl
@[simp] theorem State.acknowledge_result : s.acknowledge.result = s.result := rfl
@[simp] theorem State.acknowledge_srcOff : s.acknowledge.srcOff = s.srcOff := rfl
@[simp] theorem State.acknowledge_srcLen : s.acknowledge.srcLen = s.srcLen := rfl
@[simp] theorem State.acknowledge_aadOff : s.acknowledge.aadOff = s.aadOff := rfl
@[simp] theorem State.acknowledge_aadLen : s.acknowledge.aadLen = s.aadLen := rfl
@[simp] theorem State.acknowledge_dstOff : s.acknowledge.dstOff = s.dstOff := rfl
@[simp] theorem State.acknowledge_dstLen : s.acknowledge.dstLen = s.dstLen := rfl
@[simp] theorem State.acknowledge_schedule : s.acknowledge.schedule = s.schedule := rfl
@[simp] theorem State.acknowledge_response : s.acknowledge.response = s.response := rfl
end

section
variable (s : State)
@[simp] theorem State.illegal_params : s.illegal.params = s.params := rfl
@[simp] theorem State.illegal_regs : s.illegal.regs = s.regs := rfl
@[simp] theorem State.illegal_iv : s.illegal.iv = s.iv := rfl
@[simp] theorem State.illegal_kstate : s.illegal.kstate = s.kstate := rfl
@[simp] theorem State.illegal_dmem : s.illegal.dmem = s.dmem := rfl
@[simp] theorem State.illegal_drbgK : s.illegal.drbgK = s.drbgK := rfl
@[simp] theorem State.illegal_drbgV : s.illegal.drbgV = s.drbgV := rfl
@[simp] theorem State.illegal_drbgValid : s.illegal.drbgValid = s.drbgValid := rfl
@[simp] theorem State.illegal_ctrl : s.illegal.ctrl = s.ctrl := rfl
@[simp] theorem State.illegal_status : s.illegal.status = ⟨false, true, 0x10⟩ := rfl
@[simp] theorem State.illegal_cmd : s.illegal.cmd = s.cmd := rfl
@[simp] theorem State.illegal_result : s.illegal.result = noFlags := rfl
@[simp] theorem State.illegal_srcOff : s.illegal.srcOff = s.srcOff := rfl
@[simp] theorem State.illegal_srcLen : s.illegal.srcLen = s.srcLen := rfl
@[simp] theorem State.illegal_aadOff : s.illegal.aadOff = s.aadOff := rfl
@[simp] theorem State.illegal_aadLen : s.illegal.aadLen = s.aadLen := rfl
@[simp] theorem State.illegal_dstOff : s.illegal.dstOff = s.dstOff := rfl
@[simp] theorem State.illegal_dstLen : s.illegal.dstLen = s.dstLen := rfl
@[simp] theorem State.illegal_schedule : s.illegal.schedule = s.schedule := rfl
@[simp] theorem State.illegal_response : s.illegal.response = s.response := rfl
end

section
variable (s : State) (a : Nat)
@[simp] theorem State.takeRead_params : (s.takeRead a).params = s.params := rfl
@[simp] theorem State.takeRead_regs : (s.takeRead a).regs = s.regs := rfl
@[simp] theorem State.takeRead_iv : (s.takeRead a).iv = s.iv := rfl
@[simp] theorem State.takeRead_kstate : (s.takeRead a).kstate = s.kstate := rfl
@[simp] theorem State.takeRead_dmem : (s.takeRead a).dmem = s.dmem := rfl
@[simp] theorem State.takeRead_drbgK : (s.takeRead a).drbgK = s.drbgK := rfl
@[simp] theorem State.takeRead_drbgV : (s.takeRead a).drbgV = s.drbgV := rfl
@[simp] theorem State.takeRead_drbgValid : (s.takeRead a).drbgValid = s.drbgValid := rfl
@[simp] theorem State.takeRead_ctrl : (s.takeRead a).ctrl = s.ctrl := rfl
@[simp] theorem State.takeRead_status : (s.takeRead a).status = s.status := rfl
@[simp] theorem State.takeRead_cmd : (s.takeRead a).cmd = s.cmd := rfl
@[simp] theorem State.takeRead_result : (s.takeRead a).result = s.result := rfl
@[simp] theorem State.takeRead_srcOff : (s.takeRead a).srcOff = s.srcOff := rfl
@[simp] theorem State.takeRead_srcLen : (s.takeRead a).srcLen = s.srcLen := rfl
@[simp] theorem State.takeRead_aadOff : (s.takeRead a).aadOff = s.aadOff := rfl
@[simp] theorem State.takeRead_aadLen : (s.takeRead a).aadLen = s.aadLen := rfl
@[simp] theorem State.takeRead_dstOff : (s.takeRead a).dstOff = s.dstOff := rfl
@[simp] theorem State.takeRead_dstLen : (s.takeRead a).dstLen = s.dstLen := rfl
@[simp] theorem State.takeRead_schedule : (s.takeRead a).schedule = s.schedule := rfl
@[simp] theorem State.takeRead_response : (s.takeRead a).response = some (s.hostRead32 a) := rfl
end

section
variable (s : State)
@[simp] theorem State.zeroized_params : s.zeroized.params = s.params := rfl
@[simp] theorem State.zeroized_regs : s.zeroized.regs = Vector.replicate 16 0 := rfl
@[simp] theorem State.zeroized_iv : s.zeroized.iv = Vector.replicate 12 0 := rfl
@[simp] theorem State.zeroized_kstate : s.zeroized.kstate = Vector.replicate 200 0 := rfl
@[simp] theorem State.zeroized_dmem : s.zeroized.dmem = [] := rfl
@[simp] theorem State.zeroized_drbgK : s.zeroized.drbgK = 0 := rfl
@[simp] theorem State.zeroized_drbgV : s.zeroized.drbgV = 0 := rfl
@[simp] theorem State.zeroized_drbgValid : s.zeroized.drbgValid = false := rfl
@[simp] theorem State.zeroized_ctrl : s.zeroized.ctrl = s.ctrl := rfl
@[simp] theorem State.zeroized_status : s.zeroized.status = s.status := rfl
@[simp] theorem State.zeroized_cmd : s.zeroized.cmd = s.cmd := rfl
@[simp] theorem State.zeroized_result : s.zeroized.result = s.result := rfl
@[simp] theorem State.zeroized_srcOff : s.zeroized.srcOff = 0 := rfl
@[simp] theorem State.zeroized_srcLen : s.zeroized.srcLen = 0 := rfl
@[simp] theorem State.zeroized_aadOff : s.zeroized.aadOff = 0 := rfl
@[simp] theorem State.zeroized_aadLen : s.zeroized.aadLen = 0 := rfl
@[simp] theorem State.zeroized_dstOff : s.zeroized.dstOff = 0 := rfl
@[simp] theorem State.zeroized_dstLen : s.zeroized.dstLen = 0 := rfl
@[simp] theorem State.zeroized_schedule : s.zeroized.schedule = s.schedule := rfl
@[simp] theorem State.zeroized_response : s.zeroized.response = s.response := rfl
end

end Sys2Proof.Machine
end

