-- ==== Sys2Proof/Laws/Registers.lean ====
section
/-! SUPPORT. Reading a general register after an update: the register written reads the new value, every other
reads as before. -/

namespace Sys2Proof.Machine

section
variable (s : State)

/-- A register just written reads the value written. -/
@[simp] theorem State.reg_setReg_self (i : RegNum) (v : Reg) : (s.setReg i v).reg i = v := by
  simp [State.reg, State.setReg]

/-- A write to one register leaves every other. -/
theorem State.reg_setReg_of_ne {i j : RegNum} (v : Reg) (h : j ≠ i) : (s.setReg i v).reg j = s.reg j := by
  have h' : i.toNat ≠ j.toNat := fun e => h (BitVec.eq_of_toNat_eq e.symm)
  simp [State.reg, State.setReg, h']

/-- Reading after a write, both cases at once. -/
theorem State.reg_setReg (i j : RegNum) (v : Reg) : (s.setReg i v).reg j = if j = i then v else s.reg j := by
  by_cases h : j = i
  · subst h; simp
  · simp [h, State.reg_setReg_of_ne]

/-- An integer below 2^256 written to a register is read back. -/
theorem State.regNat_setRegNat_self (i : RegNum) {v : Nat} (h : v < 2 ^ 256) : (s.setRegNat i v).regNat i = v := by
  simpa [State.regNat, State.setRegNat] using h

/-- A write of an integer to one register leaves every other. -/
theorem State.reg_setRegNat_of_ne {i j : RegNum} (v : Nat) (h : j ≠ i) : (s.setRegNat i v).reg j = s.reg j :=
  State.reg_setReg_of_ne s _ h

/-- A register is a 256-bit integer. -/
theorem State.regNat_lt (i : RegNum) : s.regNat i < 2 ^ 256 := (s.reg i).isLt

/-- Two states with equal register files read alike. -/
theorem State.reg_congr {s t : State} (h : t.regs = s.regs) (i : RegNum) : t.reg i = s.reg i := by
  simp only [State.reg, h]

@[simp] theorem State.reg_setKstate (b : List Byte) (i : RegNum) : (s.setKstate b).reg i = s.reg i := rfl
@[simp] theorem State.reg_memWrite (off : Nat) (b : List Byte) (i : RegNum) : (s.memWrite off b).reg i = s.reg i := rfl
@[simp] theorem State.reg_memOutput (b : List Byte) (i : RegNum) : (s.memOutput b).reg i = s.reg i := rfl
@[simp] theorem State.reg_setDstLen (n : Nat) (i : RegNum) : (s.setDstLen n).reg i = s.reg i := rfl
@[simp] theorem State.reg_setDrbg (kd vd : List Byte) (i : RegNum) : (s.setDrbg kd vd).reg i = s.reg i := rfl
@[simp] theorem State.reg_issue (w : Word) (i : RegNum) : (s.issue w).reg i = s.reg i := rfl
@[simp] theorem State.reg_complete (f : ResultFlags) (i : RegNum) : (s.complete f).reg i = s.reg i := rfl
@[simp] theorem State.reg_errorCommit (c : Bool) (e : ErrCode) (i : RegNum) :
    (s.errorCommit c e).reg i = s.reg i := rfl
@[simp] theorem State.reg_illegal (i : RegNum) : s.illegal.reg i = s.reg i := rfl
@[simp] theorem State.reg_acknowledge (i : RegNum) : s.acknowledge.reg i = s.reg i := rfl
@[simp] theorem State.reg_takeRead (a : Nat) (i : RegNum) : (s.takeRead a).reg i = s.reg i := rfl
@[simp] theorem State.regNat_complete (f : ResultFlags) (i : RegNum) : (s.complete f).regNat i = s.regNat i := rfl
@[simp] theorem State.regNat_setKstate (b : List Byte) (i : RegNum) : (s.setKstate b).regNat i = s.regNat i := rfl
@[simp] theorem State.regNat_memOutput (b : List Byte) (i : RegNum) : (s.memOutput b).regNat i = s.regNat i := rfl
@[simp] theorem State.regNat_setDrbg (kd vd : List Byte) (i : RegNum) :
    (s.setDrbg kd vd).regNat i = s.regNat i := rfl

/-- `ZEROIZE` leaves every register 0. -/
@[simp] theorem State.reg_zeroized (i : RegNum) : s.zeroized.reg i = 0 := by
  simp [State.reg, State.zeroized]

end

end Sys2Proof.Machine
end

