-- ==== Sys2Proof/Laws/Ops.lean ====
section
/-! SUPPORT. What a command can do, said once: it commits its result (spec/10_state.md R47). And what each named
operation leaves alone, as footprints. -/

namespace Sys2Proof.Machine

/-- What each command computes from the state (10_state.md R47, `Exec`). -/
def commandResult (i : Instr) (s : State) : CommandResult :=
  match i with
  | .nop => .ok (s, noFlags)
  | .zeroize => .ok (s.zeroized, noFlags)
  | .montMul rd ra rb m => modBinary (fun a b => mont a b m) rd ra rb m s
  | .toMont rd ra m => modUnary (fun a => a * montRadix % modulusOf m) rd ra m s
  | .fromMont rd ra m => modUnary (fun a => a * montInverse m % modulusOf m) rd ra m s
  | .modMul rd ra rb m => modBinary (fun a b => mulm a b (modulusOf m)) rd ra rb m s
  | .modAdd rd ra rb m => modBinary (fun a b => addm a b (modulusOf m)) rd ra rb m s
  | .modSub rd ra rb m => modBinary (fun a b => subm a b (modulusOf m)) rd ra rb m s
  | .modInv rd ra m => modInverse rd ra m s
  | .modRed rd ra m => .ok (s.setRegNat rd
      (if modulusOf m ≤ s.regNat ra then s.regNat ra - modulusOf m else s.regNat ra), noFlags)
  | .pmulG => .ok (pmulResult s (ladder (s.regNat regK) basePoint))
  | .pmul => pmulCommand s
  | .derive => deriveCommand s
  | .pkEncode comp => pkEncodeCommand comp s
  | .pkDecode => pkDecodeCommand s
  | .nonceFirst => nonceFirstCommand s
  | .nonceNext => nonceNextCommand s
  | .signK => signKCommand s
  | .ecdsaSign => ecdsaSignCommand s
  | .ecdsaVerify => ecdsaVerifyCommand s
  | .keccakF1600 => .ok (s.setKstate (keccakF s.kstate.toList), noFlags)
  | .keccakInit => .ok (s.setKstate (zeros 200), noFlags)
  | .keccakAbsorb => keccakAbsorbCommand s
  | .keccakFinal rd => keccakFinalCommand rd s
  | .keccak256 rd => keccak256Command rd s
  | .aes256Enc ra => aes256EncCommand ra s
  | .gcmEnc ra => gcmEncCommand ra s
  | .gcmDec ra => gcmDecCommand ra s

/-- Every command ends in one commit of what it computed, and nothing else. -/
theorem exec_eq (i : Instr) (s : State) : exec i s = .next (s.commit (writesOutput i) (commandResult i s)) := by
  cases i <;> rfl

/-- A commit of a success. -/
@[simp] theorem commit_ok (s t : State) (c : Bool) (f : ResultFlags) : s.commit c (.ok (t, f)) = t.complete f := rfl

/-- A commit of an error. -/
@[simp] theorem commit_error (s : State) (c : Bool) (e : ErrCode) : s.commit c (.error e) = s.errorCommit c e := rfl

/-- A next state of a command is a success or an error of its result; nothing else can come out. -/
theorem exec_cases {i : Instr} {s t : State} (h : exec i s = .next t) :
    (∃ u f, commandResult i s = .ok (u, f) ∧ t = u.complete f) ∨
    (∃ e, commandResult i s = .error e ∧ t = s.errorCommit (writesOutput i) e) := by
  rw [exec_eq] at h
  cases hr : commandResult i s with
  | error e => exact .inr ⟨e, rfl, by rw [hr] at h; exact (Host.Outcome.next.inj h).symm⟩
  | ok p => exact .inl ⟨p.1, p.2, rfl, by rw [hr] at h; exact (Host.Outcome.next.inj h).symm⟩

/-- A completion succeeds with its flags. -/
theorem succeeded_complete (s : State) (f : ResultFlags) : Succeeded (s.complete f) f := ⟨rfl, rfl⟩

/-- An error commit is a failure with its code. -/
theorem failed_errorCommit (s : State) (c : Bool) (e : ErrCode) : Failed (s.errorCommit c e) e := ⟨rfl, rfl⟩

/-- A state is framed by the empty footprint against itself. -/
theorem Framed.refl (f : Footprint) (s : State) : Framed f s s :=
  ⟨rfl, fun _ _ => rfl, rfl, fun _ => rfl, fun _ _ => rfl, fun _ => ⟨rfl, rfl, rfl⟩, rfl, rfl, ⟨rfl, rfl⟩, ⟨rfl, rfl⟩,
    rfl, fun _ => rfl, ⟨rfl, rfl⟩⟩

/-- `STATUS` and `RESULT` are outside every footprint. -/
theorem Framed.complete {f : Footprint} {s t : State} (h : Framed f s t) (flags : ResultFlags) :
    Framed f s (t.complete flags) :=
  ⟨h.params, h.regs, h.iv, h.kstate, h.mem, h.drbg, h.ctrl, h.cmd, h.src, h.aad, h.dstOff, h.dstLen, h.outside⟩

/-- A register write stays inside a footprint that lists the register. -/
theorem Framed.setRegNat {f : Footprint} {s t : State} (h : Framed f s t) {i : RegNum} (v : Nat) (hi : i ∈ f.regs) :
    Framed f s (t.setRegNat i v) :=
  ⟨h.params, fun j hj => (State.reg_setRegNat_of_ne t v fun e => hj (by rw [e]; exact hi)).trans (h.regs j hj), h.iv,
    h.kstate, h.mem, h.drbg, h.ctrl, h.cmd, h.src, h.aad, h.dstOff, h.dstLen, h.outside⟩

/-- So do the two writes of a point. -/
theorem Framed.setPoint {f : Footprint} {s t : State} (h : Framed f s t) {ix iy : RegNum} (x y : Nat)
    (hx : ix ∈ f.regs) (hy : iy ∈ f.regs) : Framed f s (t.setPoint ix iy x y) :=
  (h.setRegNat x hx).setRegNat y hy

/-- A write of `KSTATE` stays inside a footprint that has it. -/
theorem Framed.setKstate {f : Footprint} {s t : State} (h : Framed f s t) (b : List Byte) (hf : f.kstate = true) :
    Framed f s (t.setKstate b) :=
  ⟨h.params, h.regs, h.iv, fun e => by simp [hf] at e, h.mem, h.drbg, h.ctrl, h.cmd, h.src, h.aad, h.dstOff, h.dstLen,
    h.outside⟩

/-- A write of the DRBG state stays inside a footprint that has it. -/
theorem Framed.setDrbg {f : Footprint} {s t : State} (h : Framed f s t) (kd vd : List Byte) (hf : f.drbg = true) :
    Framed f s (t.setDrbg kd vd) :=
  ⟨h.params, h.regs, h.iv, h.kstate, h.mem, fun e => by simp [hf] at e, h.ctrl, h.cmd, h.src, h.aad, h.dstOff,
    h.dstLen, h.outside⟩

/-- An output at `DST_OFF` stays inside a footprint of at least its length that has `DST_LEN`. -/
theorem framed_memOutput {f : Footprint} (s : State) (b : List Byte) (hb : b.length ≤ f.stored)
    (hf : f.dstLen = true) : Framed f s (s.memOutput b) :=
  ⟨rfl, fun _ _ => rfl, rfl, fun _ => rfl,
    fun a ha => Memory.readByte_writeBytes_outside b s.dmem s.dstOff.toNat a (by omega), fun _ => ⟨rfl, rfl, rfl⟩, rfl,
    rfl, ⟨rfl, rfl⟩, ⟨rfl, rfl⟩, rfl, fun e => by simp [hf] at e, ⟨rfl, rfl⟩⟩

/-- An error commit changes `DST_LEN` at most (60_exceptions.md R296). -/
theorem framed_errorCommit (f : Footprint) (s : State) (c : Bool) (e : ErrCode) (hf : c = true → f.dstLen = true) :
    Framed f s (s.errorCommit c e) :=
  ⟨rfl, fun _ _ => rfl, rfl, fun _ => rfl, fun _ _ => rfl, fun _ => ⟨rfl, rfl, rfl⟩, rfl, rfl, ⟨rfl, rfl⟩, ⟨rfl, rfl⟩,
    rfl, fun h => by cases c <;> simp_all [State.errorCommit], ⟨rfl, rfl⟩⟩

/-- A command whose result is an error raises it. -/
theorem raises_of_error {i : Instr} {s : State} {e : ErrCode} (h : commandResult i s = .error e) : Raises i s e := by
  refine ⟨s.errorCommit (writesOutput i) e, by rw [exec_eq, h]; rfl, failed_errorCommit _ _ _,
    framed_errorCommit _ s _ e fun hc => hc, fun hc => ?_⟩
  simp [State.errorCommit, hc]

/-- A command whose result is a success completes with it. -/
theorem exec_of_ok {i : Instr} {s u : State} {f : ResultFlags} (h : commandResult i s = .ok (u, f)) :
    exec i s = .next (u.complete f) := by rw [exec_eq, h]; rfl

end Sys2Proof.Machine
end

