-- ==== Sys2Proof/Laws/Output.lean ====
section
/-! SUPPORT. Byte strings of the state: their lengths, a read cut in two, an output read back. -/

namespace Sys2Proof.Machine

/-- A register's string is 32 bytes (10_state.md R22). -/
@[simp] theorem State.regBytes_length (s : State) (i : RegNum) : (s.regBytes i).length = 32 := be256_length _

/-- A read has the length asked for. -/
@[simp] theorem State.memRead_length (s : State) (off n : Nat) : (s.memRead off n).length = n :=
  Memory.length_readBytes _ _ _

@[simp] theorem State.srcBytes_length (s : State) : s.srcBytes.length = s.srcLen.toNat := s.memRead_length _ _

@[simp] theorem State.aadBytes_length (s : State) : s.aadBytes.length = s.aadLen.toNat := s.memRead_length _ _

/-- A read of `a + b` bytes is a read of `a` bytes and one of the `b` bytes after them. -/
theorem State.memRead_add (s : State) (off a b : Nat) :
    s.memRead off (a + b) = s.memRead off a ++ s.memRead (off + a) b := by
  simp [State.memRead, Memory.readBytes, List.range_add, Nat.add_assoc]

/-- The first byte of a range, and the rest. -/
theorem State.memRead_succ (s : State) (off n : Nat) :
    s.memRead off (n + 1) = s.dmem.readByte off :: s.memRead (off + 1) n := by
  rw [Nat.add_comm, State.memRead_add]
  rfl

/-- An output is read back at `DST_OFF`. -/
theorem State.memRead_memOutput (s : State) (b : List Byte) {n : Nat} (h : b.length = n) :
    (s.memOutput b).memRead s.dstOff.toNat n = b := by
  subst h
  exact Memory.readBytes_writeBytes _ _ _

/-- An output's length is what `DST_LEN` holds, when it fits 32 bits. -/
theorem State.dstLen_memOutput (s : State) (b : List Byte) (h : b.length < 2 ^ 32) :
    (s.memOutput b).dstLen.toNat = b.length := by
  show (BitVec.ofNat 32 b.length).toNat = _
  rw [BitVec.toNat_ofNat, Nat.mod_eq_of_lt h]

/-- The parameters in range bound the size of DMEM (00_scope.md R6). -/
theorem Params.dmemBytes_le {c : Params} (h : c.valid = true) : c.dmemBytes ≤ 2 ^ 31 := by
  simp only [Params.valid, Bool.and_eq_true, decide_eq_true_eq] at h
  exact h.1.2

/-- A 32-byte string of a register pair put back by `setDrbg` (10_state.md R41). -/
theorem State.drbg_setDrbg (s : State) (kd vd : List Byte) (hk : kd.length = 32) (hv : vd.length = 32) :
    (s.setDrbg kd vd).drbg = { kd := kd, vd := vd } := by
  show Drbg.mk (be256 (BitVec.ofNat 256 (beInt kd))) (be256 (BitVec.ofNat 256 (beInt vd))) = _
  rw [be256_ofNat_beInt _ hk, be256_ofNat_beInt _ hv]

end Sys2Proof.Machine
end

