-- ==== Sys2Proof/Laws/PerInstr.lean ====
section
/-! SUPPORT. The per-command family `EncodedRow`: the encoded word is an instance of its command's row
(spec/30_encoding.md R91), and carries the opcode byte of R94. -/

namespace Sys2Proof.Laws.EncodedRow

/-- `w & mask = match` for the encoded word, and its low byte is the opcode. -/
def Statement (i : Instr) : Prop :=
  encode i &&& formatMask i.format = (opcode i).setWidth 32 ∧ opField (encode i) = opcode i

/-- Two words are equal when their bits are, bit by bit. -/
theorem word_ext {v w : Word} (h : ∀ i : Fin 32, v.getLsbD i.val = w.getLsbD i.val) : v = w :=
  BitVec.eq_of_getLsbD_eq fun i hi => h ⟨i, hi⟩

/-- Two opcode bytes are equal when their bits are, bit by bit. -/
theorem byte_ext {v w : BitVec 8} (h : ∀ i : Fin 8, v.getLsbD i.val = w.getLsbD i.val) : v = w :=
  BitVec.eq_of_getLsbD_eq fun i hi => h ⟨i, hi⟩

/-- Format M3, every opcode. -/
theorem of_formatM3 (op : BitVec 8) (rd ra rb : RegNum) (m : BitVec 1) :
    (atBit 0 op ||| atBit 8 rd ||| atBit 12 ra ||| atBit 16 rb ||| atBit 20 m) &&& 0xFFE000FF = op.setWidth 32
      ∧ opField (atBit 0 op ||| atBit 8 rd ||| atBit 12 ra ||| atBit 16 rb ||| atBit 20 m) = op := by
  constructor
  · apply word_ext
    intro i
    fin_cases i <;> simp [atBit]
  · apply byte_ext
    intro i
    fin_cases i <;> simp [atBit, opField]

/-- Format M2, every opcode. -/
theorem of_formatM2 (op : BitVec 8) (rd ra : RegNum) (m : BitVec 1) :
    (atBit 0 op ||| atBit 8 rd ||| atBit 12 ra ||| atBit 20 m) &&& 0xFFEF00FF = op.setWidth 32 ∧ opField (atBit 0 op ||| atBit 8 rd ||| atBit 12 ra ||| atBit 20 m) = op := by
  constructor
  · apply word_ext
    intro i
    fin_cases i <;> simp [atBit]
  · apply byte_ext
    intro i
    fin_cases i <;> simp [atBit, opField]

/-- Format RD, every opcode. -/
theorem of_formatRD (op : BitVec 8) (rd : RegNum) :
    (atBit 0 op ||| atBit 8 rd) &&& 0xFFFFF0FF = op.setWidth 32 ∧ opField (atBit 0 op ||| atBit 8 rd) = op := by
  constructor
  · apply word_ext
    intro i
    fin_cases i <;> simp [atBit]
  · apply byte_ext
    intro i
    fin_cases i <;> simp [atBit, opField]

/-- Format RA, every opcode. -/
theorem of_formatRA (op : BitVec 8) (ra : RegNum) :
    (atBit 0 op ||| atBit 12 ra) &&& 0xFFFF0FFF = op.setWidth 32 ∧ opField (atBit 0 op ||| atBit 12 ra) = op := by
  constructor
  · apply word_ext
    intro i
    fin_cases i <;> simp [atBit]
  · apply byte_ext
    intro i
    fin_cases i <;> simp [atBit, opField]

/-- Format C, every opcode. -/
theorem of_formatC (op : BitVec 8) (c : BitVec 1) :
    (atBit 0 op ||| atBit 8 c) &&& 0xFFFFFEFF = op.setWidth 32 ∧ opField (atBit 0 op ||| atBit 8 c) = op := by
  constructor
  · apply word_ext
    intro i
    fin_cases i <;> simp [atBit]
  · apply byte_ext
    intro i
    fin_cases i <;> simp [atBit, opField]

theorem nop : Statement .nop := by unfold Statement; decide
theorem zeroize : Statement .zeroize := by unfold Statement; decide
theorem montMul (rd ra rb : RegNum) (msel : Modulus) : Statement (.montMul rd ra rb msel) :=
  of_formatM3 (opcode (.montMul rd ra rb msel)) rd ra rb (mselBit msel)
theorem toMont (rd ra : RegNum) (msel : Modulus) : Statement (.toMont rd ra msel) :=
  of_formatM2 (opcode (.toMont rd ra msel)) rd ra (mselBit msel)
theorem fromMont (rd ra : RegNum) (msel : Modulus) : Statement (.fromMont rd ra msel) :=
  of_formatM2 (opcode (.fromMont rd ra msel)) rd ra (mselBit msel)
theorem modMul (rd ra rb : RegNum) (msel : Modulus) : Statement (.modMul rd ra rb msel) :=
  of_formatM3 (opcode (.modMul rd ra rb msel)) rd ra rb (mselBit msel)
theorem modAdd (rd ra rb : RegNum) (msel : Modulus) : Statement (.modAdd rd ra rb msel) :=
  of_formatM3 (opcode (.modAdd rd ra rb msel)) rd ra rb (mselBit msel)
theorem modSub (rd ra rb : RegNum) (msel : Modulus) : Statement (.modSub rd ra rb msel) :=
  of_formatM3 (opcode (.modSub rd ra rb msel)) rd ra rb (mselBit msel)
theorem modInv (rd ra : RegNum) (msel : Modulus) : Statement (.modInv rd ra msel) :=
  of_formatM2 (opcode (.modInv rd ra msel)) rd ra (mselBit msel)
theorem modRed (rd ra : RegNum) (msel : Modulus) : Statement (.modRed rd ra msel) :=
  of_formatM2 (opcode (.modRed rd ra msel)) rd ra (mselBit msel)
theorem pmulG : Statement .pmulG := by unfold Statement; decide
theorem pmul : Statement .pmul := by unfold Statement; decide
theorem derive : Statement .derive := by unfold Statement; decide
theorem pkEncode (comp : PointForm) : Statement (.pkEncode comp) := of_formatC 0x23 (compBit comp)
theorem pkDecode : Statement .pkDecode := by unfold Statement; decide
theorem nonceFirst : Statement .nonceFirst := by unfold Statement; decide
theorem nonceNext : Statement .nonceNext := by unfold Statement; decide
theorem signK : Statement .signK := by unfold Statement; decide
theorem ecdsaSign : Statement .ecdsaSign := by unfold Statement; decide
theorem ecdsaVerify : Statement .ecdsaVerify := by unfold Statement; decide
theorem keccakF1600 : Statement .keccakF1600 := by unfold Statement; decide
theorem keccakInit : Statement .keccakInit := by unfold Statement; decide
theorem keccakAbsorb : Statement .keccakAbsorb := by unfold Statement; decide
theorem keccakFinal (rd : RegNum) : Statement (.keccakFinal rd) := of_formatRD (opcode (.keccakFinal rd)) rd
theorem keccak256 (rd : RegNum) : Statement (.keccak256 rd) := of_formatRD (opcode (.keccak256 rd)) rd
theorem aes256Enc (ra : RegNum) : Statement (.aes256Enc ra) := of_formatRA (opcode (.aes256Enc ra)) ra
theorem gcmEnc (ra : RegNum) : Statement (.gcmEnc ra) := of_formatRA (opcode (.gcmEnc ra)) ra
theorem gcmDec (ra : RegNum) : Statement (.gcmDec ra) := of_formatRA (opcode (.gcmDec ra)) ra

end Sys2Proof.Laws.EncodedRow

namespace Sys2Proof.Laws

/-- Every command is well formed: no rule restricts a register number beyond its four bits
(spec/30_encoding.md R92). -/
theorem instr_wellFormed (i : Instr) : i.wellFormed = true := by
  simp only [Instr.wellFormed, List.all_eq_true, decide_eq_true_eq]
  intro r _
  exact r.isLt

end Sys2Proof.Laws
end

