-- ==== Sys2Proof/Machine/Assembler.lean ====
section
/-! DEFINITION. The assembler syntax of the hardware commands (spec/30_encoding.md R98): a command from its
text, and its text. The word is `encode` of the command. -/

namespace Sys2Proof.Machine

/-- The mnemonics (30_encoding.md R94, R98). -/
def mnemonicText : Instr → String
  | .nop => "NOP"
  | .zeroize => "ZEROIZE"
  | .montMul .. => "MONT_MUL"
  | .toMont .. => "TO_MONT"
  | .fromMont .. => "FROM_MONT"
  | .modMul .. => "MOD_MUL"
  | .modAdd .. => "MOD_ADD"
  | .modSub .. => "MOD_SUB"
  | .modInv .. => "MOD_INV"
  | .modRed .. => "MOD_RED"
  | .pmulG => "PMUL_G"
  | .pmul => "PMUL"
  | .derive => "DERIVE"
  | .pkEncode _ => "PK_ENCODE"
  | .pkDecode => "PK_DECODE"
  | .nonceFirst => "NONCE_FIRST"
  | .nonceNext => "NONCE_NEXT"
  | .signK => "SIGN_K"
  | .ecdsaSign => "ECDSA_SIGN"
  | .ecdsaVerify => "ECDSA_VERIFY"
  | .keccakF1600 => "KECCAK_F1600"
  | .keccakInit => "KECCAK_INIT"
  | .keccakAbsorb => "KECCAK_ABSORB"
  | .keccakFinal _ => "KECCAK_FINAL"
  | .keccak256 _ => "KECCAK256"
  | .aes256Enc _ => "AES256_ENC"
  | .gcmEnc _ => "GCM_ENC"
  | .gcmDec _ => "GCM_DEC"

/-- The names of the registers: `R0` to `R15` and the aliases (10_state.md R23, 30_encoding.md R98). -/
def regNames : List (String × RegNum) :=
  [("R0", 0), ("R1", 1), ("R2", 2), ("R3", 3), ("R4", 4), ("R5", 5), ("R6", 6), ("R7", 7)] ++
  [("R8", 8), ("R9", 9), ("R10", 10), ("R11", 11), ("R12", 12), ("R13", 13), ("R14", 14), ("R15", 15)] ++
  [("D", 0), ("Z", 1), ("K", 2), ("SIGR", 3), ("SIGS", 4), ("QX", 5), ("QY", 6), ("PX", 8), ("PY", 9)]

/-- The name `R0` to `R15` of a register. -/
def regText (r : RegNum) : String := "R" ++ toString r.toNat

/-- The modulus operand, `P` or `N` (R98). -/
def modulusText : Modulus → String
  | .fieldP => "P"
  | .orderN => "N"

/-- The operands of a command as text, in the order destination, sources, modulus (R98). -/
def operandTexts : Instr → List String
  | .montMul rd ra rb m | .modMul rd ra rb m | .modAdd rd ra rb m | .modSub rd ra rb m =>
      [regText rd, regText ra, regText rb, modulusText m]
  | .toMont rd ra m | .fromMont rd ra m | .modInv rd ra m | .modRed rd ra m =>
      [regText rd, regText ra, modulusText m]
  | .keccakFinal rd | .keccak256 rd => [regText rd]
  | .aes256Enc ra | .gcmEnc ra | .gcmDec ra => [regText ra]
  | .pkEncode .compressed => ["C"]
  | .pkEncode .uncompressed => ["U"]
  | .nop | .zeroize | .pmulG | .pmul | .derive | .pkDecode | .nonceFirst | .nonceNext | .signK
  | .ecdsaSign | .ecdsaVerify | .keccakF1600 | .keccakInit | .keccakAbsorb => []

/-- A command written out (R98): the mnemonic, then its operands, comma separated. -/
def commandText (i : Instr) : String :=
  match operandTexts i with
  | [] => mnemonicText i
  | ops => mnemonicText i ++ " " ++ String.intercalate ", " ops

/-- Pieces of a text between commas. -/
def splitCommas (text : List Char) : List (List Char) :=
  match text with
  | [] => [[]]
  | c :: rest =>
    if c = ',' then [] :: splitCommas rest
    else
      match splitCommas rest with
      | [] => [[c]]
      | piece :: more => (c :: piece) :: more

/-- A text without the spaces around it. -/
def trimSpaces (text : List Char) : List Char :=
  ((text.dropWhile (· == ' ')).reverse.dropWhile (· == ' ')).reverse

/-- A register operand by number or alias (R98). -/
def parseReg (t : String) : Option RegNum := (regNames.find? fun p => p.1 == t).map (·.2)

/-- The modulus operand (R98). -/
def parseModulus (t : String) : Option Modulus :=
  if t = "P" then some .fieldP else if t = "N" then some .orderN else none

/-- The commands without operands (R98). -/
def plainCommands : List Instr :=
  [.nop, .zeroize, .pmulG, .pmul, .derive, .pkDecode, .nonceFirst, .nonceNext, .signK, .ecdsaSign,
   .ecdsaVerify, .keccakF1600, .keccakInit, .keccakAbsorb]

/-- A command of format M3 by its mnemonic. -/
def parseM3 (m : String) (rd ra rb : RegNum) (ms : Modulus) : Option Instr :=
  [Instr.montMul rd ra rb ms, .modMul rd ra rb ms, .modAdd rd ra rb ms, .modSub rd ra rb ms].find?
    fun i => mnemonicText i == m

/-- A command of format M2 by its mnemonic. -/
def parseM2 (m : String) (rd ra : RegNum) (ms : Modulus) : Option Instr :=
  [Instr.toMont rd ra ms, .fromMont rd ra ms, .modInv rd ra ms, .modRed rd ra ms].find?
    fun i => mnemonicText i == m

/-- A command of format RD or RA by its mnemonic. -/
def parseOneReg (m : String) (r : RegNum) : Option Instr :=
  [Instr.keccakFinal r, .keccak256 r, .aes256Enc r, .gcmEnc r, .gcmDec r].find? fun i => mnemonicText i == m

/-- A command from its mnemonic and operands (R98). -/
def parseCommand (m : String) (ops : List String) : Option Instr :=
  match ops with
  | [] => plainCommands.find? fun i => mnemonicText i == m
  | [a] =>
    if m = "PK_ENCODE" then
      if a = "C" then some (.pkEncode .compressed) else if a = "U" then some (.pkEncode .uncompressed) else none
    else (parseReg a).bind (parseOneReg m)
  | [a, b, c] =>
    match parseReg a, parseReg b, parseModulus c with
    | some rd, some ra, some ms => parseM2 m rd ra ms
    | _, _, _ => none
  | [a, b, c, d] =>
    match parseReg a, parseReg b, parseReg c, parseModulus d with
    | some rd, some ra, some rb, some ms => parseM3 m rd ra rb ms
    | _, _, _, _ => none
  | _ => none

/-- A command from its text, not case sensitive (30_encoding.md R98). Spaces around an operand are not counted
(log 11). -/
def assemble (text : String) : Option Instr :=
  let chars := trimSpaces (text.toList.map Char.toUpper)
  let mnemonic := String.ofList (chars.takeWhile (· != ' '))
  let operands := trimSpaces (chars.dropWhile (· != ' '))
  if operands.isEmpty then parseCommand mnemonic []
  else parseCommand mnemonic ((splitCommas operands).map fun t => String.ofList (trimSpaces t))

end Sys2Proof.Machine
end

