-- ==== Sys2Proof/Tests/Slice0.lean ====
section
/-! SUPPORT. The model's own tests. Expected values are the spec's (the rule or the vector `T<n>` of
95_test_vectors.md is named at each) or are counted by hand from the rule named. The last part holds a witness for
the hypotheses of each obligation that has some. -/

namespace Sys2Proof.Tests

set_option Elab.async false

open Sys2Proof.Machine

/-! Helpers: small states, and a check of one command's outcome. -/

/-- The reset state with some general registers set. -/
def withRegs (rs : List (RegNum × Nat)) : State := rs.foldl (fun s p => s.setRegNat p.1 p.2) State.reset

/-- Descriptors: source, associated data, destination. -/
def ranges (s : State) (srcOff srcLen aadOff aadLen dstOff : Nat) : State :=
  { s with
    srcOff := BitVec.ofNat 32 srcOff
    srcLen := BitVec.ofNat 32 srcLen
    aadOff := BitVec.ofNat 32 aadOff
    aadLen := BitVec.ofNat 32 aadLen
    dstOff := BitVec.ofNat 32 dstOff }

/-- The state after a command; a stop would give the reset state. -/
def after (i : Instr) (s : State) : State :=
  match exec i s with
  | .next t => t
  | .fault _ => State.reset
  | .refused _ => State.reset

/-- A command answers a next state that passes a check. -/
def gives (i : Instr) (s : State) (p : State → Bool) : Bool :=
  match exec i s with
  | .next t => p t
  | .fault _ => false
  | .refused _ => false

/-- A completion without error whose `RESULT` reads `flags`, with one register at a value. -/
def regIs (i : Instr) (s : State) (flags : Word) (r : RegNum) (v : Nat) : Bool :=
  gives i s fun t => t.status == { busy := false, done := true, err := 0 } && t.resultWord == flags && t.regNat r == v

/-- A completion whose `STATUS` reads `st`. -/
def statusIs (i : Instr) (s : State) (st : Word) : Bool := gives i s fun t => t.statusWord == st

/-- The state after writing a byte string to DMEM. -/
def holding (s : State) (off : Nat) (b : List Byte) : State := s.memWrite off b

/-- The bytes of a big-endian number. -/
def bytes (k v : Nat) : List Byte := be k v

/-! Ill-formed terms, each refused by its check. No term of `Instr` is ill formed (R92: all field values are
legal); what can be are words and parameters. -/

theorem test_word_reserved_opcode : wordWellFormed 0x00000070 = false := by decide +kernel
theorem test_word_stray_format_z : wordWellFormed 0x00000120 = false := by decide +kernel
theorem test_word_stray_format_m3 : wordWellFormed 0x00200010 = false := by decide +kernel
theorem test_word_stray_format_m2 : wordWellFormed 0x00010011 = false := by decide +kernel
theorem test_word_stray_format_rd : wordWellFormed 0x00001053 = false := by decide +kernel
theorem test_word_stray_format_ra : wordWellFormed 0x00000160 = false := by decide +kernel
theorem test_word_stray_format_c : wordWellFormed 0x00000223 = false := by decide +kernel
theorem test_word_good : wordWellFormed 0x001FFF10 = true := by decide +kernel
theorem test_params_size_not_multiple : Params.valid { dmemBytes := 258, nonceTries := 16 } = false := by decide
theorem test_params_size_small : Params.valid { dmemBytes := 252, nonceTries := 16 } = false := by decide
theorem test_params_size_large : Params.valid { dmemBytes := 2 ^ 31 + 4, nonceTries := 16 } = false := by decide
theorem test_params_no_tries : Params.valid { dmemBytes := 4096, nonceTries := 0 } = false := by decide
theorem test_params_defaults : Config.defaultParams.valid = true := by decide

/-! Decoding: words written out from R91, R94 and R98 (T16 and the examples of files 40 to 47). -/

theorem test_decode_nop : decode 0x00000000 = .ok .nop := by decide +kernel
theorem test_decode_zeroize : decode 0x00000001 = .ok .zeroize := by decide +kernel
theorem test_decode_mont_mul : decode 0x00010210 = .ok (.montMul 2 0 1 .fieldP) := by decide +kernel
theorem test_decode_to_mont : decode 0x00103311 = .ok (.toMont 3 3 .orderN) := by decide +kernel
theorem test_decode_from_mont : decode 0x0000EE12 = .ok (.fromMont 14 14 .fieldP) := by decide +kernel
theorem test_decode_mod_mul : decode 0x001BAC13 = .ok (.modMul 12 10 11 .orderN) := by decide +kernel
theorem test_decode_mod_add : decode 0x000BAA14 = .ok (.modAdd 10 10 11 .fieldP) := by decide +kernel
theorem test_decode_mod_sub : decode 0x000ACD15 = .ok (.modSub 13 12 10 .fieldP) := by decide +kernel
theorem test_decode_mod_inv : decode 0x0000FF16 = .ok (.modInv 15 15 .fieldP) := by decide +kernel
theorem test_decode_mod_red : decode 0x00101017 = .ok (.modRed 0 1 .orderN) := by decide +kernel
theorem test_decode_pmul_g : decode 0x00000020 = .ok .pmulG := by decide +kernel
theorem test_decode_pmul : decode 0x00000021 = .ok .pmul := by decide +kernel
theorem test_decode_derive : decode 0x00000022 = .ok .derive := by decide +kernel
theorem test_decode_pk_encode_u : decode 0x00000023 = .ok (.pkEncode .uncompressed) := by decide +kernel
theorem test_decode_pk_encode_c : decode 0x00000123 = .ok (.pkEncode .compressed) := by decide +kernel
theorem test_decode_pk_decode : decode 0x00000024 = .ok .pkDecode := by decide +kernel
theorem test_decode_nonce_first : decode 0x00000030 = .ok .nonceFirst := by decide +kernel
theorem test_decode_nonce_next : decode 0x00000031 = .ok .nonceNext := by decide +kernel
theorem test_decode_sign_k : decode 0x00000038 = .ok .signK := by decide +kernel
theorem test_decode_ecdsa_sign : decode 0x00000039 = .ok .ecdsaSign := by decide +kernel
theorem test_decode_ecdsa_verify : decode 0x00000040 = .ok .ecdsaVerify := by decide +kernel
theorem test_decode_keccak_f1600 : decode 0x00000050 = .ok .keccakF1600 := by decide +kernel
theorem test_decode_keccak_init : decode 0x00000051 = .ok .keccakInit := by decide +kernel
theorem test_decode_keccak_absorb : decode 0x00000052 = .ok .keccakAbsorb := by decide +kernel
theorem test_decode_keccak_final : decode 0x00000F53 = .ok (.keccakFinal 15) := by decide +kernel
theorem test_decode_keccak256 : decode 0x00000154 = .ok (.keccak256 1) := by decide +kernel
theorem test_decode_aes256_enc : decode 0x0000A060 = .ok (.aes256Enc 10) := by decide +kernel
theorem test_decode_gcm_enc : decode 0x0000A061 = .ok (.gcmEnc 10) := by decide +kernel
theorem test_decode_gcm_dec : decode 0x0000A062 = .ok (.gcmDec 10) := by decide +kernel

/-- The table's numbering: the word itself, zero above the row's bits. -/
theorem test_decode_table_word : decodeTableWord 32 0x0000A062 = some (.gcmDec 10) ∧
    decodeTableWord 8 0x20 = some .pmulG ∧ decodeTableWord 32 0x70 = none := by decide +kernel

/-- T17: words that do not decode. -/
theorem test_illegal_words : (([0x00000002, 0x0000000F, 0x00000018, 0x00000025, 0x00000032, 0x0000003A, 0x00000041] ++
    [0x00000055, 0x00000063, 0x00000070, 0x000000FF, 0xFFFFFFFF, 0x00000100, 0x00000120, 0x00000223, 0x00010011] ++
    [0x00200010, 0x80000000, 0x00001053, 0x00000160, 0x00100054] : List Word).all fun w => !wordWellFormed w &&
      decodeTableWord 32 w.toNat == none) = true := by decide +kernel

/-- R98: the assembler, not case sensitive, with aliases. -/
theorem test_assemble : (assemble "mod_mul PX, QX, qy, N").map encode = some 0x00165813 ∧
    (assemble "PK_ENCODE C").map encode = some 0x00000123 ∧ assemble "MOD_MUL R16, R0, R0, P" = none := by
  decide +kernel

/-! The host port (T10 to T15). -/

theorem test_reset_reads : State.reset.hostRead32 0x000 = .okRead 0x42514331 ∧
    State.reset.hostRead32 0x004 = .okRead 0x00070000 ∧ State.reset.hostRead32 0x008 = .okRead 2 ∧
    State.reset.hostRead32 0x00C = .okRead 0 ∧ State.reset.hostRead32 0x2FC = .okRead 0 ∧
    State.reset.hostRead32 0x4C4 = .okRead 0 ∧ State.reset.hostRead32 0x1FFC = .okRead 0 := by decide +kernel

theorem test_bus_errors : ([0x002, 0x101, 0x018, 0x01C, 0x038, 0x04C, 0x0FC, 0x300, 0x3FC, 0x4C8, 0xFFC, 0x2000].all
    fun a => State.reset.hostRead32 a == .busErr && (State.reset.hostWrite32 a 1).2 == .busErr) = true := by decide +kernel

theorem test_register_word_order : (State.reset.wr 0x100 0x11223344).reg 0 = 0x11223344#256 <<< 224 ∧
    ((State.reset.wr 0x100 0x11223344).wr 0x11C 1).reg 0 = 0x11223344#256 <<< 224 ||| 1 ∧
    (State.reset.wr 0x2E0 0xFFFFFFFF).reg 15 = 0xFFFFFFFF#256 <<< 224 := by decide +kernel

theorem test_byte_order : (State.reset.wr 0x1000 0xAABBCCDD).memRead 0 5 = [0xAA, 0xBB, 0xCC, 0xDD, 0] ∧
    (State.reset.wr 0x040 0xA0A1A2A3).iv.toList.take 5 = [0xA0, 0xA1, 0xA2, 0xA3, 0] := by decide +kernel

theorem test_read_only : State.reset.hostWrite32 0x034 7 = (State.reset, .okWrite) := rfl

theorem test_control_words :
    (State.reset.wr 0x008 0xFFFFFFFF).ctrlWord = 3 ∧
    ((after .nop State.reset).wr 0x00C 0xFFFFFFFD).statusWord = 2 ∧
    ((after .nop State.reset).wr 0x00C 2).statusWord = 0 := by decide +kernel

/-- T15: `NOP` issued over `R[0]` with first word 5, before the engine's step. -/
def inFlight : State := (State.reset.wr 0x100 5).wr 0x010 0

theorem test_busy_is_frozen : inFlight.hostRead32 0x00C = .okRead 1 ∧ inFlight.hostRead32 0x100 = .okRead 0 ∧
    inFlight.hostRead32 0x008 = .okRead 2 ∧ inFlight.hostRead32 0x002 = .busErr := by decide +kernel

theorem test_busy_drops_writes : inFlight.hostWrite32 0x100 9 = (inFlight, .okWrite) ∧
    inFlight.hostWrite32 0x010 0x22 = (inFlight, .okWrite) := ⟨rfl, rfl⟩

theorem test_completion_is_seen : inFlight.waitIdle.hostRead32 0x00C = .okRead 2 ∧
    inFlight.waitIdle.hostRead32 0x100 = .okRead 5 ∧ inFlight.waitIdle.irq = false ∧
    (inFlight.waitIdle.wr 0x008 3).irq = true ∧ ((inFlight.waitIdle.wr 0x008 3).wr 0x00C 2).irq = false := by
  decide +kernel

/-- T83: reset while a command is in flight. -/
theorem test_reset_while_busy : step { State.reset.issue 0x39 with schedule := [.reset] } = .next State.reset := rfl

/-- R291: an illegal word as a step. -/
theorem test_step_illegal_word : (match step (State.reset.withFetchWord 32 0x00000120) with
    | .next t => t.statusWord == 0x00001006 && t.cmd == 0x120
    | .fault _ => false
    | .refused _ => false) = true := by decide +kernel

/-! System commands (T80, T81). -/

theorem test_nop : after .nop State.reset = State.reset.complete noFlags := rfl

theorem test_zeroize : gives .zeroize ((holding (withRegs [(0, 1)]) 0 [0xAA]).setDrbg [1] [2])
    (fun t => t.regNat 0 == 0 && t.dmem == [] && t.statusWord == 2 && t.drbgK == 0 && t.ctrlWord == 2) = true := by
  decide +kernel

/-! Modular arithmetic (T20 to T25). -/

/-- The constants of 00_scope.md R12, written here from the spec. -/
def specP : Nat := 0xFFFFFFFFFFFFFFFFFFFFFFFFFFFFFFFFFFFFFFFFFFFFFFFFFFFFFFFEFFFFFC2F
def specN : Nat := 0xFFFFFFFFFFFFFFFFFFFFFFFFFFFFFFFEBAAEDCE6AF48A03BBFD25E8CD0364141
def specGx : Nat := 0x79BE667EF9DCBBAC55A06295CE870B07029BFCDB2DCE28D959F2815B16F81798
def specGy : Nat := 0x483ADA7726A3C4655DA4FBFC0E1108A8FD17B448A68554199C47D08FFB10D4B8

theorem test_mont_mul_p : regIs (.montMul 2 0 1 .fieldP) (withRegs [(0, 2), (1, 3)]) 0 2
    0xBA6E961E7FF51599A9A8908F83B04C4A6C2CD7F928DBC21B115036B23270A640 = true := by decide +kernel
theorem test_mont_mul_n : regIs (.montMul 2 0 1 .orderN) (withRegs [(0, 2), (1, 3)]) 0 2
    0x1B7336505B7D9D7538FB2486EEDE0435C0FCA9859173284046D2F6B4F27F3A3F = true := by decide +kernel
theorem test_to_mont_p : regIs (.toMont 1 0 .fieldP) (withRegs [(0, 5)]) 0 1 0x500001315 = true := by decide +kernel
theorem test_to_mont_n : regIs (.toMont 0 0 .orderN) (withRegs [(0, 5)]) 0 0
    0x65A95AF7E9394DED540E4273FEEF0B9BB = true := by decide +kernel
theorem test_from_mont_p : regIs (.fromMont 1 0 .fieldP) (withRegs [(0, 0x1000003D1)]) 0 1 1 = true := by decide +kernel
theorem test_from_mont_n : regIs (.fromMont 1 0 .orderN) (withRegs [(0, 1)]) 0 1
    0xD9E8890D6494EF93897F30C127CFAB5D3BBBD4567FA50C3C80FD22938097C016 = true := by decide +kernel
theorem test_mod_mul_p : regIs (.modMul 2 0 1 .fieldP) (withRegs [(0, specGx), (1, specGy)]) 0 2
    0xFD3DC529C6EB60FB9D166034CF3C1A5A72324AA9DFD3428A56D7E1CE0179FD9B = true := by decide +kernel
theorem test_mod_mul_same_register : regIs (.modMul 0 0 0 .fieldP) (withRegs [(0, 3)]) 0 0 9 = true := by decide +kernel
theorem test_mod_add_wraps : regIs (.modAdd 2 0 1 .orderN) (withRegs [(0, specN - 1), (1, 1)]) 0 2 0 = true := by
  decide +kernel
theorem test_mod_add_range : gives (.modAdd 2 0 1 .fieldP) (withRegs [(0, specP), (2, 7)])
    (fun t => t.statusWord == 0x00001206 && t.regNat 2 == 7) = true := by decide +kernel
theorem test_mod_sub_p : regIs (.modSub 2 0 1 .fieldP) (withRegs [(1, 1)]) 0 2 (specP - 1) = true := by decide +kernel
theorem test_mod_sub_order : regIs (.modSub 2 0 1 .orderN) (withRegs [(0, 9), (1, 4)]) 0 2 5 = true := by decide +kernel
theorem test_mod_inv_n : regIs (.modInv 1 0 .orderN) (withRegs [(0, 3)]) 0 1
    0xAAAAAAAAAAAAAAAAAAAAAAAAAAAAAAA9D1C9E899CA306AD27FE1945DE0242B81 = true := by decide +kernel
theorem test_mod_inv_zero : statusIs (.modInv 1 0 .orderN) State.reset 0x00001206 = true := by decide +kernel
theorem test_mod_red_n : regIs (.modRed 1 0 .orderN) (withRegs [(0, specP)]) 0 1
    0x14551231950B75FC4402DA1722FC9BAEE = true := by decide +kernel
theorem test_mod_red_p : regIs (.modRed 1 0 .fieldP) (withRegs [(0, specN)]) 0 1 specN = true := by decide +kernel

/-! Point commands (T26 to T29). -/

theorem test_pmul_g_zero : regIs .pmulG (withRegs [(8, 5)]) 2 8 0 = true := by decide +kernel
theorem test_pmul_g_two : gives .pmulG (withRegs [(2, 2)]) (fun t => t.statusWord == 2 && t.resultWord == 0 &&
    t.regNat 8 == 0xC6047F9441ED7D6D3045406E95C07CD85C778E4B8CEF3CA7ABAC09B95C709EE5 &&
    t.regNat 9 == 0x1AE168FEA63DC339A3C58419466CEAEEF7F632653266D0E1236431A950CFE52A) = true := by decide +kernel
theorem test_pmul : gives .pmul
    (withRegs [(2, 3), (5, 0xC6047F9441ED7D6D3045406E95C07CD85C778E4B8CEF3CA7ABAC09B95C709EE5),
      (6, 0x1AE168FEA63DC339A3C58419466CEAEEF7F632653266D0E1236431A950CFE52A)])
    (fun t => t.statusWord == 2 && t.resultWord == 4 &&
      t.regNat 8 == 0xFFF97BD5755EEEA420453A14355235D382F6472F8568A18B2F057A1460297556 &&
      t.regNat 9 == 0xAE12777AACFBB620F3BE96017F45C560DE80F0F6518FE4A03C870C36B075F297) = true := by decide +kernel
theorem test_pmul_no_point : statusIs .pmul (withRegs [(5, specGx), (6, specGy + 1)]) 0x00000306 = true := by
  decide +kernel
theorem test_derive_three : gives .derive (withRegs [(0, 3)]) (fun t => t.statusWord == 2 && t.resultWord == 0 &&
    t.regNat 5 == 0xF9308A019258C31049344F85F89D5229B531C845836F99B08601F113BCE036F9 &&
    t.regNat 6 == 0x388F7B0F632DE8140FE337E62A37F3566500A99934C2231B6CB9FD7584B8E672) = true := by decide +kernel
theorem test_derive_order : statusIs .derive (withRegs [(0, specN)]) 0x00000206 = true := by decide +kernel

/-- `(R[5], R[6]) = G`, and bytes 33 to 35 of DMEM `aa bb cc`. -/
def atG : State := holding (withRegs [(5, specGx), (6, specGy)]) 33 [0xAA, 0xBB, 0xCC]

theorem test_pk_encode_c : gives (.pkEncode .compressed) atG (fun t => t.statusWord == 2 && t.dstLen == 33 &&
    t.memRead 0 36 == (0x02 : Byte) :: (bytes 32 specGx ++ [0xAA, 0xBB, 0xCC])) = true := by decide +kernel
theorem test_pk_encode_u : gives (.pkEncode .uncompressed) atG (fun t => t.statusWord == 2 && t.dstLen == 65 &&
    t.memRead 0 66 == (0x04 : Byte) :: (bytes 32 specGx ++ bytes 32 specGy ++ [0])) = true := by decide +kernel

/-- `03` and `Gx` at offset 0. -/
def oddG : State := ranges (holding State.reset 0 (0x03 :: bytes 32 specGx)) 0 33 0 0 0

theorem test_pk_decode_odd : gives .pkDecode oddG (fun t => t.statusWord == 2 && t.resultWord == 4 &&
    t.regNat 5 == specGx && t.regNat 6 == specP - specGy) = true := by decide +kernel
theorem test_pk_decode_no_point : statusIs .pkDecode (ranges (holding State.reset 0 (0x02 :: bytes 32 5)) 0 33 0 0 0)
    0x00000306 = true := by decide +kernel

/-! Nonce (T30 to T35). -/

/-- The digest of T30, and key 1. -/
def specZ : Nat := 0xA0DC65FFCA799873CBEA0AC274015B9526505DAAAED385155425F7337704883E

/-- The generator of T30. -/
def specGen : Drbg :=
  { kd := bytes 32 0xf457c01688026ee0b9236e5c7ff1478007ad0b697855f592efa9468ecf0c1f86
    vd := bytes 32 0xa196437a8f26fbc9e519e4fd4b5d10d62e6a5306c98ca431b96131f403bff4ae }

/-- The generator of T31. -/
def specGen1 : Drbg :=
  { kd := bytes 32 0xf457c01688026ee0b9236e5c7ff1478007ad0b697855f592efa9468ecf0c1f86
    vd := bytes 32 0x8f8a276c19f4149656b280621e358cce24f5f52542772691ee69063b74f15d15 }

theorem test_sha256_abc : sha256 [0x61, 0x62, 0x63] =
    bytes 32 0xba7816bf8f01cfea414140de5dae2223b00361a396177a9cb410ff61f20015ad := by decide +kernel
theorem test_drbg_init : drbgInit 1 specZ = specGen := by decide +kernel
theorem test_nonce_search : nonceSearch 16 specGen = .ok { gen := specGen1, left := 15 } := by decide +kernel

/-- The registers of T31. -/
def nonceInputs : State := withRegs [(0, 1), (1, specZ)]

theorem nonceInputs_d : nonceInputs.regNat regD = 1 := by decide +kernel
theorem nonceInputs_z : nonceInputs.regNat regZ = specZ := by decide +kernel

theorem nonceFirst_result : nonceFirstCommand nonceInputs = .ok (nonceInputs.putNonce specGen1, noFlags) := by
  have hv : scalarValid 1 = true := by decide +kernel
  have hn : nonceInputs.params.nonceTries = 16 := rfl
  simp only [nonceFirstCommand, nonceInputs_d, nonceInputs_z, hv, hn, test_drbg_init, test_nonce_search, if_true]

theorem test_nonce_first : exec .nonceFirst nonceInputs = .next ((nonceInputs.putNonce specGen1).complete noFlags) := by
  rw [exec_eq]
  show Host.Outcome.next (nonceInputs.commit false (nonceFirstCommand nonceInputs)) = _
  rw [nonceFirst_result]
  rfl

theorem test_nonce_first_values : (nonceInputs.putNonce specGen1).regNat 2 =
      0x8F8A276C19F4149656B280621E358CCE24F5F52542772691EE69063B74F15D15 ∧
    ((nonceInputs.putNonce specGen1).complete noFlags).statusWord = 0x0000000A := by decide +kernel

theorem test_nonce_next : gives .nonceNext (State.reset.setDrbg specGen1.kd specGen1.vd) (fun t => t.regNat 2 ==
    0xF15FB763A6BCBBACBDE0A6A9AE2A02482BD92F3E75A50B357BD551DDD771045E) = true := by decide +kernel
theorem test_nonce_next_sequence : statusIs .nonceNext State.reset 0x00001506 = true := by decide +kernel

/-! Signing (T40, T46, T47). -/

/-- T47's second case, with and without `LOWS`. -/
def signInputs (lows : Bool) : State :=
  { withRegs [(0, 2), (1, 5), (2, 3)] with ctrl := { ie := false, lows := lows } }

theorem test_sign_k : gives .signK (signInputs false) (fun t => t.regNat 4 ==
    0xA6205C010C3B2CB58622DFAEA5BE36C678CBDAD9024A6675AEABF60D289579FD) = true := by decide +kernel
theorem test_sign_k_lows : gives .signK (signInputs true) (fun t => t.regNat 4 ==
    0x59DFA3FEF3C4D34A79DD20515A41C93841E3020DACFE39C61126687FA7A0C744) = true := by decide +kernel

/-- T40. -/
def specSigR : Nat := 0x934B1EA10A4B3C1757E2B0C017D0B6143CE3C9A7E6A4A49860D7A6AB210EE3D8
def specSigS : Nat := 0x2442CE9D2B916064108014783E923EC36B49743E2FFA1C4496F01A512AAFD9E5

/-- A point with a given x. -/
def hasX (q : Point) (x : Nat) : Bool :=
  match q with
  | .inf => false
  | .affine x' _ => x' == x

theorem eq_of_hasX {q : Point} {x : Nat} (h : hasX q x = true) : ∃ y, q = .affine x y := by
  cases q with
  | inf => exact absurd h (by simp [hasX])
  | affine x' y => exact ⟨y, by rw [eq_of_beq h]⟩

theorem signCore_of_point {d z k x y : Nat} {lows : Bool} (h : ladder k basePoint = .affine x y) :
    signCore d z k lows =
      (if x % groupOrder = 0 then none
      else if mulm (invm k groupOrder) ((z + x % groupOrder * d) % groupOrder) groupOrder = 0 then none
      else some (x % groupOrder,
        lowS lows (mulm (invm k groupOrder) ((z + x % groupOrder * d) % groupOrder) groupOrder))) := by
  simp only [signCore, h]

theorem signLoop_of_first {turns budget d z k : Nat} {lows : Bool} {g : Drbg} {draw : NonceDraw} {rs : Nat × Nat}
    (hd : nonceSearch budget g = .ok draw) (hk : draw.gen.candidate = k) (hs : signCore d z k lows = some rs) :
    signLoop (turns + 1) budget d z lows g = .ok rs := by
  rw [signLoop, hd]
  simp only [hk, hs]

/-- The x of the point of T31's nonce is T40's `r`. -/
theorem test_nonce_point : hasX (ladder 0x8F8A276C19F4149656B280621E358CCE24F5F52542772691EE69063B74F15D15 basePoint)
    specSigR = true := by decide +kernel

theorem test_sign_core : signCore 1 specZ 0x8F8A276C19F4149656B280621E358CCE24F5F52542772691EE69063B74F15D15 true =
    some (specSigR, specSigS) := by
  obtain ⟨y, hy⟩ := eq_of_hasX test_nonce_point
  rw [signCore_of_point hy]
  decide +kernel

theorem specGen1_candidate : specGen1.candidate =
    0x8F8A276C19F4149656B280621E358CCE24F5F52542772691EE69063B74F15D15 := by decide +kernel

theorem test_sign_loop : signLoop 16 16 1 specZ true specGen = .ok (specSigR, specSigS) :=
  signLoop_of_first test_nonce_search specGen1_candidate test_sign_core

theorem ecdsaSign_result : ecdsaSignCommand nonceInputs =
    .ok (nonceInputs.putSignature (specSigR, specSigS), noFlags) := by
  have hv : scalarValid 1 = true := by decide +kernel
  have hn : nonceInputs.params.nonceTries = 16 := rfl
  have hl : nonceInputs.ctrl.lows = true := rfl
  simp only [ecdsaSignCommand, nonceInputs_d, nonceInputs_z, hv, hn, hl, test_drbg_init, test_sign_loop, if_true]

theorem test_ecdsa_sign : exec .ecdsaSign nonceInputs =
    .next ((nonceInputs.putSignature (specSigR, specSigS)).complete noFlags) := by
  rw [exec_eq]
  show Host.Outcome.next (nonceInputs.commit false (ecdsaSignCommand nonceInputs)) = _
  rw [ecdsaSign_result]
  rfl

theorem test_ecdsa_sign_key : statusIs .ecdsaSign (withRegs [(0, specN)]) 0x00000206 = true := by decide +kernel

/-! Verifying (T52, and a case counted by hand from R220). -/

/-- `Q = G`, `r = s = x(3G)` (T26), `z = 2 * r mod n`: by R220 `u1 = 2`, `u2 = 1`, the sum is `3G`. -/
def verifyInputs : State :=
  withRegs [(1, 2 * 0xF9308A019258C31049344F85F89D5229B531C845836F99B08601F113BCE036F9 % specN),
    (3, 0xF9308A019258C31049344F85F89D5229B531C845836F99B08601F113BCE036F9),
    (4, 0xF9308A019258C31049344F85F89D5229B531C845836F99B08601F113BCE036F9), (5, specGx), (6, specGy)]

theorem test_ecdsa_verify_true : gives .ecdsaVerify verifyInputs
    (fun t => t.statusWord == 2 && t.resultWord == 1) = true := by decide +kernel
theorem test_ecdsa_verify_range : gives .ecdsaVerify (withRegs [(4, 1), (5, specGx), (6, specGy)])
    (fun t => t.statusWord == 2 && t.resultWord == 0) = true := by decide +kernel

/-! Keccak (T1, T60 to T63). -/

theorem test_keccak_f1600 : gives .keccakF1600 State.reset (fun t => t.statusWord == 2 &&
    t.kstate.toList.take 32 == bytes 32 0xe7dde140798f25f18a47c033f9ccd584eea95aa61e2698d54d49806f304715bd &&
    t.kstate.toList.drop 192 == bytes 8 0x49a2ec5c7bfff1ea) = true := by decide +kernel
theorem test_keccak_init : gives .keccakInit { State.reset with kstate := Vector.replicate 200 7 }
    (fun t => t.kstate.toList.getD 0 1 == 0 && t.kstate.toList.getD 199 1 == 0) = true := by decide +kernel

/-- 136 bytes `61` at offset 0. -/
def block61 : State := ranges (holding State.reset 0 (List.replicate 136 0x61)) 0 136 0 0 0

theorem test_keccak_absorb : gives .keccakAbsorb block61 (fun t => t.statusWord == 2 &&
    t.kstate.toList.take 16 == bytes 16 0xf1e1d2504cec98d474859ec5e68a99f6) = true := by decide +kernel
theorem test_keccak_absorb_length : statusIs .keccakAbsorb (ranges State.reset 0 135 0 0 0) 0x00001106 = true := by
  decide +kernel
theorem test_keccak_final : gives (.keccakFinal 1) (ranges (after .keccakAbsorb block61) 0 1 0 0 0)
    (fun t => t.regNat 1 == 0xD869F639C7046B4929FC92A4D988A8B22C55FBADB802C0C66EBCD484F1915F39) = true := by decide +kernel
theorem test_keccak256_empty : gives (.keccak256 1) (ranges State.reset 4096 0 0 0 0) (fun t => t.regNat 1 ==
    0xC5D2460186F7233C927E7DB2DCC703C0E500B653CA82273B7BFAD8045D85A470) = true := by decide +kernel
theorem test_keccak256_block : gives (.keccak256 1) block61 (fun t => t.regNat 1 ==
    0xA6C4D403279FE3E0AF03729CAADA8374B5CA54D8065329A3EBCAEB4B60AA386E) = true := by decide +kernel

/-! AES and GCM (T70, T72, T74, T75). -/

/-- T70's and T74's key in `R[10]`. -/
def specKey : Nat := 0x000102030405060708090A0B0C0D0E0F101112131415161718191A1B1C1D1E1F

theorem test_aes256_enc : gives (.aes256Enc 10)
    (ranges (holding (withRegs [(10, specKey)]) 0 (bytes 16 0x00112233445566778899aabbccddeeff)) 0 0 0 0 16)
    (fun t => t.statusWord == 2 && t.dstLen == 16 &&
      t.memRead 16 16 == bytes 16 0x8ea2b7ca516745bfeafc49904b496089) = true := by decide +kernel
theorem test_aes256_enc_range : statusIs (.aes256Enc 10) (ranges State.reset 4081 0 0 0 0) 0x00001106 = true := by
  decide +kernel

/-- T74: key, `IV`, associated data at 0, plaintext at 8. -/
def gcmInputs : State :=
  ranges (holding (holding ((withRegs [(10, specKey)]).wrIv (bytes 12 0xa0a1a2a3a4a5a6a7a8a9aaab)) 0
    (bytes 6 0x686561646572)) 8 (bytes 21 0x68656c6c6f2c2062617368717569617420636f7265)) 8 21 0 6 8

theorem test_gcm_enc : gives (.gcmEnc 10) gcmInputs (fun t => t.statusWord == 2 && t.dstLen == 37 &&
    t.memRead 8 37 == bytes 37 0x8e7d10412ae722dd0316efa27213a1aa50cf3662f7c347d0a1ae40f883c704657857ab1518) = true := by
  decide +kernel
theorem test_gcm_enc_range : statusIs (.gcmEnc 10) (ranges State.reset 0 4081 0 0 0) 0x00001106 = true := by
  decide +kernel

/-- The output of `test_gcm_enc` at 8, with a first byte. -/
def gcmOutput (first : Byte) : State :=
  ranges (holding (holding gcmInputs 8
    (bytes 37 0x8e7d10412ae722dd0316efa27213a1aa50cf3662f7c347d0a1ae40f883c704657857ab1518)) 8 [first]) 8 37 0 6 8

theorem test_gcm_dec : gives (.gcmDec 10) (gcmOutput 0x8e) (fun t => t.statusWord == 2 && t.dstLen == 21 &&
    t.memRead 8 21 == bytes 21 0x68656c6c6f2c2062617368717569617420636f7265) = true := by decide +kernel
theorem test_gcm_dec_forged : gives (.gcmDec 10) (gcmOutput 0x8f) (fun t => t.statusWord == 0x00000506 &&
    t.dstLen == 0 && t.dmem == (gcmOutput 0x8f).dmem) = true := by decide +kernel

/-! The textual layer. -/

theorem test_hex : hexDecode false "aF09".toList = .ok [0xAF, 0x09] ∧ hexEncode [0xAF, 0x09] = "af09".toList ∧
    hexDecode false [] = .error .invalidEncoding ∧ hexDecode true [] = .ok [] := by decide +kernel

/-- T1 as a textual command: the empty argument. -/
theorem test_keccak256_text : (keccak256Text [] State.reset).1 =
    .ok ["c5d2460186f7233c927e7db2dcc703c0e500b653ca82273b7bfad8045d85a470".toList] := by decide +kernel

/-- A key of the wrong length (R106). -/
theorem test_derive_text_length : (derivePublicKey "00".toList State.reset).1 = .error (.kind .invalidKey) := by
  decide +kernel

/-- Program P6: the rejected key, the branch taken, the `NOP` that clears the code. -/
def rejectedKey : List ScriptLine :=
  [.wr256 0 (.num specN), .cmd .derive, .wait, .ifEq .err (.num 2) 1, .halt, .label 1, .cmd .nop, .wait, .halt]

theorem test_script_rejected_key :
    (runScript 10 rejectedKey rejectedKey { block := State.reset, vars := [] }).value .st = .number 2 ∧
    obeysWaits rejectedKey = true ∧ obeysWaits [.cmd .nop, .rd (.num 0x100) (.named 0), .wait] = false := by
  decide +kernel

/-- Host variables as operands (R109, and R115's `RD 0x034 -> n ; RDB a4, n`), `st` in a comparison: `ID` is read,
written to DMEM, and as many bytes of it are read back as `SRC_LEN` says. -/
def variableScript : List ScriptLine :=
  [.cmd .nop, .wait, .ifNe (.var .st) (.num 2) 1, .rd (.num 0) (.named 0), .wr (.num 0x1000) (.var (.named 0)),
    .wr (.num 0x024) (.num 2), .rd (.num 0x024) (.named 1), .rdB (.num 0) (.var (.named 1)) (.named 2), .label 1]

theorem test_script_variables :
    (runScript 20 variableScript variableScript { block := State.reset, vars := [] }).value (.named 2)
      = .bytes [0x42, 0x51] := by decide +kernel

/-- A script's own polling loop in the place of `WAIT` (R109, R345). -/
def pollingLoop : List ScriptLine :=
  [.cmd .nop, .label 1, .rd (.num 0x00C) .st, .ifEq (.var .st) (.num 1) 1, .halt]

/-- The loop ends when the engine moves: `STATUS` reads 1 while the command is in flight, 2 after it. -/
theorem test_script_polls :
    (runScript 20 pollingLoop pollingLoop { block := State.reset, vars := [], turns := [false, false, false, true] }
      ).vars = [(.st, .number 2), (.st, .number 1)] ∧
    (runScript 20 pollingLoop pollingLoop { block := State.reset, vars := [] }).value .st = .number 1 := by
  decide +kernel

/-- R281 at the adapter: the key is gone. -/
theorem test_then_zeroize : (thenZeroize (.ok [], withRegs [(0, 1)])).2.regNat 0 = 0 := by decide +kernel

/-! Witnesses: for each obligation with hypotheses, states and operands that meet them, at the ends of their ranges,
and one for each clause. -/

theorem exec_after (i : Instr) (s : State) : exec i s = .next (after i s) := by
  simp only [after, exec_eq]

theorem witness_DecodeEncodeCommand : (Instr.montMul 15 15 15 .orderN).wellFormed = true ∧
    (Instr.pkEncode .compressed).wellFormed = true ∧ Instr.nop.wellFormed = true := by decide

theorem witness_EncodeDecodeWord : decode 0x001FFF10 = .ok (.montMul 15 15 15 .orderN) := by decide +kernel

theorem witness_DecodeAcceptsTableWords : ((0x00000023, 0xFFFFFEFF) : Word × Word) ∈ opcodeRows ∧
    (0x123 : Word) &&& 0xFFFFFEFF = 0x23 := by decide +kernel

/-- `NOP` issued, with given events to come. -/
def issued (w : Word) (events : List Event) : State := { State.reset.issue w with schedule := events }

theorem witness_StepRunsDecodedCommand :
    ((issued 0 []).status.busy = true ∧ decode (issued 0 []).cmd = .ok .nop ∧ (issued 0 []).schedule = []) ∧
    ((issued 0x20 [.engine, .hostRead 0]).status.busy = true ∧
      decode (issued 0x20 [.engine, .hostRead 0]).cmd = .ok .pmulG ∧
      (issued 0x20 [.engine, .hostRead 0]).schedule = .engine :: [.hostRead 0]) ∧
    decode 0x00000F53 = .ok (.keccakFinal 15) := by decide +kernel

/-- With nothing scheduled, and with a scheduled turn of the engine. -/
theorem witness_IllegalWordCompletes : ∀ events ∈ [[], [Event.engine, .hostRead 0x00C]],
    (issued 0xFFFFFFFF events).status.busy = true ∧ (∀ i, decode (issued 0xFFFFFFFF events).cmd ≠ .ok i) ∧
    (issued 0xFFFFFFFF events).schedule.headD .engine = .engine := by
  intro events he
  have hd : decode 0xFFFFFFFF = .error (.reservedOpcode 0xFF) := by decide +kernel
  refine ⟨rfl, fun i h => absurd (hd.symm.trans h) (by simp), ?_⟩
  fin_cases he <;> rfl

theorem witness_BusyBlockCompletes :
    ((issued 0x70 []).status.busy = true ∧ (issued 0x70 []).schedule.headD .engine = .engine) ∧
    ((issued 0 [.engine, .reset]).status.busy = true ∧
      (issued 0 [.engine, .reset]).schedule.headD .engine = .engine) := by decide +kernel

theorem witness_StepKeepsInvariant : (issued 0x31 [.hostRead 0x00C]).Inv ∧
    ∃ t, step (issued 0x31 [.hostRead 0x00C]) = .next t :=
  ⟨{ params_valid := by decide
     dmem_wf := by decide
     dmem_within := by decide
     err_legal := by decide
     not_busy_done := by decide
     busy_clear := by decide
     err_no_flags := by decide
     one_flag := by decide
     drbg_clear := by decide +kernel
     dst_len_le := by decide }, _, rfl⟩

theorem witness_ResetHasInvariant : Params.valid { dmemBytes := 256, nonceTries := 1 } = true ∧
    Params.valid { dmemBytes := 2 ^ 31, nonceTries := 1 } = true := by decide

theorem witness_ResetValues : (issued 0x39 [.reset, .hostRead 0]).schedule = .reset :: [.hostRead 0] := rfl

theorem witness_PortAcceptsMappedWords :
    (0x1FFC % 4 = 0 ∧ 0x1000 ≤ 0x1FFC ∧ 0x1FFC < 0x1000 + State.reset.params.dmemBytes) ∧
    ¬ 0x2000 < 0x1000 + State.reset.params.dmemBytes ∧ 0x002 % 4 ≠ 0 := by decide

theorem witness_BusyFreezesHost : inFlight.status.busy = true ∧ ((0x014 : Nat) ≠ 0x000 ∧ (0x014 : Nat) ≠ 0x004 ∧
    (0x014 : Nat) ≠ 0x008 ∧ (0x014 : Nat) ≠ 0x00C ∧ (0x014 : Nat) ≠ 0x010) := by decide +kernel

/-- For `WriteToCmdIssues` and `ControlWordsStore` too. -/
theorem witness_RegisterWords : State.reset.status.busy = false ∧ 0 < 8 ∧ 7 < 8 := by decide

theorem witness_ByteStringWords : State.reset.status.busy = false ∧ 4092 % 4 = 0 ∧
    4092 + 4 ≤ State.reset.params.dmemBytes ∧ 2 < 3 ∧ 49 < 50 := by decide

theorem witness_OnlyTwoWordsHaveSideEffects : (issued 0 [.hostRead 0x1000]).schedule = .hostRead 0x1000 :: [] ∧
    (∃ t, step (issued 0 [.hostRead 0x1000]) = .next t) ∧
    (holding State.reset 4095 [0xFF]).dmem.wf = true ∧ ((0x014 : Nat) ≠ 0x010 ∧ (0x014 : Nat) ≠ 0x00C) :=
  ⟨rfl, ⟨_, rfl⟩, by decide +kernel, by decide⟩

theorem witness_DoneAndInterrupt : exec .nop inFlight = .next (after .nop inFlight) ∧
    (after .nop inFlight).status.busy = false := ⟨exec_after _ _, rfl⟩

/-! Operands at `m - 1` and at `m`. -/

theorem witness_MontMulEffect :
    ((withRegs [(0, specP - 1), (1, specP - 1)]).regNat 0 < modulusOf .fieldP ∧
      (withRegs [(0, specP - 1), (1, specP - 1)]).regNat 1 < modulusOf .fieldP) ∧
    ¬ (withRegs [(0, specN)]).regNat 0 < modulusOf .orderN := by decide +kernel

theorem witness_MontConversionEffect : (withRegs [(0, specN - 1)]).regNat 0 < modulusOf .orderN ∧
    ¬ (withRegs [(0, specP)]).regNat 0 < modulusOf .fieldP := by decide +kernel

theorem witness_ModMulAddSubEffect :
    ((withRegs [(1, specN - 1)]).regNat 0 < modulusOf .orderN ∧
      (withRegs [(1, specN - 1)]).regNat 1 < modulusOf .orderN) ∧
    ¬ (withRegs [(1, specN)]).regNat 1 < modulusOf .orderN := by decide +kernel

theorem witness_ModInvEffect :
    (1 ≤ (withRegs [(0, specP - 1)]).regNat 0 ∧ (withRegs [(0, specP - 1)]).regNat 0 < modulusOf .fieldP ∧
      (withRegs [(0, specP - 1)]).regNat 0 = modulusOf .fieldP - 1) ∧
    ((withRegs [(0, 1)]).regNat 0 = 1 ∧ (withRegs [(0, 2)]).regNat 0 = 2) ∧
    ¬ 1 ≤ State.reset.regNat 0 := by decide +kernel

/-- For `MontReduceEqualsMont` and `MontFormLaws` too. -/
theorem witness_MontSerialEqualsMont : 1 ∣ 256 ∧ 64 ∣ 256 ∧ 256 ∣ 256 ∧ specP - 1 < modulusOf .fieldP ∧
    0 < modulusOf .orderN := by decide +kernel

theorem witness_PmulGEffect : ladder (State.reset.regNat regK) basePoint = .inf ∧ State.reset.regNat regK = 0 ∧
    ladder ((withRegs [(2, 1)]).regNat regK) basePoint = .affine genX genY ∧
    (withRegs [(2, 1)]).regNat regK = 1 := by decide +kernel

theorem witness_PmulEffect : onCurve (atG.regNat regQx) (atG.regNat regQy) = true ∧
    onCurve (State.reset.regNat regQx) (State.reset.regNat regQy) = false ∧
    (atG.setRegNat 2 1).regNat regK = 1 := by decide +kernel

theorem witness_DeriveEffect :
    (1 ≤ (withRegs [(0, 1)]).regNat regD ∧ (withRegs [(0, 1)]).regNat regD < groupOrder ∧
      ladder ((withRegs [(0, 1)]).regNat regD) basePoint = .affine genX genY) ∧
    (withRegs [(0, 1)]).regNat regD = 1 ∧ State.reset.regNat regD = 0 ∧
    groupOrder ≤ (withRegs [(0, specN)]).regNat regD := by decide +kernel

/-- Destinations 4063 and 4064: `4063 + 33 = 4096`. -/
theorem witness_PkEncodeEffect :
    atG.params.dmemBytes < (ranges atG 0 0 0 0 4064).dstOff.toNat + encLength .compressed ∧
    ¬ atG.params.dmemBytes < (ranges atG 0 0 0 0 4063).dstOff.toNat + encLength .compressed ∧
    onCurve (atG.regNat regQx) (atG.regNat regQy) = true ∧
    onCurve (State.reset.regNat regQx) (State.reset.regNat regQy) = false := by decide +kernel

theorem witness_PkDecodeEffect :
    oddG.params.dmemBytes < (ranges oddG 4064 33 0 0 0).srcOff.toNat + (ranges oddG 4064 33 0 0 0).srcLen.toNat ∧
    ¬ oddG.params.dmemBytes < oddG.srcOff.toNat + oddG.srcLen.toNat ∧
    decodePoint (oddG.memRead oddG.srcOff.toNat oddG.srcLen.toNat) = some (specGx, specP - specGy) ∧
    decodePoint (State.reset.memRead 0 33) = none ∧ State.reset.srcLen.toNat ≠ 33 ∧ State.reset.srcLen.toNat ≠ 65 := by
  decide +kernel

/-- The words of `PkDecodeEffect` for 33 bytes: a state, and what its bytes are. -/
def compressedInputs (s : State) (lead : Byte) (x c y : Nat) : Prop :=
  s.srcLen.toNat = 33 ∧ lead = s.dmem.readByte s.srcOff.toNat ∧ x = beInt (s.memRead (s.srcOff.toNat + 1) 32) ∧
    c = (x * x * x + 7) % fieldPrime ∧ y = c ^ ((fieldPrime + 1) / 4) % fieldPrime

/-- `02` and an x that no point has (R162: 5). -/
def noPoint5 : State := ranges (holding State.reset 0 (0x02 :: bytes 32 5)) 0 33 0 0 0

/-- 33 bytes with a root (`03` and `Gx`, whose even root is `Gy`) and without one. -/
theorem witness_PkDecodeEffect_compressed :
    (∃ c y, compressedInputs oddG 0x03 specGx c y ∧ y * y % fieldPrime = c ∧ y % 2 ≠ (0x03 : Byte).toNat % 2) ∧
    (∃ c y, compressedInputs noPoint5 0x02 5 c y ∧ y * y % fieldPrime ≠ c) :=
  ⟨⟨_, _, ⟨by decide +kernel, by decide +kernel, by decide +kernel, rfl, sqrtp_eq _⟩, by decide +kernel⟩,
    ⟨_, _, ⟨by decide +kernel, by decide +kernel, by decide +kernel, rfl, sqrtp_eq _⟩, by decide +kernel⟩⟩

/-- `04`, `Gx` and a second coordinate. -/
def fullPoint (y : Nat) : State :=
  ranges (holding State.reset 4 (0x04 :: (bytes 32 specGx ++ bytes 32 y))) 4 65 0 0 0

theorem witness_PkDecodeEffect_uncompressed : ∀ y ∈ [specGy, specGy + 1], (fullPoint y).srcLen.toNat = 65 ∧
    specGx = beInt ((fullPoint y).memRead ((fullPoint y).srcOff.toNat + 1) 32) ∧
    y = beInt ((fullPoint y).memRead ((fullPoint y).srcOff.toNat + 33) 32) ∧
    (fullPoint y).dmem.readByte (fullPoint y).srcOff.toNat = 0x04 ∧ onCurve specGx y = (y == specGy) := by
  decide +kernel

theorem witness_PointCodecRoundTrip :
    decodePoint (0x02 :: bytes 32 specGx) = some (specGx, specGy) ∧
    decodePoint (0x04 :: (bytes 32 specGx ++ bytes 32 specGy)) = some (specGx, specGy) ∧
    onCurve specGx specGy = true ∧ (bytes 32 specGx).length = 32 ∧ specGx = beInt (bytes 32 specGx) := by decide +kernel

theorem witness_NonceSearchBounded : nonceSearch 16 specGen = .ok { gen := specGen1, left := 15 } ∧
    nonceSearch 0 specGen = .error .nonceExhausted := ⟨test_nonce_search, rfl⟩

/-- A state whose `NONCE_TRIES` is 0, below the range of R6: nothing is acceptable in no tries. -/
def noTries (s : State) : State := { s with params := { dmemBytes := 4096, nonceTries := 0 } }

theorem witness_NonceFirstEffect :
    (1 ≤ nonceInputs.regNat regD ∧ nonceInputs.regNat regD < groupOrder) ∧
    nonceSearch nonceInputs.params.nonceTries (drbgInit (nonceInputs.regNat regD) (nonceInputs.regNat regZ))
      = .ok { gen := specGen1, left := 15 } ∧
    State.reset.regNat regD = 0 ∧ groupOrder ≤ (withRegs [(0, specN)]).regNat regD ∧
    nonceSearch (noTries nonceInputs).params.nonceTries
      (drbgInit ((noTries nonceInputs).regNat regD) ((noTries nonceInputs).regNat regZ)) = .error .nonceExhausted := by
  refine ⟨by decide +kernel, ?_, by decide +kernel, by decide +kernel, rfl⟩
  rw [nonceInputs_d, nonceInputs_z, test_drbg_init]
  exact test_nonce_search

/-- T32. -/
theorem witness_NonceNextEffect :
    (State.reset.setDrbg specGen1.kd specGen1.vd).drbgValid = true ∧
    nonceSearch (State.reset.setDrbg specGen1.kd specGen1.vd).params.nonceTries
      (drbgReseed { kd := be256 (State.reset.setDrbg specGen1.kd specGen1.vd).drbgK,
                    vd := be256 (State.reset.setDrbg specGen1.kd specGen1.vd).drbgV })
      = .ok { gen := { kd := bytes 32 0xcd2be8e2706107312b40455acbf20febfc4078470fd47ed2f027a4c1f54bd0ec,
                       vd := bytes 32 0xf15fb763a6bcbbacbde0a6a9ae2a02482bd92f3e75a50b357bd551ddd771045e }, left := 15 } ∧
    State.reset.drbgValid = false ∧
    nonceSearch (noTries (State.reset.setDrbg [1] [2])).params.nonceTries
      (drbgReseed { kd := be256 (noTries (State.reset.setDrbg [1] [2])).drbgK,
                    vd := be256 (noTries (State.reset.setDrbg [1] [2])).drbgV }) = .error .nonceExhausted := by
  refine ⟨rfl, by decide +kernel, rfl, rfl⟩

/-- `d = 1`, `k = 1`, with a digest. -/
def unitSign (z : Nat) : State := withRegs [(0, 1), (1, z), (2, 1)]

/-- The signature half that `SignKEffect` names, for `d = k = 1`. -/
theorem unit_half (z x : Nat) (hz : (unitSign z).regNat regZ = z) (hd : (unitSign z).regNat regD = 1)
    (hk : (unitSign z).regNat regK = 1) :
    (unitSign z).regNat regK ^ (groupOrder - 2) * (((unitSign z).regNat regZ + x * (unitSign z).regNat regD)
      % groupOrder) % groupOrder = (z + x) % groupOrder := by
  rw [hz, hd, hk, Nat.one_pow, Nat.one_mul, Nat.mul_one, Nat.mod_mod]

/-- Both outcomes: `z = 1`, and `z = n - Gx` for which the second half is 0. -/
theorem witness_SignKEffect :
    (1 ≤ (unitSign 1).regNat regD ∧ (unitSign 1).regNat regD < groupOrder ∧ 1 ≤ (unitSign 1).regNat regK ∧
      (unitSign 1).regNat regK < groupOrder) ∧
    ladder ((unitSign 1).regNat regK) basePoint = .affine genX genY ∧
    (genX % groupOrder ≠ 0 ∧ (unitSign 1).regNat regK ^ (groupOrder - 2) * (((unitSign 1).regNat regZ
      + genX % groupOrder * (unitSign 1).regNat regD) % groupOrder) % groupOrder ≠ 0) ∧
    (unitSign (specN - specGx)).regNat regK ^ (groupOrder - 2) * (((unitSign (specN - specGx)).regNat regZ
      + genX % groupOrder * (unitSign (specN - specGx)).regNat regD) % groupOrder) % groupOrder = 0 ∧
    State.reset.regNat regD = 0 ∧ groupOrder ≤ (withRegs [(0, 1), (2, specN)]).regNat regK ∧
    1 ≤ (withRegs [(0, 1), (2, specN)]).regNat regD ∧ (withRegs [(0, 1), (2, specN)]).regNat regD < groupOrder := by
  refine ⟨by decide +kernel, by decide +kernel, ⟨by decide +kernel, ?_⟩, ?_, by decide +kernel⟩
  · rw [unit_half 1 _ (by decide +kernel) (by decide +kernel) (by decide +kernel)]
    decide +kernel
  · rw [unit_half (specN - specGx) _ (by decide +kernel) (by decide +kernel) (by decide +kernel)]
    decide +kernel

theorem witness_EcdsaSignEffect :
    (1 ≤ nonceInputs.regNat regD ∧ nonceInputs.regNat regD < groupOrder) ∧
    signLoop nonceInputs.params.nonceTries nonceInputs.params.nonceTries (nonceInputs.regNat regD)
      (nonceInputs.regNat regZ) nonceInputs.ctrl.lows (drbgInit (nonceInputs.regNat regD) (nonceInputs.regNat regZ))
      = .ok (specSigR, specSigS) ∧
    groupOrder ≤ (withRegs [(0, specN)]).regNat regD ∧
    (∀ rs, signLoop (noTries nonceInputs).params.nonceTries (noTries nonceInputs).params.nonceTries
      ((noTries nonceInputs).regNat regD) ((noTries nonceInputs).regNat regZ) (noTries nonceInputs).ctrl.lows
      (drbgInit ((noTries nonceInputs).regNat regD) ((noTries nonceInputs).regNat regZ)) ≠ .ok rs) := by
  refine ⟨by decide +kernel, ?_, by decide +kernel, fun rs h => ?_⟩
  · rw [nonceInputs_d, nonceInputs_z, test_drbg_init]
    exact test_sign_loop
  · exact absurd (show Except.error ErrCode.nonceExhausted = .ok rs from h) (by simp)

theorem witness_EcdsaSignMatchesLowLevelPath : exec .ecdsaSign nonceInputs =
      .next ((nonceInputs.putSignature (specSigR, specSigS)).complete noFlags) ∧
    ((nonceInputs.putSignature (specSigR, specSigS)).complete noFlags).status.err = 0 := ⟨test_ecdsa_sign, rfl⟩

theorem witness_EcdsaVerifyEffect : onCurve (verifyInputs.regNat regQx) (verifyInputs.regNat regQy) = true ∧
    ¬ onCurve (State.reset.regNat regQx) (State.reset.regNat regQy) = true := by decide +kernel

/-- Source ranges: 1 byte at 4096 leaves DMEM, none does not; lengths 0, 135 and 136. -/
theorem witness_KeccakHashingEffect :
    (ranges State.reset 4096 1 0 0 0).params.dmemBytes
      < (ranges State.reset 4096 1 0 0 0).srcOff.toNat + (ranges State.reset 4096 1 0 0 0).srcLen.toNat ∧
    ¬ (ranges State.reset 4096 0 0 0 0).params.dmemBytes
      < (ranges State.reset 4096 0 0 0 0).srcOff.toNat + (ranges State.reset 4096 0 0 0 0).srcLen.toNat ∧
    (ranges State.reset 0 135 0 0 0).srcLen.toNat % 136 ≠ 0 ∧ block61.srcLen.toNat % 136 = 0 ∧
    State.reset.srcLen.toNat = 0 := by decide +kernel

theorem witness_Keccak256IsInitThenFinal : block61.srcOff.toNat + block61.srcLen.toNat ≤ block61.params.dmemBytes := by
  decide +kernel

theorem witness_KeccakChunking : ∀ c ∈ [List.replicate 136 (0x61 : Byte), [], List.replicate 272 0],
    c.length % 136 = 0 := by decide +kernel

theorem witness_KeccakLaneLayout : (List.replicate 200 (7 : Byte)).length = 200 ∧ 4 < 5 := by decide +kernel

theorem witness_AesEncryptEffect :
    ((ranges State.reset 4080 0 0 0 4080).srcOff.toNat + 16 ≤ (ranges State.reset 4080 0 0 0 4080).params.dmemBytes ∧
      (ranges State.reset 4080 0 0 0 4080).dstOff.toNat + 16 ≤ (ranges State.reset 4080 0 0 0 4080).params.dmemBytes) ∧
    ¬ (ranges State.reset 0 0 0 0 4081).dstOff.toNat + 16 ≤ (ranges State.reset 0 0 0 0 4081).params.dmemBytes := by
  decide +kernel

theorem witness_GcmEncryptEffect : State.reset.params.valid = true ∧
    (0 + (ranges State.reset 0 4080 4096 0 0).srcLen.toNat ≤ State.reset.params.dmemBytes ∧
      (ranges State.reset 0 4080 4096 0 0).aadOff.toNat + 0 ≤ State.reset.params.dmemBytes ∧
      0 + (ranges State.reset 0 4080 4096 0 0).srcLen.toNat + 16 ≤ State.reset.params.dmemBytes) ∧
    ¬ 0 + (ranges State.reset 0 4081 0 0 0).srcLen.toNat + 16 ≤ State.reset.params.dmemBytes := by decide +kernel

/-- T72's tag at offset 0, key and `IV` zero, 16 source bytes, the plaintext empty. -/
def tagOnly : State := ranges (holding State.reset 0 (bytes 16 0x530f8afbc74536b9a963b4f1c4cb738b)) 0 16 0 0 4096

theorem witness_GcmDecryptEffect : State.reset.params.valid = true ∧
    ((ranges State.reset 0 15 0 0 0xFFFFFFFF).srcLen.toNat < 16) ∧
    (tagOnly.srcLen.toNat = 0 + 16 ∧ tagOnly.dstOff.toNat + (tagOnly.srcLen.toNat - 16) ≤ tagOnly.params.dmemBytes ∧
      tagOnly.memRead (tagOnly.srcOff.toNat + 0) 16 = gcmTag (be256 (tagOnly.reg 0)) tagOnly.iv.toList
        (tagOnly.memRead tagOnly.aadOff.toNat tagOnly.aadLen.toNat) (tagOnly.memRead tagOnly.srcOff.toNat 0)) ∧
    ¬ (ranges State.reset 0 16 0 0 0).memRead 0 16 = gcmTag (be256 (State.reset.reg 0)) State.reset.iv.toList [] [] ∧
    ¬ (16 ≤ (ranges State.reset 0 17 0 0 4096).srcLen.toNat →
      (ranges State.reset 0 17 0 0 4096).dstOff.toNat + ((ranges State.reset 0 17 0 0 4096).srcLen.toNat - 16)
        ≤ State.reset.params.dmemBytes) := by decide +kernel

/-- T72: the empty plaintext there and back. -/
theorem witness_GcmRoundTrip : exec (.gcmEnc 0) State.reset = .next (after (.gcmEnc 0) State.reset) ∧
    (after (.gcmEnc 0) State.reset).status.err = 0 ∧ tagOnly.params = State.reset.params ∧
    tagOnly.reg 0 = State.reset.reg 0 ∧ tagOnly.iv = State.reset.iv ∧
    tagOnly.srcLen = (after (.gcmEnc 0) State.reset).dstLen ∧
    tagOnly.srcOff.toNat + tagOnly.srcLen.toNat ≤ tagOnly.params.dmemBytes ∧
    tagOnly.memRead tagOnly.srcOff.toNat tagOnly.srcLen.toNat = (after (.gcmEnc 0) State.reset).memRead
      State.reset.dstOff.toNat (after (.gcmEnc 0) State.reset).dstLen.toNat ∧
    tagOnly.aadOff.toNat + tagOnly.aadLen.toNat ≤ tagOnly.params.dmemBytes ∧
    tagOnly.memRead tagOnly.aadOff.toNat tagOnly.aadLen.toNat
      = State.reset.memRead State.reset.aadOff.toNat State.reset.aadLen.toNat ∧
    tagOnly.dstOff.toNat + State.reset.srcLen.toNat ≤ tagOnly.params.dmemBytes := by
  refine ⟨exec_after _ _, by decide +kernel, rfl, by decide +kernel, rfl, ?_⟩
  decide +kernel

/-- Two states that differ in what the GCM commands may not read. -/
theorem witness_GcmPurity : (withRegs [(1, 7)]).params = State.reset.params ∧
    (withRegs [(1, 7)]).reg 0 = State.reset.reg 0 ∧ (withRegs [(1, 7)]).iv = State.reset.iv ∧
    (withRegs [(1, 7)]).srcOff = State.reset.srcOff ∧ (withRegs [(1, 7)]).srcLen = State.reset.srcLen ∧
    (withRegs [(1, 7)]).aadOff = State.reset.aadOff ∧ (withRegs [(1, 7)]).aadLen = State.reset.aadLen ∧
    (withRegs [(1, 7)]).dstOff = State.reset.dstOff ∧ (withRegs [(1, 7)]).memRead 0 0 = State.reset.memRead 0 0 :=
  ⟨rfl, by decide +kernel, rfl, rfl, rfl, rfl, rfl, rfl, rfl⟩

theorem witness_CommandFootprint : Instr.derive ≠ .zeroize ∧
    exec .derive (withRegs [(0, 3)]) = .next (after .derive (withRegs [(0, 3)])) := ⟨by decide, exec_after _ _⟩

/-- Each flag is set by some command, and an error clears them. -/
theorem witness_FlagsAreOutputsOnly : (after .ecdsaVerify verifyInputs).result.valid = true ∧
    (after .pmulG State.reset).result.inf = true ∧ (after .pkDecode oddG).result.parity = true ∧
    (after (.modInv 0 0 .fieldP) State.reset).status.err ≠ 0 := by decide +kernel

theorem witness_HexRoundTrip : "abc".toList.length % 2 = 1 := by decide

theorem witness_RejectedArgumentsLeaveHardware :
    decodeArgs [(.privateKey, "0".toList)] = .error .invalidEncoding ∧
    decodeArgs [(.messageDigest, "00".toList), (.privateKey, "0".toList)] = .error .invalidEncoding ∧
    decodeArgs [(.messageDigest, hexEncode (zeros 32)), (.signature, "00".toList), (.publicKey, [])]
      = .error .invalidSignature ∧
    decodeArgs [(.data, "g0".toList)] = .error .invalidEncoding ∧
    decodeArgs [(.aeadKey, "00".toList), (.aeadNonce, []), (.plaintext, []), (.associatedData, [])]
      = .error .invalidKey ∧
    decodeArgs [(.aeadKey, hexEncode (zeros 32)), (.aeadNonce, "00".toList), (.ciphertextWithTag, []),
      (.associatedData, [])] = .error .invalidEncoding ∧
    decodeArg .publicKey (hexEncode (zeros 34)) = .error .invalidPublicKey ∧
    decodeArg .data "00".toList = .ok [0] ∧ decodeArgs [(.privateKey, "0".toList)] = .error .invalidEncoding := by
  decide +kernel

end Sys2Proof.Tests
end

section
/-! What a command can do to the state, said once: `commandResult_effect` inverts `commandResult` for all 28
commands into the writes of the command's footprint, the flags it may set and the errors it may report. -/

namespace Sys2Proof.Machine

/-- What the operations of a command can make of `s` inside a footprint. An output is checked against the end of
DMEM before it is written (spec/20_memory.md R75, R78). -/
inductive Writes (f : Footprint) (s : State) : State → Prop where
  | none : Writes f s s
  | setRegNat {t : State} (h : Writes f s t) (i : RegNum) (v : Nat) (hi : i ∈ f.regs) : Writes f s (t.setRegNat i v)
  | setKstate {t : State} (h : Writes f s t) (b : List Byte) (hf : f.kstate = true) : Writes f s (t.setKstate b)
  | setDrbg {t : State} (h : Writes f s t) (kd vd : List Byte) (hf : f.drbg = true) : Writes f s (t.setDrbg kd vd)
  | memOutput (b : List Byte) (hb : b.length ≤ f.stored) (hf : f.dstLen = true)
      (hr : s.dstInRange b.length = true) : Writes f s (s.memOutput b)

/-- The two writes of a point. -/
theorem Writes.setPoint {f : Footprint} {s t : State} (h : Writes f s t) {ix iy : RegNum} (x y : Nat)
    (hx : ix ∈ f.regs) (hy : iy ∈ f.regs) : Writes f s (t.setPoint ix iy x y) :=
  (h.setRegNat ix x hx).setRegNat iy y hy

/-- The tie to `Framed`: the writes of a footprint change nothing outside it. -/
theorem Writes.framed {f : Footprint} {s t : State} (h : Writes f s t) : Framed f s t := by
  induction h with
  | none => exact Framed.refl f s
  | setRegNat _ i v hi ih => exact ih.setRegNat v hi
  | setKstate _ b hf ih => exact ih.setKstate b hf
  | setDrbg _ kd vd hf ih => exact ih.setDrbg kd vd hf
  | memOutput b hb hf _ => exact framed_memOutput s b hb hf

/-- The flags a command may report (spec/10_state.md R32): one at most, and only those of its row. -/
structure FlagsOf (i : Instr) (flags : ResultFlags) : Prop where
  single : flags.single = true
  valid : flags.valid = true → (settable i).valid = true
  inf : flags.inf = true → (settable i).inf = true
  parity : flags.parity = true → (settable i).parity = true

theorem FlagsOf.of_noFlags (i : Instr) : FlagsOf i noFlags := ⟨rfl, nofun, nofun, nofun⟩

theorem FlagsOf.of_parityFlag {i : Instr} (h : (settable i).parity = true) (y : Nat) : FlagsOf i (parityFlag y) :=
  ⟨by unfold parityFlag; cases y.testBit 0 <;> rfl, nofun, nofun, fun _ => h⟩

theorem FlagsOf.of_infFlag {i : Instr} (h : (settable i).inf = true) : FlagsOf i infFlag :=
  ⟨rfl, nofun, fun _ => h, nofun⟩

theorem FlagsOf.of_validFlag {i : Instr} (h : (settable i).valid = true) (v : Bool) : FlagsOf i (validFlag v) :=
  ⟨by cases v <;> rfl, fun _ => h, nofun, nofun⟩

/-- What a command's result can be: the writes of its footprint with its flags, `ZEROIZE`'s writes, or one of its
errors. -/
inductive CommandEffect (i : Instr) (s : State) : CommandResult → Prop where
  | wrote {t : State} {flags : ResultFlags} (hw : Writes (footprint i s) s t) (hf : FlagsOf i flags) :
      CommandEffect i s (.ok (t, flags))
  | zeroized (hi : i = .zeroize) : CommandEffect i s (.ok (s.zeroized, noFlags))
  | failed {e : ErrCode} (he : e ∈ reportable i) : CommandEffect i s (.error e)

section
variable {i : Instr} {s : State}

/-- A register write alone. -/
theorem CommandEffect.register {rd : RegNum} (h : rd ∈ (footprint i s).regs) (v : Nat) :
    CommandEffect i s (.ok (s.setRegNat rd v, noFlags)) :=
  .wrote (Writes.none.setRegNat rd v h) (.of_noFlags i)

/-- The writes of a nonce and its generator. -/
theorem CommandEffect.nonce (hk : regK ∈ (footprint i s).regs) (hd : (footprint i s).drbg = true)
    (g : Drbg) : CommandEffect i s (.ok (s.putNonce g, noFlags)) :=
  .wrote ((Writes.none.setRegNat regK _ hk).setDrbg g.kd g.vd hd) (.of_noFlags i)

/-- The writes of a signature. -/
theorem CommandEffect.signature (hr : regSigR ∈ (footprint i s).regs)
    (hs : regSigS ∈ (footprint i s).regs) (rs : Nat × Nat) : CommandEffect i s (.ok (s.putSignature rs, noFlags)) :=
  .wrote (Writes.none.setPoint rs.1 rs.2 hr hs) (.of_noFlags i)

/-- A write of `KSTATE` alone. -/
theorem CommandEffect.sponge (h : (footprint i s).kstate = true) (b : List Byte) :
    CommandEffect i s (.ok (s.setKstate b, noFlags)) :=
  .wrote (Writes.none.setKstate b h) (.of_noFlags i)

/-- A digest to a register and `KSTATE` cleared. -/
theorem CommandEffect.digest {rd : RegNum} (hrd : rd ∈ (footprint i s).regs)
    (hk : (footprint i s).kstate = true) (v : Nat) :
    CommandEffect i s (.ok ((s.setRegNat rd v).setKstate (zeros 200), noFlags)) :=
  .wrote ((Writes.none.setRegNat rd v hrd).setKstate _ hk) (.of_noFlags i)

/-- An output of the length the footprint names, checked against the end of DMEM. -/
theorem CommandEffect.output {b : List Byte} {n : Nat} (hb : b.length = n)
    (hn : n = (footprint i s).stored) (hd : (footprint i s).dstLen = true) (hr : s.dstInRange n = true) :
    CommandEffect i s (.ok (s.memOutput b, noFlags)) := by
  subst hb
  exact .wrote (.memOutput b hn.le hd hr) (.of_noFlags i)

theorem modBinary_effect (f : Nat → Nat → Nat) (rd ra rb : RegNum) (m : Modulus) (hrd : rd ∈ (footprint i s).regs)
    (he : .operandRange ∈ reportable i) : CommandEffect i s (modBinary f rd ra rb m s) := by
  unfold modBinary
  split
  · exact .failed he
  · exact .register hrd _

theorem modUnary_effect (f : Nat → Nat) (rd ra : RegNum) (m : Modulus) (hrd : rd ∈ (footprint i s).regs)
    (he : .operandRange ∈ reportable i) : CommandEffect i s (modUnary f rd ra m s) := by
  unfold modUnary
  split
  · exact .failed he
  · exact .register hrd _

theorem pmulResult_effect (x : Point) (hx : regPx ∈ (footprint i s).regs) (hy : regPy ∈ (footprint i s).regs)
    (hinf : (settable i).inf = true) (hpar : (settable i).parity = true) :
    CommandEffect i s (.ok (pmulResult s x)) := by
  cases x with
  | inf => exact .wrote (Writes.none.setPoint 0 0 hx hy) (.of_infFlag hinf)
  | affine x y => exact .wrote (Writes.none.setPoint x y hx hy) (.of_parityFlag hpar y)

end

section
variable (s : State)

theorem modInverse_effect (rd ra : RegNum) (m : Modulus) :
    CommandEffect (.modInv rd ra m) s (modInverse rd ra m s) := by
  unfold modInverse
  split
  · exact .failed (by simp [reportable])
  · split
    · exact .failed (by simp [reportable])
    · exact .register (by simp [footprint]) _

theorem pmulCommand_effect : CommandEffect .pmul s (pmulCommand s) := by
  unfold pmulCommand
  split
  · exact pmulResult_effect _ (by simp [footprint]) (by simp [footprint]) rfl rfl
  · exact .failed (by simp [reportable])

theorem deriveCommand_effect : CommandEffect .derive s (deriveCommand s) := by
  unfold deriveCommand
  split
  · split
    · exact .wrote (Writes.none.setPoint 0 0 (by simp [footprint]) (by simp [footprint])) (.of_noFlags _)
    · exact .wrote (Writes.none.setPoint _ _ (by simp [footprint]) (by simp [footprint])) (.of_parityFlag rfl _)
  · exact .failed (by simp [reportable])

theorem pkEncodeCommand_effect (comp : PointForm) : CommandEffect (.pkEncode comp) s (pkEncodeCommand comp s) := by
  unfold pkEncodeCommand
  split
  · exact .failed (by simp [reportable])
  next hr =>
    split
    · exact .failed (by simp [reportable])
    · exact .wrote (.memOutput _ (by simp [footprint]) rfl (by simpa using hr)) (.of_parityFlag rfl _)

theorem pkDecodeCommand_effect : CommandEffect .pkDecode s (pkDecodeCommand s) := by
  unfold pkDecodeCommand
  split
  · exact .failed (by simp [reportable])
  · split
    · exact .failed (by simp [reportable])
    · exact .wrote (Writes.none.setPoint _ _ (by simp [footprint]) (by simp [footprint])) (.of_parityFlag rfl _)

/-- The one error of the nonce search (spec/42_nonce.md R197). -/
theorem nonceSearch_error {budget : Nat} {g : Drbg} {e : ErrCode} (h : nonceSearch budget g = .error e) :
    e = .nonceExhausted := by
  induction budget generalizing g with
  | zero => exact (Except.error.inj h).symm
  | succ left ih =>
    rw [nonceSearch] at h
    split at h
    · cases h
    · exact ih h

/-- The one error of the signing loop (spec/43_ecdsa_sign.md R213). -/
theorem signLoop_error {turns budget d z : Nat} {lows : Bool} {g : Drbg} {e : ErrCode}
    (h : signLoop turns budget d z lows g = .error e) : e = .nonceExhausted := by
  induction turns generalizing budget g with
  | zero => exact (Except.error.inj h).symm
  | succ turns ih =>
    rw [signLoop] at h
    split at h
    next hs => exact Except.error.inj h ▸ nonceSearch_error hs
    next =>
      split at h
      · cases h
      · exact ih h

theorem nonceFirstCommand_effect : CommandEffect .nonceFirst s (nonceFirstCommand s) := by
  unfold nonceFirstCommand
  split
  · split
    next hs => exact .failed (by simp [reportable, nonceSearch_error hs])
    · exact .nonce (by simp [footprint]) rfl _
  · exact .failed (by simp [reportable])

theorem nonceNextCommand_effect : CommandEffect .nonceNext s (nonceNextCommand s) := by
  unfold nonceNextCommand
  split
  · split
    next hs => exact .failed (by simp [reportable, nonceSearch_error hs])
    · exact .nonce (by simp [footprint]) rfl _
  · exact .failed (by simp [reportable])

theorem signKCommand_effect : CommandEffect .signK s (signKCommand s) := by
  unfold signKCommand
  split
  · exact .failed (by simp [reportable])
  · split
    · exact .failed (by simp [reportable])
    · split
      · exact .failed (by simp [reportable])
      · exact .signature (by simp [footprint]) (by simp [footprint]) _

theorem ecdsaSignCommand_effect : CommandEffect .ecdsaSign s (ecdsaSignCommand s) := by
  unfold ecdsaSignCommand
  split
  · split
    next hs => exact .failed (by simp [reportable, signLoop_error hs])
    · exact .signature (by simp [footprint]) (by simp [footprint]) _
  · exact .failed (by simp [reportable])

theorem ecdsaVerifyCommand_effect : CommandEffect .ecdsaVerify s (ecdsaVerifyCommand s) := by
  unfold ecdsaVerifyCommand
  split
  · exact .wrote .none (.of_validFlag rfl _)
  · exact .failed (by simp [reportable])

theorem keccakAbsorbCommand_effect : CommandEffect .keccakAbsorb s (keccakAbsorbCommand s) := by
  unfold keccakAbsorbCommand
  split
  · exact .failed (by simp [reportable])
  · split
    · exact .failed (by simp [reportable])
    · exact .sponge rfl _

theorem keccakFinalCommand_effect (rd : RegNum) :
    CommandEffect (.keccakFinal rd) s (keccakFinalCommand rd s) := by
  unfold keccakFinalCommand
  split
  · exact .failed (by simp [reportable])
  · exact .digest (by simp [footprint]) rfl _

theorem keccak256Command_effect (rd : RegNum) : CommandEffect (.keccak256 rd) s (keccak256Command rd s) := by
  unfold keccak256Command
  split
  · exact .failed (by simp [reportable])
  · exact .digest (by simp [footprint]) rfl _

theorem aes256EncCommand_effect (ra : RegNum) : CommandEffect (.aes256Enc ra) s (aes256EncCommand ra s) := by
  unfold aes256EncCommand
  split
  · exact .failed (by simp [reportable])
  · split
    · exact .failed (by simp [reportable])
    next hr =>
      have hlen := aes256_length (s.regBytes ra) (s.memRead s.srcOff.toNat 16) (by simp) (by simp)
      exact .output hlen rfl rfl (by simpa using hr)

theorem gcmEncCommand_effect (ra : RegNum) : CommandEffect (.gcmEnc ra) s (gcmEncCommand ra s) := by
  unfold gcmEncCommand
  split
  · exact .failed (by simp [reportable])
  · split
    · exact .failed (by simp [reportable])
    · split
      · exact .failed (by simp [reportable])
      next hr =>
        have hlen := gcmEncrypt_length (s.regBytes ra) s.iv.toList s.aadBytes s.srcBytes (by simp) (by simp)
        rw [State.srcBytes_length] at hlen
        exact .output hlen rfl rfl (by simpa using hr)

/-- The one error of a decryption (spec/46_aes_gcm.md R269). -/
theorem gcmDecrypt_error {key iv aad ctt : List Byte} {e : ErrCode} (h : gcmDecrypt key iv aad ctt = .error e) :
    e = .authenticationFailure := by
  unfold gcmDecrypt at h
  split at h
  · exact (Except.error.inj h).symm
  · dsimp only at h
    split at h
    · exact (Except.error.inj h).symm
    · cases h

/-- A decryption that succeeds had at least the 16 bytes of the tag, so its destination was checked. -/
theorem gcmDecCommand_effect (ra : RegNum) : CommandEffect (.gcmDec ra) s (gcmDecCommand ra s) := by
  unfold gcmDecCommand
  split
  · exact .failed (by simp [reportable])
  · split
    · exact .failed (by simp [reportable])
    · split
      · exact .failed (by simp [reportable])
      next hr =>
        split
        next hd => exact .failed (by simp [reportable, gcmDecrypt_error hd])
        next pt hd =>
          have hlen := gcmDecrypt_length _ _ _ _ pt (by simp) (by simp) hd
          rw [State.srcBytes_length] at hlen
          have h16 : 16 ≤ s.srcLen.toNat := by omega
          exact .output (n := s.srcLen.toNat - 16) (by omega) rfl rfl (by simpa [h16] using hr)

/-- Every command: its result is of the kinds that its rows of the tables allow (spec/10_state.md R24, R32;
spec/20_memory.md R78; spec/60_exceptions.md R290). -/
theorem commandResult_effect (i : Instr) : CommandEffect i s (commandResult i s) := by
  cases i with
  | nop => exact .wrote .none (.of_noFlags _)
  | zeroize => exact .zeroized rfl
  | montMul rd ra rb m | modMul rd ra rb m | modAdd rd ra rb m | modSub rd ra rb m =>
    rw [commandResult]
    apply modBinary_effect
    · simp [footprint]
    · simp [reportable]
  | toMont rd ra m | fromMont rd ra m =>
    rw [commandResult]
    apply modUnary_effect
    · simp [footprint]
    · simp [reportable]
  | modInv rd ra m => exact modInverse_effect s rd ra m
  | modRed rd ra m => exact .register (by simp [footprint]) _
  | pmulG => exact pmulResult_effect _ (by simp [footprint]) (by simp [footprint]) rfl rfl
  | pmul => exact pmulCommand_effect s
  | derive => exact deriveCommand_effect s
  | pkEncode comp => exact pkEncodeCommand_effect s comp
  | pkDecode => exact pkDecodeCommand_effect s
  | nonceFirst => exact nonceFirstCommand_effect s
  | nonceNext => exact nonceNextCommand_effect s
  | signK => exact signKCommand_effect s
  | ecdsaSign => exact ecdsaSignCommand_effect s
  | ecdsaVerify => exact ecdsaVerifyCommand_effect s
  | keccakF1600 => exact .sponge rfl _
  | keccakInit => exact .sponge rfl _
  | keccakAbsorb => exact keccakAbsorbCommand_effect s
  | keccakFinal rd => exact keccakFinalCommand_effect s rd
  | keccak256 rd => exact keccak256Command_effect s rd
  | aes256Enc ra => exact aes256EncCommand_effect s ra
  | gcmEnc ra => exact gcmEncCommand_effect s ra
  | gcmDec ra => exact gcmDecCommand_effect s ra

end

end Sys2Proof.Machine
end

section
/-! The invariant of the block in two halves, what is stored and what is reported, and each kind of step against
them: a command's commit, a host access, a reset. -/

namespace Sys2Proof.Machine

/-- The half of `State.Inv` that no change of `STATUS` or `RESULT` touches. -/
structure State.StorageInv (s : State) : Prop where
  params_valid : s.params.valid = true
  dmem_wf : s.dmem.wf = true
  dmem_within : s.dmem.within s.params.dmemBytes = true
  drbg_clear : s.drbgValid = false → s.drbgK = 0 ∧ s.drbgV = 0
  dst_len_le : s.dstLen.toNat ≤ s.params.dmemBytes

/-- The half of `State.Inv` that speaks of `STATUS` and `RESULT` alone. -/
structure ReportInv (st : Status) (r : ResultFlags) : Prop where
  err_legal : st.err ∈ hardwareCodes
  not_busy_done : ¬ (st.busy = true ∧ st.done = true)
  busy_clear : st.busy = true → st.err = 0 ∧ r = noFlags
  err_no_flags : st.err ≠ 0 → r = noFlags
  one_flag : r.single = true

/-- The invariant is its two halves. -/
theorem State.inv_iff (s : State) : s.Inv ↔ s.StorageInv ∧ ReportInv s.status s.result := by
  constructor
  · intro h
    exact ⟨{ h with }, { h with }⟩
  · rintro ⟨hs, hr⟩
    exact { hs, hr with }

/-! What is reported. -/

/-- The commands report none of the adapter's two codes, 1 and 4 (spec/60_exceptions.md R290). -/
theorem code_mem_hardwareCodes_of_reportable {i : Instr} {e : ErrCode} (h : e ∈ reportable i) :
    e.code ∈ hardwareCodes := by
  cases e with
  | invalidEncoding | invalidSignature => cases i <;> simp [reportable] at h
  | _ => decide

/-- Reset, and an issue (spec/10_state.md R44, R46). -/
theorem ReportInv.clear (busy : Bool) : ReportInv { busy := busy, done := false, err := 0 } noFlags :=
  ⟨List.mem_cons_self, by simp, fun _ => ⟨rfl, rfl⟩, fun _ => rfl, rfl⟩

/-- A successful completion (spec/10_state.md R47). -/
theorem ReportInv.success {flags : ResultFlags} (h : flags.single = true) :
    ReportInv { busy := false, done := true, err := 0 } flags :=
  ⟨List.mem_cons_self, by simp, by simp, by simp, h⟩

/-- A completion with an error (spec/60_exceptions.md R296). -/
theorem ReportInv.failure {code : BitVec 8} (h : code ∈ hardwareCodes) :
    ReportInv { busy := false, done := true, err := code } noFlags :=
  ⟨h, by simp, by simp, fun _ => rfl, rfl⟩

/-- The host's acknowledgement (spec/60_exceptions.md R299). -/
theorem ReportInv.acknowledge {st : Status} {r : ResultFlags} (h : ReportInv st r) :
    ReportInv { st with done := false } r :=
  ⟨h.err_legal, by simp, h.busy_clear, h.err_no_flags, h.one_flag⟩

/-! What is stored. -/

/-- A string that ends inside DMEM keeps the storage. -/
theorem State.StorageInv.memWrite {s : State} (h : s.StorageInv) {off : Nat} {b : List Byte}
    (hr : off + b.length ≤ s.params.dmemBytes) : (s.memWrite off b).StorageInv :=
  { h with
    dmem_wf := Memory.wf_writeBytes b off h.dmem_wf
    dmem_within := Memory.within_writeBytes b h.dmem_within hr }

/-- An output keeps the storage, its length being that of a range of DMEM. -/
theorem State.StorageInv.memOutput {s : State} (h : s.StorageInv) {b : List Byte}
    (hr : s.dstInRange b.length = true) : (s.memOutput b).StorageInv := by
  have hend : s.dstOff.toNat + b.length ≤ s.params.dmemBytes := of_decide_eq_true hr
  refine { h.memWrite hend with dst_len_le := ?_ }
  calc (BitVec.ofNat 32 b.length).toNat ≤ b.length := by simpa using Nat.mod_le _ _
    _ ≤ s.params.dmemBytes := by omega

/-- So do all writes of a command. -/
theorem State.StorageInv.writes {f : Footprint} {s t : State} (h : s.StorageInv) (hw : Writes f s t) :
    t.StorageInv := by
  induction hw with
  | none => exact h
  | setRegNat _ _ _ _ ih => exact { ih with }
  | setKstate _ _ _ ih => exact { ih with }
  | setDrbg _ _ _ _ ih => exact { ih with drbg_clear := nofun }
  | memOutput b _ _ hr => exact h.memOutput hr

/-- `ZEROIZE`'s writes keep the storage (spec/47_system.md R281). -/
theorem State.StorageInv.zeroized {s : State} (h : s.StorageInv) : s.zeroized.StorageInv :=
  ⟨h.params_valid, rfl, rfl, fun _ => ⟨rfl, rfl⟩, Nat.zero_le _⟩

/-- A reset meets the invariant, with any parameters in range. -/
theorem State.inv_resetWith {c : Params} (hc : c.valid = true) (events : List Event) :
    (State.resetWith c events).Inv :=
  (State.inv_iff _).mpr ⟨⟨hc, rfl, rfl, fun _ => ⟨rfl, rfl⟩, Nat.zero_le _⟩, .clear false⟩

/-! Completion: the engine's turn. -/

/-- A successful commit. -/
theorem State.StorageInv.complete {s : State} (h : s.StorageInv) {flags : ResultFlags} (hf : flags.single = true) :
    (s.complete flags).Inv :=
  (State.inv_iff _).mpr ⟨{ h with }, .success hf⟩

/-- An error commit, which leaves `DST_LEN` or clears it. -/
theorem State.StorageInv.errorCommit {s : State} (h : s.StorageInv) (c : Bool) {e : ErrCode}
    (he : e.code ∈ hardwareCodes) : (s.errorCommit c e).Inv := by
  refine (State.inv_iff _).mpr ⟨{ h with dst_len_le := ?_ }, .failure he⟩
  cases c with
  | true => exact Nat.zero_le _
  | false => exact h.dst_len_le

/-- The commit of a command. -/
theorem CommandEffect.commit_inv {i : Instr} {s : State} {r : CommandResult} (he : CommandEffect i s r)
    (h : s.StorageInv) (c : Bool) : (s.commit c r).Inv := by
  cases he with
  | wrote hw hf => exact (h.writes hw).complete hf.single
  | zeroized _ => exact h.zeroized.complete rfl
  | failed hm => exact h.errorCommit c (code_mem_hardwareCodes_of_reportable hm)

/-- The engine's turn: a command, an illegal word, or nothing when idle. -/
theorem engineStep_keeps_inv {s t : State} (h : s.Inv) (ht : engineStep s = .next t) : t.Inv := by
  have hs : s.StorageInv := ((State.inv_iff s).mp h).1
  unfold engineStep at ht
  split at ht
  · split at ht
    next i _ =>
      rw [exec_eq] at ht
      exact Host.Outcome.next.inj ht ▸ (commandResult_effect s i).commit_inv hs _
    next => exact Host.Outcome.next.inj ht ▸ hs.errorCommit false (by decide)
  · exact Host.Outcome.next.inj ht ▸ h

/-! The host's accesses. -/

/-- The single-word registers are no words of DMEM. -/
theorem controlSlot_ne_dmem (a off : Nat) : controlSlot a ≠ some (.dmem off) := by
  unfold controlSlot
  split <;> simp

/-- A word of DMEM that the map shows lies inside DMEM, whose size is whole words (spec/20_memory.md R60, R64). -/
theorem slotAt_dmem_le {n a off : Nat} (hn : n % 4 = 0) (h : slotAt n a = some (.dmem off)) : off + 4 ≤ n := by
  unfold slotAt at h
  split_ifs at h
  · exact absurd h (controlSlot_ne_dmem a off)
  · cases h
  · cases h
  · cases h
  · have hoff : a - 0x1000 = off := Slot.dmem.inj (Option.some.inj h)
    omega

/-- The parameters in range make DMEM whole words (spec/00_scope.md R6). -/
theorem Params.dmemBytes_mod {c : Params} (h : c.valid = true) : c.dmemBytes % 4 = 0 := by
  simp only [Params.valid, Bool.and_eq_true, decide_eq_true_eq] at h
  obtain ⟨⟨⟨hmod, _⟩, _⟩, _⟩ := h
  exact hmod

/-- An accepted write while idle: a store, an acknowledgement or an issue (spec/10_state.md R49). -/
theorem State.Inv.writeSlot {s : State} (h : s.Inv) {a : Nat} {slot : Slot}
    (hslot : slotAt s.params.dmemBytes a = some slot) (v : Word) : (s.writeSlot slot v).Inv := by
  obtain ⟨hs, hr⟩ := (State.inv_iff s).mp h
  cases slot with
  | id | version | result | dstLen => exact h
  | ctrl | srcOff | srcLen | aadOff | aadLen | dstOff | iv | reg | kstate => exact { h with }
  | status =>
    have hw : s.writeSlot .status v = if v.getLsbD 1 then s.acknowledge else s := rfl
    rw [hw]
    split
    · exact (State.inv_iff _).mpr ⟨{ hs with }, hr.acknowledge⟩
    · exact h
  | cmd => exact (State.inv_iff _).mpr ⟨{ hs with }, .clear true⟩
  | dmem off =>
    have hend : off + 4 ≤ s.params.dmemBytes := slotAt_dmem_le (Params.dmemBytes_mod hs.params_valid) hslot
    exact (State.inv_iff _).mpr ⟨hs.memWrite (by simpa using hend), hr⟩

/-- A host write, accepted or not, idle or busy (spec/10_state.md R48, spec/20_memory.md R63). -/
theorem State.Inv.hostWrite32 {s : State} (h : s.Inv) (a : Nat) (v : Word) : (s.hostWrite32 a v).1.Inv := by
  unfold State.hostWrite32
  split
  · exact h
  next slot hslot =>
    dsimp only
    split
    · exact h
    · exact h.writeSlot hslot v

/-- What the outside world does next, and the port's last answer, are not in the invariant (logs 3, 4). -/
theorem State.Inv.outside {s : State} (h : s.Inv) (events : List Event) (answer : Option PortResponse) :
    { s with schedule := events, response := answer }.Inv :=
  { h with }

/-! The step. -/

/-- One event. -/
theorem stepEvent_keeps_inv {e : Event} {s t : State} (h : s.Inv) (ht : stepEvent e s = .next t) : t.Inv := by
  cases e with
  | hostRead a => exact Host.Outcome.next.inj ht ▸ h.outside s.schedule _
  | hostWrite a v => exact Host.Outcome.next.inj ht ▸ (h.hostWrite32 a v).outside _ _
  | engine => exact engineStep_keeps_inv h ht
  | reset => exact Host.Outcome.next.inj ht ▸ State.inv_resetWith h.params_valid s.schedule

/-- One step: the engine's turn when nothing is scheduled, else the oldest event. -/
theorem step_keeps_inv {s t : State} (h : s.Inv) (ht : step s = .next t) : t.Inv := by
  unfold step at ht
  split at ht
  · exact engineStep_keeps_inv h ht
  next rest _ => exact stepEvent_keeps_inv (h.outside rest s.response) ht

end Sys2Proof.Machine

namespace Sys2Proof.Proofs

open Sys2Proof.Machine

/-- Settles O9: each kind of event, and each commit of a command, keeps the two halves of the invariant. -/
theorem stepKeepsInvariant : Obligations.StepKeepsInvariant := by
  unfold Obligations.StepKeepsInvariant
  intro s t h ht
  exact step_keeps_inv h ht

/-- Settles O10, by the reset state's own clauses, once for all parameters in range. -/
theorem resetHasInvariant : Obligations.ResetHasInvariant := by
  unfold Obligations.ResetHasInvariant
  exact ⟨State.inv_resetWith (by decide) [], fun _ events hc => State.inv_resetWith hc events⟩

end Sys2Proof.Proofs
end

section
/-! The rules of the host port (spec/20_memory.md R61, R63; spec/10_state.md R48, R49): what a read answers and
what a write does, by the kind of the word and whether the block is busy. -/

namespace Sys2Proof.Machine

section
variable {s : State} {a : Nat} {slot : Slot}

/-- An access to nothing (spec/20_memory.md R63). -/
theorem State.hostRead32_unmapped (hs : slotAt s.params.dmemBytes a = none) : s.hostRead32 a = .busErr := by
  simp only [State.hostRead32, hs]

theorem State.hostWrite32_unmapped (hs : slotAt s.params.dmemBytes a = none) (v : Word) :
    s.hostWrite32 a v = (s, .busErr) := by
  simp only [State.hostWrite32, hs]

/-- A word that shows its value: any word while idle, five words while busy. -/
theorem State.hostRead32_shown (hs : slotAt s.params.dmemBytes a = some slot)
    (hv : (s.status.busy && !visibleBusy slot) = false) : s.hostRead32 a = .okRead (s.slotValue slot) := by
  simp [State.hostRead32, hs, hv]

/-- A word that a busy block hides. -/
theorem State.hostRead32_hidden (hs : slotAt s.params.dmemBytes a = some slot) (hb : s.status.busy = true)
    (hv : visibleBusy slot = false) : s.hostRead32 a = .okRead 0 := by
  simp [State.hostRead32, hs, hb, hv]

theorem State.hostRead32_idle (hs : slotAt s.params.dmemBytes a = some slot) (hb : s.status.busy = false) :
    s.hostRead32 a = .okRead (s.slotValue slot) :=
  State.hostRead32_shown hs (by simp [hb])

theorem State.hostRead32_visible (hs : slotAt s.params.dmemBytes a = some slot) (hv : visibleBusy slot = true) :
    s.hostRead32 a = .okRead (s.slotValue slot) :=
  State.hostRead32_shown hs (by simp [hv])

theorem State.hostWrite32_idle (hs : slotAt s.params.dmemBytes a = some slot) (hb : s.status.busy = false)
    (v : Word) : s.hostWrite32 a v = (s.writeSlot slot v, .okWrite) := by
  simp [State.hostWrite32, hs, hb]

theorem State.hostWrite32_busy (hs : slotAt s.params.dmemBytes a = some slot) (hb : s.status.busy = true)
    (v : Word) : s.hostWrite32 a v = (s, .okWrite) := by
  simp [State.hostWrite32, hs, hb]

end

/-- `BUSERR` is a matter of the map alone (spec/20_memory.md R63). -/
theorem State.hostRead32_eq_busErr_iff (s : State) (a : Nat) :
    s.hostRead32 a = .busErr ↔ slotAt s.params.dmemBytes a = none := by
  cases hs : slotAt s.params.dmemBytes a with
  | none => simp [State.hostRead32_unmapped hs]
  | some slot => simp [State.hostRead32, hs]

/-- The words a busy block shows stand at five addresses (spec/10_state.md R48; spec/20_memory.md R64). -/
theorem address_of_visibleBusy {n a : Nat} {slot : Slot} (hs : slotAt n a = some slot) (hv : visibleBusy slot = true) :
    a = 0x000 ∨ a = 0x004 ∨ a = 0x008 ∨ a = 0x00C ∨ a = 0x010 := by
  unfold slotAt at hs
  split_ifs at hs
  · unfold controlSlot at hs
    split at hs <;> cases hs <;> simp [visibleBusy] at hv ⊢
  all_goals cases hs; simp [visibleBusy] at hv

/-- A busy block answers 0 at every mapped address but those five (spec/10_state.md R48). -/
theorem State.hostRead32_of_busy {s : State} {a : Nat} (hb : s.status.busy = true)
    (ha : a ≠ 0x000 ∧ a ≠ 0x004 ∧ a ≠ 0x008 ∧ a ≠ 0x00C ∧ a ≠ 0x010) :
    s.hostRead32 a = if slotAt s.params.dmemBytes a = none then .busErr else .okRead 0 := by
  cases hs : slotAt s.params.dmemBytes a with
  | none => simp [State.hostRead32_unmapped hs]
  | some slot =>
    have hv : visibleBusy slot = false := by
      by_contra hv
      have hfive := address_of_visibleBusy hs (by simpa using hv)
      omega
    simp [State.hostRead32_hidden hs hb hv]

/-! What a write leaves alone. -/

/-- What no host write reaches: the parameters, the DRBG state (spec/10_state.md R41) and the model's own record of
the outside world. -/
structure HostCannotReach (s t : State) : Prop where
  params : t.params = s.params
  drbgK : t.drbgK = s.drbgK
  drbgV : t.drbgV = s.drbgV
  drbgValid : t.drbgValid = s.drbgValid
  schedule : t.schedule = s.schedule
  response : t.response = s.response

/-- A write to `STATUS` acknowledges when its bit 1 is 1 (spec/10_state.md R35). -/
theorem State.writeSlot_status (s : State) (v : Word) :
    s.writeSlot .status v = if v.getLsbD 1 then s.acknowledge else s := rfl

theorem HostCannotReach.writeSlot (s : State) (slot : Slot) (v : Word) : HostCannotReach s (s.writeSlot slot v) := by
  cases slot with
  | status =>
    rw [State.writeSlot_status]
    split <;> exact ⟨rfl, rfl, rfl, rfl, rfl, rfl⟩
  | _ =>
    unfold State.writeSlot
    exact ⟨rfl, rfl, rfl, rfl, rfl, rfl⟩

theorem HostCannotReach.hostWrite32 (s : State) (a : Nat) (v : Word) :
    HostCannotReach s (s.hostWrite32 a v).1 := by
  have same : HostCannotReach s s := ⟨rfl, rfl, rfl, rfl, rfl, rfl⟩
  cases hs : slotAt s.params.dmemBytes a with
  | none => rw [State.hostWrite32_unmapped hs]; exact same
  | some slot =>
    cases hb : s.status.busy with
    | true => rw [State.hostWrite32_busy hs hb]; exact same
    | false => rw [State.hostWrite32_idle hs hb]; exact .writeSlot s slot v

/-- While busy no write changes anything (spec/10_state.md R48). -/
theorem State.hostWrite32_state_of_busy {s : State} (hb : s.status.busy = true) (a : Nat) (v : Word) :
    (s.hostWrite32 a v).1 = s := by
  cases hs : slotAt s.params.dmemBytes a with
  | none => rw [State.hostWrite32_unmapped hs]
  | some slot => rw [State.hostWrite32_busy hs hb]

/-- The response to a write, idle or busy (spec/20_memory.md R63). -/
theorem State.hostWrite32_response (s : State) (a : Nat) (v : Word) :
    (s.hostWrite32 a v).2 = if slotAt s.params.dmemBytes a = none then .busErr else .okWrite := by
  cases hs : slotAt s.params.dmemBytes a with
  | none => simp [State.hostWrite32_unmapped hs]
  | some slot => simp [State.hostWrite32, hs]

/-- An idle write that leaves the block idle reads back as what its word then holds. -/
theorem State.hostRead32_after_write {s : State} {a : Nat} {slot : Slot}
    (hs : slotAt s.params.dmemBytes a = some slot) (v : Word) (hb : (s.writeSlot slot v).status.busy = false) :
    (s.writeSlot slot v).hostRead32 a = .okRead ((s.writeSlot slot v).slotValue slot) :=
  State.hostRead32_idle (by rw [(HostCannotReach.writeSlot s slot v).params, hs]) hb

/-! The hidden pair (spec/10_state.md R41). -/

/-- The state with another hidden pair. -/
def State.withDrbgPair (s : State) (k v : Reg) : State := { s with drbgK := k, drbgV := v }

section
variable (s : State) (k v : Reg)

/-- No word of the window shows the pair. -/
theorem State.slotValue_withDrbgPair (slot : Slot) : (s.withDrbgPair k v).slotValue slot = s.slotValue slot := by
  cases slot <;> rfl

theorem State.hostRead32_withDrbgPair (a : Nat) : (s.withDrbgPair k v).hostRead32 a = s.hostRead32 a := by
  simp only [State.hostRead32, State.slotValue_withDrbgPair]
  rfl

/-- No write to a word of the window depends on the pair or moves it. -/
theorem State.writeSlot_withDrbgPair (slot : Slot) (w : Word) :
    (s.withDrbgPair k v).writeSlot slot w = (s.writeSlot slot w).withDrbgPair k v := by
  cases slot with
  | status =>
    rw [State.writeSlot_status, State.writeSlot_status]
    split <;> rfl
  | _ => rfl

theorem State.hostWrite32_withDrbgPair (a : Nat) (w : Word) :
    (s.withDrbgPair k v).hostWrite32 a w
      = ((s.hostWrite32 a w).1.withDrbgPair k v, (s.hostWrite32 a w).2) := by
  cases hs : slotAt s.params.dmemBytes a with
  | none =>
    rw [State.hostWrite32_unmapped hs]
    exact State.hostWrite32_unmapped (s := s.withDrbgPair k v) hs w
  | some slot =>
    cases hb : s.status.busy with
    | true =>
      rw [State.hostWrite32_busy hs hb]
      exact State.hostWrite32_busy (s := s.withDrbgPair k v) hs hb w
    | false =>
      rw [State.hostWrite32_idle hs hb, ← State.writeSlot_withDrbgPair]
      exact State.hostWrite32_idle (s := s.withDrbgPair k v) hs hb w

end

/-- An idle write to a word that stores all of it: the word reads back, and the state is as the slot's store leaves
it (`P`). -/
theorem State.stores_word {s : State} {a : Nat} (slot : Slot) {v : Word} {P : State → Prop}
    (hs : slotAt s.params.dmemBytes a = some slot) (hb : s.status.busy = false)
    (hidle : (s.writeSlot slot v).status = s.status) (hv : (s.writeSlot slot v).slotValue slot = v)
    (hP : P (s.writeSlot slot v)) :
    ∃ t, s.hostWrite32 a v = (t, .okWrite) ∧ t.hostRead32 a = .okRead v ∧ P t :=
  ⟨_, State.hostWrite32_idle hs hb v,
    (State.hostRead32_after_write hs v (by rw [hidle, hb])).trans (congrArg _ hv), hP⟩

/-! The bits of `CTRL` (spec/10_state.md R34). -/

/-- The bits of a placed bit. -/
theorem getLsbD_bitAt (b : Bool) (i j : Nat) (hj : j < 32) : (bitAt b i).getLsbD j = (b && decide (j = i)) := by
  cases b with
  | false => simp [bitAt]
  | true =>
    have h : bitAt true i = BitVec.twoPow 32 i := rfl
    simp [h, hj, eq_comm]

theorem bitAt_zero_or_bitAt_one (v : Word) : bitAt (v.getLsbD 0) 0 ||| bitAt (v.getLsbD 1) 1 = v &&& 3 := by
  apply BitVec.eq_of_getLsbD_eq
  intro j hj
  have h3 : (3 : Word) = bitAt true 0 ||| bitAt true 1 := by decide
  simp only [h3, BitVec.getLsbD_or, BitVec.getLsbD_and, getLsbD_bitAt _ _ _ hj]
  grind

/-- `CTRL` reads the two bits written and 0 elsewhere. -/
theorem State.ctrlWord_writeSlot_ctrl (s : State) (v : Word) : (s.writeSlot .ctrl v).ctrlWord = v &&& 3 :=
  bitAt_zero_or_bitAt_one v

end Sys2Proof.Machine

namespace Sys2Proof.Proofs

open Sys2Proof.Machine

/-- Settles O13. The response does not depend on `BUSY`, and the addresses of the five words shown while busy are
the only ones with a value other than 0. -/
theorem busyFreezesHost : Obligations.BusyFreezesHost := by
  unfold Obligations.BusyFreezesHost
  intro s a v hb
  refine ⟨State.hostWrite32_state_of_busy hb a v, State.hostRead32_visible (slot := .id) rfl rfl,
    State.hostRead32_visible (slot := .version) rfl rfl, State.hostRead32_visible (slot := .ctrl) rfl rfl,
    State.hostRead32_visible (slot := .status) rfl rfl, State.hostRead32_visible (slot := .cmd) rfl rfl, ?_, ?_⟩
  · simp only [State.hostRead32_eq_busErr_iff]
    exact State.hostRead32_of_busy hb
  · simp only [State.hostRead32_eq_busErr_iff]
    exact s.hostWrite32_response a v

/-- Settles O20: no word of the window is the pair, and no write to a word depends on it. -/
theorem drbgPairHidden : Obligations.DrbgPairHidden := by
  unfold Obligations.DrbgPairHidden
  intro s k v a w
  have hr := HostCannotReach.hostWrite32 s a w
  exact ⟨s.hostRead32_withDrbgPair k v a, s.hostWrite32_withDrbgPair k v a w, hr.drbgK, hr.drbgV, hr.drbgValid⟩

/-- Settles O14: the word at 0x010 is `CMD`, and a write to it is an issue. -/
theorem writeToCmdIssues : Obligations.WriteToCmdIssues := by
  unfold Obligations.WriteToCmdIssues
  intro s w hb
  exact ⟨s.issue w, State.hostWrite32_idle (slot := .cmd) rfl hb w, rfl, rfl, rfl, rfl,
    State.hostRead32_visible (slot := .cmd) rfl rfl, rfl⟩

/-- Settles O19: each word by the idle write to its slot and the read after it. -/
theorem controlWordsStore : Obligations.ControlWordsStore := by
  unfold Obligations.ControlWordsStore
  intro s v hb
  have hctrl : (s.writeSlot .ctrl v).hostRead32 0x008 = .okRead (v &&& 3) :=
    (State.hostRead32_after_write (slot := .ctrl) rfl v hb).trans (congrArg _ (s.ctrlWord_writeSlot_ctrl v))
  exact ⟨⟨_, State.hostWrite32_idle (slot := .ctrl) rfl hb v, hctrl, rfl, rfl, rfl⟩,
    State.stores_word .srcOff rfl hb rfl rfl rfl, State.stores_word .srcLen rfl hb rfl rfl rfl,
    State.stores_word .aadOff rfl hb rfl rfl rfl, State.stores_word .aadLen rfl hb rfl rfl rfl,
    State.stores_word .dstOff rfl hb rfl rfl rfl,
    State.hostWrite32_idle (slot := .id) rfl hb v, State.hostWrite32_idle (slot := .version) rfl hb v,
    State.hostWrite32_idle (slot := .result) rfl hb v, State.hostWrite32_idle (slot := .dstLen) rfl hb v,
    State.hostRead32_idle (slot := .id) rfl hb, State.hostRead32_idle (slot := .version) rfl hb,
    State.hostRead32_idle (slot := .result) rfl hb, State.hostRead32_idle (slot := .dstLen) rfl hb⟩

end Sys2Proof.Proofs
end

section
/-! What every command keeps and how every command ends, derived from `commandResult_effect`; and that no command
reads `STATUS` or `RESULT`. -/

namespace Sys2Proof.Machine

/-! What a commit changes. -/

/-- The output commands are the ones whose footprint has `DST_LEN` (spec/10_state.md R40). -/
theorem footprint_dstLen_of_writesOutput {i : Instr} (h : writesOutput i = true) (s : State) :
    (footprint i s).dstLen = true := by
  cases i with
  | pkEncode | aes256Enc | gcmEnc | gcmDec => rfl
  | _ => cases h

/-- A commit stays inside the command's row (spec/10_state.md R24; spec/20_memory.md R78). -/
theorem CommandEffect.commit_framed {i : Instr} {s : State} {r : CommandResult} (he : CommandEffect i s r)
    (hi : i ≠ .zeroize) : Framed (footprint i s) s (s.commit (writesOutput i) r) := by
  cases he with
  | wrote hw _ => exact hw.framed.complete _
  | zeroized h => exact absurd h hi
  | failed _ => exact framed_errorCommit _ s _ _ fun h => footprint_dstLen_of_writesOutput h s

theorem framed_of_exec {i : Instr} {s t : State} (hi : i ≠ .zeroize) (h : exec i s = .next t) :
    Framed (footprint i s) s t := by
  rw [exec_eq] at h
  exact Host.Outcome.next.inj h ▸ (commandResult_effect s i).commit_framed hi

/-- What no command changes, `ZEROIZE` included (spec/47_system.md R281). -/
structure CommandKeeps (s t : State) : Prop where
  params : t.params = s.params
  ctrl : t.ctrl = s.ctrl
  cmd : t.cmd = s.cmd
  schedule : t.schedule = s.schedule
  response : t.response = s.response

theorem Framed.commandKeeps {f : Footprint} {s t : State} (h : Framed f s t) : CommandKeeps s t :=
  ⟨h.params, h.ctrl, h.cmd, h.outside.1, h.outside.2⟩

theorem commandKeeps_of_exec {i : Instr} {s t : State} (h : exec i s = .next t) : CommandKeeps s t := by
  by_cases hi : i = .zeroize
  · subst hi
    exact Host.Outcome.next.inj h ▸ ⟨rfl, rfl, rfl, rfl, rfl⟩
  · exact (framed_of_exec hi h).commandKeeps

/-! How a command ends. -/

/-- Every completion leaves the block idle and done (spec/10_state.md R47). -/
theorem idle_done_of_exec {i : Instr} {s t : State} (h : exec i s = .next t) :
    t.status.busy = false ∧ t.status.done = true := by
  rcases exec_cases h with ⟨u, f, _, rfl⟩ | ⟨e, _, rfl⟩
  · exact ⟨rfl, rfl⟩
  · exact ⟨rfl, rfl⟩

/-- The flags after a commit are of the command's row, and none stands beside an error (spec/10_state.md R32). -/
theorem CommandEffect.commit_flags {i : Instr} {s : State} {r : CommandResult} (he : CommandEffect i s r) (c : Bool) :
    FlagsOf i (s.commit c r).result ∧ ((s.commit c r).status.err ≠ 0 → (s.commit c r).result = noFlags) := by
  cases he with
  | wrote _ hf => exact ⟨hf, fun herr => absurd rfl herr⟩
  | zeroized _ => exact ⟨.of_noFlags i, fun _ => rfl⟩
  | failed _ => exact ⟨.of_noFlags i, fun _ => rfl⟩

theorem flags_of_exec {i : Instr} {s t : State} (h : exec i s = .next t) :
    FlagsOf i t.result ∧ (t.status.err ≠ 0 → t.result = noFlags) := by
  rw [exec_eq] at h
  exact Host.Outcome.next.inj h ▸ (commandResult_effect s i).commit_flags _

/-- `RESULT <- 0` reads 0 (spec/10_state.md R39). -/
theorem State.resultWord_of_noFlags {s : State} (h : s.result = noFlags) : s.resultWord = 0 := by
  simp only [State.resultWord, h]
  rfl

/-! `STATUS` and `RESULT` are outputs of a command and never inputs (spec/10_state.md R32, R47). -/

/-- The state with another `STATUS` and `RESULT`. -/
def State.withReport (s : State) (st : Status) (r : ResultFlags) : State := { s with status := st, result := r }

/-- The same result, from a state with another `STATUS` and `RESULT`. -/
def CommandResult.withReport (c : CommandResult) (st : Status) (r : ResultFlags) : CommandResult :=
  c.map fun p => (p.1.withReport st r, p.2)

section
variable (s : State) (st : Status) (r : ResultFlags)

@[simp] theorem CommandResult.withReport_ok (t : State) (f : ResultFlags) :
    CommandResult.withReport (.ok (t, f)) st r = .ok (t.withReport st r, f) := rfl

@[simp] theorem CommandResult.withReport_error (e : ErrCode) :
    CommandResult.withReport (.error e) st r = .error e := rfl

@[simp] theorem CommandResult.withReport_ite (p : Prop) [Decidable p] (c d : CommandResult) :
    CommandResult.withReport (if p then c else d) st r = if p then c.withReport st r else d.withReport st r :=
  apply_ite (CommandResult.withReport · st r) p c d

/-- The commit writes `STATUS` and `RESULT` itself, so what they held is lost. -/
theorem State.commit_withReport (clears : Bool) (c : CommandResult) :
    (s.withReport st r).commit clears (c.withReport st r) = s.commit clears c := by
  cases c with
  | ok p => rfl
  | error e => rfl

/-! The reads a command makes do not see the report. -/

@[simp] theorem State.withReport_params : (s.withReport st r).params = s.params := rfl
@[simp] theorem State.withReport_ctrl : (s.withReport st r).ctrl = s.ctrl := rfl
@[simp] theorem State.withReport_drbg : (s.withReport st r).drbg = s.drbg := rfl
@[simp] theorem State.withReport_iv : (s.withReport st r).iv = s.iv := rfl
@[simp] theorem State.withReport_srcLen : (s.withReport st r).srcLen = s.srcLen := rfl
@[simp] theorem State.withReport_regNat (i : RegNum) : (s.withReport st r).regNat i = s.regNat i := rfl
@[simp] theorem State.withReport_regBytes (i : RegNum) : (s.withReport st r).regBytes i = s.regBytes i := rfl
@[simp] theorem State.withReport_srcInRange : (s.withReport st r).srcInRange = s.srcInRange := rfl
@[simp] theorem State.withReport_srcBytes : (s.withReport st r).srcBytes = s.srcBytes := rfl
@[simp] theorem State.withReport_aadInRange : (s.withReport st r).aadInRange = s.aadInRange := rfl
@[simp] theorem State.withReport_aadBytes : (s.withReport st r).aadBytes = s.aadBytes := rfl
@[simp] theorem State.withReport_srcOff : (s.withReport st r).srcOff = s.srcOff := rfl
@[simp] theorem State.withReport_inRange (off n : Nat) : (s.withReport st r).inRange off n = s.inRange off n := rfl
@[simp] theorem State.withReport_memRead (off n : Nat) : (s.withReport st r).memRead off n = s.memRead off n := rfl
@[simp] theorem State.withReport_memOutput (b : List Byte) :
    (s.withReport st r).memOutput b = (s.memOutput b).withReport st r := rfl
@[simp] theorem State.withReport_dstInRange (n : Nat) : (s.withReport st r).dstInRange n = s.dstInRange n := rfl

/-! The commands: a chain of checks, or a search whose outcome is looked at. -/

theorem modBinary_withReport (f : Nat → Nat → Nat) (rd ra rb : RegNum) (m : Modulus) :
    modBinary f rd ra rb m (s.withReport st r) = (modBinary f rd ra rb m s).withReport st r := by
  simp only [modBinary, CommandResult.withReport_ite]
  rfl

theorem modUnary_withReport (f : Nat → Nat) (rd ra : RegNum) (m : Modulus) :
    modUnary f rd ra m (s.withReport st r) = (modUnary f rd ra m s).withReport st r := by
  simp only [modUnary, CommandResult.withReport_ite]
  rfl

theorem pmulResult_withReport (x : Point) :
    .ok (pmulResult (s.withReport st r) x) = CommandResult.withReport (.ok (pmulResult s x)) st r := by
  cases x with
  | inf => rfl
  | affine x y => rfl

theorem pmulCommand_withReport : pmulCommand (s.withReport st r) = (pmulCommand s).withReport st r := by
  simp only [pmulCommand, CommandResult.withReport_ite, ← pmulResult_withReport]
  rfl

theorem deriveCommand_withReport : deriveCommand (s.withReport st r) = (deriveCommand s).withReport st r := by
  simp only [deriveCommand, CommandResult.withReport_ite, State.withReport_regNat]
  cases ladder (s.regNat regD) basePoint with
  | inf => rfl
  | affine x y => rfl

theorem pkDecodeCommand_withReport : pkDecodeCommand (s.withReport st r) = (pkDecodeCommand s).withReport st r := by
  simp only [pkDecodeCommand, CommandResult.withReport_ite, State.withReport_srcBytes]
  cases decodePoint s.srcBytes with
  | none => rfl
  | some q => rfl

theorem nonceFirstCommand_withReport :
    nonceFirstCommand (s.withReport st r) = (nonceFirstCommand s).withReport st r := by
  simp only [nonceFirstCommand, CommandResult.withReport_ite, State.withReport_regNat, State.withReport_params]
  cases nonceSearch s.params.nonceTries (drbgInit (s.regNat regD) (s.regNat regZ)) with
  | error e => rfl
  | ok draw => rfl

theorem nonceNextCommand_withReport :
    nonceNextCommand (s.withReport st r) = (nonceNextCommand s).withReport st r := by
  simp only [nonceNextCommand, CommandResult.withReport_ite, State.withReport_drbg, State.withReport_params]
  cases nonceSearch s.params.nonceTries (drbgReseed s.drbg) with
  | error e => rfl
  | ok draw => rfl

theorem signKCommand_withReport : signKCommand (s.withReport st r) = (signKCommand s).withReport st r := by
  simp only [signKCommand, CommandResult.withReport_ite, State.withReport_regNat, State.withReport_ctrl]
  cases signCore (s.regNat regD) (s.regNat regZ) (s.regNat regK) s.ctrl.lows with
  | none => rfl
  | some rs => rfl

theorem ecdsaSignCommand_withReport :
    ecdsaSignCommand (s.withReport st r) = (ecdsaSignCommand s).withReport st r := by
  simp only [ecdsaSignCommand, CommandResult.withReport_ite, State.withReport_regNat, State.withReport_params,
    State.withReport_ctrl]
  cases signLoop s.params.nonceTries s.params.nonceTries (s.regNat regD) (s.regNat regZ) s.ctrl.lows
    (drbgInit (s.regNat regD) (s.regNat regZ)) with
  | error e => rfl
  | ok rs => rfl

theorem aes256EncCommand_withReport (ra : RegNum) :
    aes256EncCommand ra (s.withReport st r) = (aes256EncCommand ra s).withReport st r := by
  simp [aes256EncCommand]

theorem gcmEncCommand_withReport (ra : RegNum) :
    gcmEncCommand ra (s.withReport st r) = (gcmEncCommand ra s).withReport st r := by
  simp [gcmEncCommand]

theorem gcmDecCommand_withReport (ra : RegNum) :
    gcmDecCommand ra (s.withReport st r) = (gcmDecCommand ra s).withReport st r := by
  simp only [gcmDecCommand, CommandResult.withReport_ite, State.withReport_regBytes, State.withReport_iv,
    State.withReport_aadBytes, State.withReport_srcBytes]
  cases gcmDecrypt (s.regBytes ra) s.iv.toList s.aadBytes s.srcBytes with
  | error e => rfl
  | ok pt => rfl

/-- No command's result depends on `STATUS` or `RESULT`. -/
theorem commandResult_withReport (i : Instr) :
    commandResult i (s.withReport st r) = (commandResult i s).withReport st r := by
  cases i with
  | nop | zeroize | modRed | keccakF1600 | keccakInit => rfl
  | montMul rd ra rb m | modMul rd ra rb m | modAdd rd ra rb m | modSub rd ra rb m =>
    simp only [commandResult, modBinary_withReport]
  | toMont rd ra m | fromMont rd ra m => simp only [commandResult, modUnary_withReport]
  | pmulG => exact pmulResult_withReport s st r _
  | pmul => exact pmulCommand_withReport s st r
  | derive => exact deriveCommand_withReport s st r
  | pkDecode => exact pkDecodeCommand_withReport s st r
  | nonceFirst => exact nonceFirstCommand_withReport s st r
  | nonceNext => exact nonceNextCommand_withReport s st r
  | signK => exact signKCommand_withReport s st r
  | ecdsaSign => exact ecdsaSignCommand_withReport s st r
  | gcmDec ra => exact gcmDecCommand_withReport s st r ra
  | aes256Enc ra => exact aes256EncCommand_withReport s st r ra
  | gcmEnc ra => exact gcmEncCommand_withReport s st r ra
  | modInv | pkEncode | ecdsaVerify | keccakAbsorb | keccakFinal | keccak256 =>
    simp only [commandResult, modInverse, pkEncodeCommand, ecdsaVerifyCommand, keccakAbsorbCommand,
      keccakFinalCommand, keccak256Command, CommandResult.withReport_ite]
    rfl

theorem exec_withReport (i : Instr) : exec i (s.withReport st r) = exec i s := by
  rw [exec_eq, exec_eq, commandResult_withReport, State.commit_withReport]

end

/-! The turns of the step. -/

section
variable {s : State}

theorem step_of_nothing_scheduled (h : s.schedule = []) : step s = engineStep s := by
  simp only [step, h]

theorem step_of_event {e : Event} {rest : List Event} (h : s.schedule = e :: rest) :
    step s = stepEvent e { s with schedule := rest } := by
  simp only [step, h]

theorem engineStep_idle (h : s.status.busy = false) : engineStep s = .next s := by
  simp [engineStep, h]

theorem engineStep_command {i : Instr} (h : s.status.busy = true) (hd : decode s.cmd = .ok i) :
    engineStep s = exec i s := by
  simp [engineStep, h, hd]

theorem engineStep_illegal {e : IllegalWord} (h : s.status.busy = true) (hd : decode s.cmd = .error e) :
    engineStep s = .next s.illegal := by
  simp [engineStep, h, hd]

end

/-- The engine's turn always has a next state, and leaves the parameters and the schedule. -/
theorem engineStep_next (s : State) : ∃ t, engineStep s = .next t ∧ t.params = s.params ∧ t.schedule = s.schedule := by
  cases hb : s.status.busy with
  | false => exact ⟨s, engineStep_idle hb, rfl, rfl⟩
  | true =>
    cases hd : decode s.cmd with
    | error e => exact ⟨s.illegal, engineStep_illegal hb hd, rfl, rfl⟩
    | ok i =>
      have hk := commandKeeps_of_exec (exec_eq i s)
      exact ⟨_, (engineStep_command hb hd).trans (exec_eq i s), hk.params, hk.schedule⟩

/-- So does every event. -/
theorem stepEvent_next (e : Event) (s : State) :
    ∃ t, stepEvent e s = .next t ∧ t.params = s.params ∧ t.schedule = s.schedule := by
  cases e with
  | hostRead a => exact ⟨_, rfl, rfl, rfl⟩
  | hostWrite a v =>
    have hr := HostCannotReach.hostWrite32 s a v
    exact ⟨_, rfl, hr.params, hr.schedule⟩
  | engine => exact engineStep_next s
  | reset => exact ⟨_, rfl, rfl, rfl⟩

/-- A 32-bit word is its own row of the table (spec/30_encoding.md R90). -/
theorem tableWord_toNat (w : Word) : tableWord 32 w.toNat = w := by
  rw [tableWord, Nat.mod_eq_of_lt w.isLt, BitVec.ofNat_toNat, BitVec.setWidth_eq]

/-- After a word is placed the next step is the engine's turn on the issued word (log 6). -/
theorem step_placeCommand (s : State) (w : Word) : step (s.placeCommand w) = engineStep (s.issue w) := by
  cases hs : s.schedule with
  | nil =>
    have hp : s.placeCommand w = s.issue w := by simp only [State.placeCommand, hs]
    rw [hp]
    exact step_of_nothing_scheduled hs
  | cons e rest =>
    have hp : s.placeCommand w = { s.issue w with schedule := .engine :: s.schedule } := by
      simp only [State.placeCommand, hs]
    rw [hp]
    exact step_of_event (s := { s.issue w with schedule := .engine :: s.schedule }) rfl

/-! Reset. -/

/-- Every bit at its reset value, whatever the parameters and the later events (spec/10_state.md R44). -/
theorem State.atReset_resetWith (c : Params) (events : List Event) : (State.resetWith c events).AtReset where
  regs i := by simp [State.reg, State.resetWith]
  iv := rfl
  kstate := Vector.toList_replicate
  dmem _ := rfl
  drbg := ⟨rfl, rfl, rfl⟩
  ctrl := by simp [State.ctrlWord, State.resetWith, Config.lowsReset, bitAt]
  status := ⟨by simp [State.statusWord, State.errf, State.resetWith, bitAt], rfl, rfl, rfl⟩
  cmd := rfl
  result := ⟨State.resultWord_of_noFlags rfl, rfl⟩
  descriptors := ⟨rfl, rfl, rfl, rfl, rfl, rfl⟩
  irq := rfl

end Sys2Proof.Machine

namespace Sys2Proof.Proofs

open Sys2Proof.Machine

/-- Settles O55: the writes of a command's result are those of its row, and the commit adds none. -/
theorem commandFootprint : Obligations.CommandFootprint := by
  unfold Obligations.CommandFootprint
  intro i s t hi h
  exact framed_of_exec hi h

/-- Settles O57, by the flags of each command's row and by what the reads of a command see. -/
theorem flagsAreOutputsOnly : Obligations.FlagsAreOutputsOnly := by
  unfold Obligations.FlagsAreOutputsOnly
  constructor
  · intro i s t h
    obtain ⟨hf, herr⟩ := flags_of_exec h
    exact ⟨hf.valid, hf.inf, hf.parity, hf.single, fun he => State.resultWord_of_noFlags (herr he)⟩
  · intro i s st r
    exact exec_withReport s st r i

/-- Settles O18: a commit sets `DONE` and keeps `CTRL`; the word at 0x00C acknowledges and the one at 0x008 holds
`IE`. -/
theorem doneAndInterrupt : Obligations.DoneAndInterrupt := by
  unfold Obligations.DoneAndInterrupt
  refine ⟨fun i s t h => ?_, fun s v hb => ?_, fun s v hb => ?_⟩
  · have hdone := (idle_done_of_exec h).2
    exact ⟨hdone, by simp [State.irq, hdone, (commandKeeps_of_exec h).ctrl]⟩
  · refine ⟨_, State.hostWrite32_idle (slot := .status) rfl hb v, ?_⟩
    rw [State.writeSlot_status]
    cases hv : v.getLsbD 1 with
    | true => simp [State.irq, State.acknowledge]
    | false => simp [State.irq]
  · exact ⟨_, State.hostWrite32_idle (slot := .ctrl) rfl hb v, rfl⟩

/-- Settles O7: each event and the engine's turn have a next state, which keeps the schedule they were given. -/
theorem stepNeverStops : Obligations.StepNeverStops := by
  unfold Obligations.StepNeverStops
  intro s
  cases hs : s.schedule with
  | nil =>
    obtain ⟨t, ht, hparams, hschedule⟩ := engineStep_next s
    exact ⟨t, (step_of_nothing_scheduled hs).trans ht, hparams, hschedule.trans hs⟩
  | cons e rest =>
    obtain ⟨t, ht, hparams, hschedule⟩ := stepEvent_next e { s with schedule := rest }
    exact ⟨t, (step_of_event hs).trans ht, hparams, hschedule⟩

/-- Settles O5: the three ways to the engine's turn, which runs the command in `CMD`. -/
theorem stepRunsDecodedCommand : Obligations.StepRunsDecodedCommand := by
  unfold Obligations.StepRunsDecodedCommand
  refine ⟨fun s i hb hd hs => ?_, fun s i rest hb hd hs => ?_, fun s w i hd => ?_⟩
  · exact (step_of_nothing_scheduled hs).trans (engineStep_command hb hd)
  · exact (step_of_event hs).trans (engineStep_command (s := { s with schedule := rest }) hb hd)
  · rw [State.withFetchWord, tableWord_toNat, step_placeCommand]
    exact engineStep_command rfl hd

/-- Settles O11: the reset event is `State.resetWith` with the parameters and the later events of the state. -/
theorem resetValues : Obligations.ResetValues := by
  unfold Obligations.ResetValues
  refine ⟨State.atReset_resetWith _ _, State.hostRead32_idle (slot := .id) rfl rfl,
    State.hostRead32_idle (slot := .version) rfl rfl, fun s rest hs => ?_⟩
  exact ⟨State.resetWith s.params rest, step_of_event hs, State.atReset_resetWith _ _, rfl, rfl⟩

end Sys2Proof.Proofs
end

section
/-! The map of the window (spec/20_memory.md R63, R64): which addresses are mapped, and the slot at each word of the
registers and byte strings. -/

namespace Sys2Proof.Machine

/-- The single-word registers stand at twelve addresses (spec/20_memory.md R64). -/
theorem controlSlot_ne_none_iff (a : Nat) :
    controlSlot a ≠ none ↔ a % 4 = 0 ∧ (a < 0x018 ∨ (0x020 ≤ a ∧ a < 0x038)) := by
  unfold controlSlot
  split
  case h_13 =>
    simp only [imp_false] at *
    exact iff_of_false (fun h => h rfl) (by omega)
  all_goals simp

/-- The mapped addresses: the aligned ones of the ranges of R64. -/
theorem slotAt_ne_none_iff (n a : Nat) :
    slotAt n a ≠ none ↔ a % 4 = 0 ∧ (a < 0x018 ∨ (0x020 ≤ a ∧ a < 0x038) ∨ (0x040 ≤ a ∧ a < 0x04C) ∨
      (0x100 ≤ a ∧ a < 0x300) ∨ (0x400 ≤ a ∧ a < 0x4C8) ∨ (0x1000 ≤ a ∧ a < 0x1000 + n)) := by
  unfold slotAt
  split_ifs
  case pos => simp; omega
  case pos => rw [controlSlot_ne_none_iff]; omega
  all_goals simp; omega

theorem slotAt_iv (n : Nat) {j : Nat} (hj : j < 3) : slotAt n (0x040 + 4 * j) = some (.iv j) := by
  unfold slotAt
  rw [if_neg (by omega), if_neg (by omega), if_pos (by omega)]
  congr 2
  omega

theorem slotAt_reg (n : Nat) (i : RegNum) {j : Nat} (hj : j < 8) :
    slotAt n (0x100 + 32 * i.toNat + 4 * j) = some (.reg i j) := by
  have hi : i.toNat < 16 := i.isLt
  have hnum : (0x100 + 32 * i.toNat + 4 * j - 0x100) / 32 = i.toNat := by omega
  have hword : (0x100 + 32 * i.toNat + 4 * j - 0x100) % 32 / 4 = j := by omega
  unfold slotAt
  iterate 4 rw [if_neg (by omega)]
  rw [if_pos (by omega), hnum, hword, BitVec.ofNat_toNat, BitVec.setWidth_eq]

theorem slotAt_kstate (n : Nat) {j : Nat} (hj : j < 50) : slotAt n (0x400 + 4 * j) = some (.kstate j) := by
  unfold slotAt
  iterate 6 rw [if_neg (by omega)]
  rw [if_pos (by omega)]
  congr 2
  omega

theorem slotAt_dmem {n o : Nat} (ho : o % 4 = 0) (hn : o < n) : slotAt n (0x1000 + o) = some (.dmem o) := by
  unfold slotAt
  iterate 8 rw [if_neg (by omega)]
  rw [if_pos (by omega), Nat.add_sub_cancel_left]

/-- `CMD` and `STATUS` stand at one address each (spec/20_memory.md R64). -/
theorem slot_ne_cmd_ne_status {n a : Nat} {slot : Slot} (hs : slotAt n a = some slot)
    (ha : a ≠ 0x010 ∧ a ≠ 0x00C) : slot ≠ .cmd ∧ slot ≠ .status := by
  unfold slotAt at hs
  split_ifs at hs
  · unfold controlSlot at hs
    split at hs <;> cases hs <;> simp at ha ⊢
  all_goals cases hs; simp

/-- A mapped address answers a read with a word. -/
theorem State.hostRead32_mapped {s : State} {a : Nat} (hs : slotAt s.params.dmemBytes a ≠ none) :
    ∃ x, s.hostRead32 a = .okRead x := by
  obtain ⟨slot, hslot⟩ := Option.ne_none_iff_exists'.mp hs
  simp [State.hostRead32, hslot]

end Sys2Proof.Machine
end

section
/-! The words of the general registers and of the byte strings (spec/20_memory.md R65, R66; spec/10_state.md R36,
R37): what a word reads, what a write replaces, and that a repeated write is one write (R70). -/

namespace Sys2Proof.Machine

/-! Words of a general register. -/

/-- The mask of one word covers the lowest 32 bits. -/
theorem getLsbD_word_mask (b : Nat) : (0xFFFFFFFF#256).getLsbD b = decide (b < 32) := by
  have h : 0xFFFFFFFF#256 = (BitVec.allOnes 32).setWidth 256 := by decide
  rw [h, BitVec.getLsbD_setWidth, BitVec.getLsbD_allOnes]
  simp
  omega

/-- The bits of a register after a write of word `j`: those of the word, and elsewhere the old ones. -/
theorem getLsbD_putRegWord (r : Reg) {j : Nat} (hj : j < 8) (v : Word) {b : Nat} (hb : b < 256) :
    (putRegWord r j v).getLsbD b
      = if 224 - 32 * j ≤ b ∧ b < 256 - 32 * j then v.getLsbD (b - (224 - 32 * j)) else r.getLsbD b := by
  simp only [putRegWord, BitVec.getLsbD_or, BitVec.getLsbD_and, BitVec.getLsbD_not, BitVec.getLsbD_shiftLeft,
    getLsbD_word_mask, BitVec.getLsbD_setWidth, hb]
  by_cases hlow : b < 224 - 32 * j
  · simp [hlow, Nat.not_le.mpr hlow]
  · have hword : b < 256 - 32 * j ↔ b - (224 - 32 * j) < 32 := by omega
    have hlt : b - (224 - 32 * j) < 256 := by omega
    by_cases hin : b - (224 - 32 * j) < 32
    · simp [hlow, hin, hlt, hword, Nat.not_lt.mp hlow]
    · have hv : v.getLsbD (b - (224 - 32 * j)) = false := BitVec.getLsbD_of_ge _ _ (Nat.not_lt.mp hin)
      simp [hlow, hin, hword, hv]

/-- The word read is the register shifted down, as the integer of R65. -/
theorem regWord_eq_ofNat (r : Reg) (j : Nat) :
    regWord r j = BitVec.ofNat 32 (r.toNat / 2 ^ (224 - 32 * j) % 2 ^ 32) := by
  apply BitVec.eq_of_toNat_eq
  simp [regWord, Nat.shiftRight_eq_div_pow]

/-- A word put twice is put once. -/
theorem putRegWord_putRegWord (r : Reg) {j : Nat} (hj : j < 8) (v : Word) :
    putRegWord (putRegWord r j v) j v = putRegWord r j v := by
  apply BitVec.eq_of_getLsbD_eq
  intro b hb
  simp only [getLsbD_putRegWord _ hj v hb]
  split <;> rfl

/-- A string of `k` bytes sees its number modulo 256^k. -/
theorem be_mod (k v : Nat) : be k (v % 256 ^ k) = be k v := by
  have h := be_beInt (be k v)
  rwa [be_length, beInt_be] at h

/-- A big-endian string of `n` words is its words in turn, the first the most significant. -/
theorem be_four_mul (n v : Nat) :
    be (4 * n) v = (List.range n).flatMap fun j => be 4 (v / 2 ^ (32 * (n - 1 - j))) := by
  induction n with
  | zero => rfl
  | succ n ih =>
    have hfirst : be (4 * (n + 1)) v = be 4 (v / 2 ^ (32 * n)) ++ be (4 * n) v := by
      simp only [be, Nat.mul_succ, Nat.shiftRight_eq_div_pow, Nat.div_div_eq_div_mul, ← pow_add, List.cons_append,
        List.nil_append]
      ring_nf
    rw [hfirst, ih, List.range_succ_eq_map, List.flatMap_cons, List.flatMap_map]
    congr 2
    funext j
    rw [show n + 1 - 1 - (j + 1) = n - 1 - j by omega]

/-- The bytes of the eight words of a register are its string (spec/20_memory.md R65). -/
theorem flatMap_bytesOfWord_regWord (r : Reg) :
    ((List.range 8).map (regWord r)).flatMap bytesOfWord = be256 r := by
  rw [be256, show 32 = 4 * 8 from rfl, be_four_mul, List.flatMap_map]
  apply List.flatMap_congr
  intro j hj
  have hj8 : j < 8 := List.mem_range.mp hj
  rw [bytesOfWord, regWord_eq_ofNat, BitVec.toNat_ofNat, Nat.mod_mod, show 32 * (8 - 1 - j) = 224 - 32 * j by omega]
  exact be_mod 4 _

/-! Words of a byte string. -/

/-- A byte appended below a bit string. -/
theorem toNat_append_byte {n : Nat} (x : BitVec n) (b : Byte) : (x ++ b).toNat = x.toNat * 256 + b.toNat := by
  rw [BitVec.toNat_append, ← Nat.shiftLeft_add_eq_or_of_lt b.isLt, Nat.shiftLeft_eq]

/-- Four bytes make the word that is their concatenation, the first in bits 31:24 (spec/20_memory.md R67). -/
theorem wordOfBytes_four (a b c d : Byte) : wordOfBytes [a, b, c, d] = a ++ b ++ c ++ d := by
  apply BitVec.eq_of_toNat_eq
  have hint : beInt [a, b, c, d] = (a ++ b ++ c ++ d).toNat := by
    simp [beInt, toNat_append_byte]
  rw [wordOfBytes, BitVec.toNat_ofNat, hint]
  exact Nat.mod_eq_of_lt (a ++ b ++ c ++ d).isLt

/-- Byte `k` of a word is its bits `31-8*k` to `24-8*k` (spec/20_memory.md R67). -/
theorem getD_bytesOfWord (v : Word) {k : Nat} (hk : k < 4) :
    (bytesOfWord v).getD k 0 = v.extractLsb' (24 - 8 * k) 8 := by
  interval_cases k <;> rfl

/-- Four bytes of a string, one by one. -/
theorem take_four_drop (l : List Byte) {i : Nat} (h : i + 4 ≤ l.length) :
    (l.drop i).take 4 = [l.getD i 0, l.getD (i + 1) 0, l.getD (i + 2) 0, l.getD (i + 3) 0] := by
  apply List.ext_getElem
  · simp; omega
  · intro k hk _
    have hk4 : k < 4 := by simp at hk; omega
    interval_cases k <;> simp [show i < l.length by omega, show i + 1 < l.length by omega,
      show i + 2 < l.length by omega, show i + 3 < l.length by omega]

/-- Word `j` of a byte string is the concatenation of its four bytes. -/
theorem packedWord_eq_append {n : Nat} (v : Vector Byte n) {j : Nat} (h : 4 * j + 4 ≤ n) :
    packedWord v j = v.toList.getD (4 * j) 0 ++ v.toList.getD (4 * j + 1) 0 ++ v.toList.getD (4 * j + 2) 0
      ++ v.toList.getD (4 * j + 3) 0 := by
  rw [packedWord, take_four_drop _ (by simpa using h), wordOfBytes_four]

/-- A byte of a vector after a string was put into it: of the string inside its range, and elsewhere the old one. -/
theorem getElem_putBytes {n : Nat} (bytes : List Byte) (v : Vector Byte n) (pos : Nat) {k : Nat} (hk : k < n) :
    (putBytes v pos bytes)[k] = if pos ≤ k ∧ k < pos + bytes.length then bytes.getD (k - pos) 0 else v[k] := by
  induction bytes generalizing v pos with
  | nil => simp [putBytes]
  | cons b rest ih =>
    rw [putBytes, ih, Vector.getElem_setIfInBounds]
    obtain hlt | rfl | hgt := Nat.lt_trichotomy k pos
    · simp [show ¬ pos + 1 ≤ k by omega, show ¬ pos ≤ k by omega, show ¬ pos = k by omega]
    · simp
    · have hrest : k - pos = k - (pos + 1) + 1 := by omega
      have hend : pos + 1 + rest.length = pos + (b :: rest).length := by simp only [List.length_cons]; omega
      rw [hrest, hend, List.getD_cons_succ]
      simp [show pos + 1 ≤ k by omega, show pos ≤ k by omega, show ¬ pos = k by omega]

/-- A string put twice is put once. -/
theorem putBytes_putBytes {n : Nat} (v : Vector Byte n) (pos : Nat) (bytes : List Byte) :
    putBytes (putBytes v pos bytes) pos bytes = putBytes v pos bytes := by
  apply Vector.ext
  intro k hk
  simp only [getElem_putBytes _ _ _ hk]
  split <;> rfl

/-- A word put into a byte string replaces its four bytes (spec/10_state.md R36, R37). -/
theorem getD_putBytes_bytesOfWord {n : Nat} (v : Vector Byte n) (pos : Nat) (w : Word) {k : Nat} (hk : k < n) :
    (putBytes v pos (bytesOfWord w)).toList.getD k 0
      = if pos ≤ k ∧ k < pos + 4 then w.extractLsb' (24 - 8 * (k - pos)) 8 else v.toList.getD k 0 := by
  have hget : ∀ u : Vector Byte n, u.toList.getD k 0 = u[k] := fun u => by simp [hk]
  rw [hget, hget, getElem_putBytes _ _ _ hk, bytesOfWord_length]
  split
  next hin => exact getD_bytesOfWord w (by omega)
  next => rfl

/-! Words of DMEM. -/

theorem State.wordOfBytes_memRead (s : State) (o : Nat) :
    wordOfBytes (s.memRead o 4) = s.dmem.readByte o ++ s.dmem.readByte (o + 1) ++ s.dmem.readByte (o + 2)
      ++ s.dmem.readByte (o + 3) :=
  wordOfBytes_four _ _ _ _

/-- A word written to DMEM puts its four bytes there in order (spec/20_memory.md R66). -/
theorem Memory.readByte_writeBytes_bytesOfWord (m : Memory) (o : Nat) (w : Word) {k : Nat} (hk : k < 4) :
    (m.writeBytes o (bytesOfWord w)).readByte (o + k) = w.extractLsb' (24 - 8 * k) 8 := by
  rw [Memory.readByte_writeBytes_inside _ _ _ _ (by simpa using hk), ← getD_bytesOfWord w hk]
  simp [hk]

/-- A cell of a list with rising offsets is what is read at its offset. -/
theorem Memory.readByte_of_mem {m : Memory} (hp : m.Pairwise fun c d => c.1 < d.1) {c : Host.Cell} (hc : c ∈ m) :
    m.readByte c.1 = c.2 := by
  induction m with
  | nil => cases hc
  | cons d rest ih =>
    obtain ⟨hd, hrest⟩ := List.pairwise_cons.mp hp
    rcases List.mem_cons.mp hc with rfl | hin
    · simp [Memory.readByte]
    · have hne : d.1 ≠ c.1 := (hd c hin).ne
      simp [Memory.readByte, hne, ih hrest hin]

/-- A byte other than the unlisted one is read from a cell. -/
theorem Memory.mem_of_readByte {m : Memory} {a : Nat} (h : m.readByte a ≠ Memory.unlisted) :
    (a, m.readByte a) ∈ m := by
  induction m with
  | nil => exact absurd rfl h
  | cons d rest ih =>
    by_cases hd : d.1 = a
    · subst hd
      simp [Memory.readByte]
    · simp only [Memory.readByte, hd, if_false] at h ⊢
      exact List.mem_cons_of_mem _ (ih h)

/-- In the canonical form the cells are the bytes other than the unlisted one. -/
theorem Memory.mem_iff_of_wf {m : Memory} (h : m.wf = true) (c : Host.Cell) :
    c ∈ m ↔ m.readByte c.1 = c.2 ∧ c.2 ≠ Memory.unlisted := by
  obtain ⟨hp, hv⟩ := (Memory.wf_iff m).mp h
  constructor
  · exact fun hc => ⟨Memory.readByte_of_mem hp hc, hv c hc⟩
  · rintro ⟨hread, hne⟩
    rw [← hread] at hne
    simpa only [hread] using Memory.mem_of_readByte hne

/-- A memory in canonical form is determined by its bytes. -/
theorem Memory.ext_of_wf {m m' : Memory} (h : m.wf = true) (h' : m'.wf = true)
    (hread : ∀ a, m.readByte a = m'.readByte a) : m = m' := by
  refine List.Pairwise.eq_of_mem_iff ((Memory.wf_iff m).mp h).1 ((Memory.wf_iff m').mp h').1 fun c => ?_
  rw [Memory.mem_iff_of_wf h, Memory.mem_iff_of_wf h', hread]

/-- The same string written twice to a memory in canonical form is written once. -/
theorem Memory.writeBytes_writeBytes {m : Memory} (h : m.wf = true) (off : Nat) (bytes : List Byte) :
    (m.writeBytes off bytes).writeBytes off bytes = m.writeBytes off bytes := by
  have hw : (m.writeBytes off bytes).wf = true := Memory.wf_writeBytes bytes off h
  refine Memory.ext_of_wf (Memory.wf_writeBytes bytes off hw) hw fun a => ?_
  by_cases hin : off ≤ a ∧ a < off + bytes.length
  · obtain ⟨i, rfl⟩ := Nat.exists_eq_add_of_le hin.1
    have hi : i < bytes.length := by omega
    rw [Memory.readByte_writeBytes_inside _ _ _ _ hi, Memory.readByte_writeBytes_inside _ _ _ _ hi]
  · exact Memory.readByte_writeBytes_outside _ _ _ _ (by omega)

/-! Host writes, taken twice or to a word without side effects (spec/20_memory.md R70). -/

/-- The slot of word `j` of a register has `j` below 8. -/
theorem slotAt_reg_lt {n a j : Nat} {i : RegNum} (hs : slotAt n a = some (.reg i j)) : j < 8 := by
  unfold slotAt at hs
  split_ifs at hs
  · unfold controlSlot at hs
    split at hs <;> cases hs
  · cases hs
  · have hword : (a - 0x100) % 32 / 4 = j := (Slot.reg.inj (Option.some.inj hs)).2
    omega
  · cases hs
  · cases hs

/-- An accepted write taken twice is taken once, by the kind of the word. -/
theorem State.writeSlot_writeSlot {s : State} (hwf : s.dmem.wf = true) {a : Nat} {slot : Slot}
    (hs : slotAt s.params.dmemBytes a = some slot) (v : Word) :
    (s.writeSlot slot v).writeSlot slot v = s.writeSlot slot v := by
  cases slot with
  | id | version | result | dstLen => rfl
  | ctrl | srcOff | srcLen | aadOff | aadLen | dstOff | cmd => rfl
  | status =>
    simp only [State.writeSlot_status]
    split <;> rfl
  | iv j => simp only [State.writeSlot, putBytes_putBytes]
  | kstate j => simp only [State.writeSlot, putBytes_putBytes]
  | reg i j =>
    simp only [State.writeSlot, State.reg_setReg_self, putRegWord_putRegWord _ (slotAt_reg_lt hs)]
    simp [State.setReg]
  | dmem off => simp only [State.writeSlot, State.memWrite, Memory.writeBytes_writeBytes hwf]

/-- A host write taken twice is taken once; after an issue the second finds the block busy (spec/10_state.md R48). -/
theorem State.hostWrite32_hostWrite32 {s : State} (hwf : s.dmem.wf = true) (a : Nat) (v : Word) :
    ((s.hostWrite32 a v).1.hostWrite32 a v).1 = (s.hostWrite32 a v).1 := by
  cases hs : slotAt s.params.dmemBytes a with
  | none => simp only [State.hostWrite32_unmapped hs]
  | some slot =>
    cases hb : s.status.busy with
    | true => simp only [State.hostWrite32_busy hs hb]
    | false =>
      have hs' : slotAt (s.writeSlot slot v).params.dmemBytes a = some slot := by
        rw [(HostCannotReach.writeSlot s slot v).params, hs]
      rw [State.hostWrite32_idle hs hb]
      cases hb' : (s.writeSlot slot v).status.busy with
      | true => rw [State.hostWrite32_busy hs' hb']
      | false =>
        rw [State.hostWrite32_idle hs' hb']
        exact State.writeSlot_writeSlot hwf hs v

/-- A write to a word other than `CMD` and `STATUS` leaves the report and the word in execution. -/
theorem State.writeSlot_keeps_report (s : State) {slot : Slot} (h : slot ≠ .cmd ∧ slot ≠ .status) (v : Word) :
    (s.writeSlot slot v).status = s.status ∧ (s.writeSlot slot v).result = s.result ∧
    (s.writeSlot slot v).cmd = s.cmd := by
  cases slot with
  | cmd => exact absurd rfl h.1
  | status => exact absurd rfl h.2
  | _ => exact ⟨rfl, rfl, rfl⟩

theorem State.hostWrite32_keeps_report (s : State) {a : Nat} (ha : a ≠ 0x010 ∧ a ≠ 0x00C) (v : Word) :
    (s.hostWrite32 a v).1.status = s.status ∧ (s.hostWrite32 a v).1.result = s.result ∧
    (s.hostWrite32 a v).1.cmd = s.cmd := by
  cases hs : slotAt s.params.dmemBytes a with
  | none =>
    rw [State.hostWrite32_unmapped hs]
    exact ⟨rfl, rfl, rfl⟩
  | some slot =>
    cases hb : s.status.busy with
    | true =>
      rw [State.hostWrite32_busy hs hb]
      exact ⟨rfl, rfl, rfl⟩
    | false =>
      rw [State.hostWrite32_idle hs hb]
      exact s.writeSlot_keeps_report (slot_ne_cmd_ne_status hs ha) v

end Sys2Proof.Machine

namespace Sys2Proof.Proofs

open Sys2Proof.Machine

/-- Settles O12: the ranges of the statement are the mapped addresses, and the response is a matter of the map. -/
theorem portAcceptsMappedWords : Obligations.PortAcceptsMappedWords := by
  unfold Obligations.PortAcceptsMappedWords
  intro s a v
  split
  next haddr =>
    have hmapped : slotAt s.params.dmemBytes a ≠ none := (slotAt_ne_none_iff _ a).mpr haddr
    exact ⟨State.hostRead32_mapped hmapped, (s.hostWrite32_response a v).trans (if_neg hmapped)⟩
  next haddr =>
    have hs : slotAt s.params.dmemBytes a = none :=
      not_not.mp fun hmapped => haddr ((slotAt_ne_none_iff _ a).mp hmapped)
    exact ⟨State.hostRead32_unmapped hs, State.hostWrite32_unmapped hs v⟩

/-- Settles O15: the slot at each of the eight addresses, and the bits of its read and its write. -/
theorem registerWords : Obligations.RegisterWords := by
  unfold Obligations.RegisterWords
  intro s i j v hb hj
  have hread : ∀ k, k < 8 → s.hostRead32 (0x100 + 32 * i.toNat + 4 * k) = .okRead (regWord (s.reg i) k) :=
    fun k hk => State.hostRead32_idle (slotAt_reg _ i hk) hb
  refine ⟨?_, ?_, s.setReg i (putRegWord (s.reg i) j v), State.hostWrite32_idle (slotAt_reg _ i hj) hb v, ?_, ?_, rfl⟩
  · rw [hread j hj, regWord_eq_ofNat, State.regNat]
  · have hwords : s.rdWords (0x100 + 32 * i.toNat) 8 = (List.range 8).map (regWord (s.reg i)) :=
      List.map_congr_left fun k hk => by rw [State.rd, hread k (List.mem_range.mp hk)]
    rw [hwords, flatMap_bytesOfWord_regWord]
  · intro b hbit
    rw [State.reg_setReg_self]
    exact getLsbD_putRegWord _ hj v hbit
  · exact fun k hk => s.reg_setReg_of_ne _ hk

/-- Settles O16: for each of the three strings the slot at the address, its four bytes read and its four bytes
put. -/
theorem byteStringWords : Obligations.ByteStringWords := by
  unfold Obligations.ByteStringWords
  refine ⟨fun s o v hb ho hend => ?_, fun s j v hb hj => ?_, fun s j v hb hj => ?_⟩
  · have hs : slotAt s.params.dmemBytes (0x1000 + o) = some (.dmem o) := slotAt_dmem ho (by omega)
    exact ⟨(State.hostRead32_idle hs hb).trans (congrArg _ (s.wordOfBytes_memRead o)),
      s.memWrite o (bytesOfWord v), State.hostWrite32_idle hs hb v,
      fun k hk => s.dmem.readByte_writeBytes_bytesOfWord o v hk,
      fun a ha => Memory.readByte_writeBytes_outside _ _ _ _ (by simpa using ha), rfl⟩
  · have hs := slotAt_iv s.params.dmemBytes hj
    exact ⟨(State.hostRead32_idle hs hb).trans (congrArg _ (packedWord_eq_append s.iv (by omega))),
      { s with iv := putBytes s.iv (4 * j) (bytesOfWord v) }, State.hostWrite32_idle hs hb v, rfl,
      fun k hk => getD_putBytes_bytesOfWord s.iv (4 * j) v hk⟩
  · have hs := slotAt_kstate s.params.dmemBytes hj
    exact ⟨(State.hostRead32_idle hs hb).trans (congrArg _ (packedWord_eq_append s.kstate (by omega))),
      { s with kstate := putBytes s.kstate (4 * j) (bytesOfWord v) }, State.hostWrite32_idle hs hb v, rfl,
      fun k hk => getD_putBytes_bytesOfWord s.kstate (4 * j) v hk⟩

/-- Settles O17: a read as an event records its response only; a repeated write is absorbed; the slots of all other
addresses leave the report alone. -/
theorem onlyTwoWordsHaveSideEffects : Obligations.OnlyTwoWordsHaveSideEffects := by
  unfold Obligations.OnlyTwoWordsHaveSideEffects
  refine ⟨fun s a rest hs => ?_, fun s a v hwf => State.hostWrite32_hostWrite32 hwf a v,
    fun s a v hcmd hstatus => s.hostWrite32_keeps_report ⟨hcmd, hstatus⟩ v⟩
  have hstep : step s = .next { s with schedule := rest, response := some (s.hostRead32 a) } := step_of_event hs
  refine ⟨hstep, fun t ht => ?_⟩
  rw [← Host.Outcome.next.inj (hstep.symm.trans ht)]
  rfl

end Sys2Proof.Proofs
end

section
/-! The command word (spec/30_encoding.md R90 to R96): what a field reads from a word put together by `atBit`, how a
word falls into its fixed bits and its operand fields, and the two things `decode` can do with an opcode byte. -/

namespace Sys2Proof

/-- The opcode byte stands at place 0 (R90). -/
theorem atBit_zero {width : Nat} (f : BitVec width) : atBit 0 f = f.setWidth 32 := BitVec.shiftLeft_zero _

/-- A field reads back what was put at its place. -/
theorem extractLsb'_atBit_self {width lo : Nat} (f : BitVec width) (h : lo + width ≤ 32) :
    (atBit lo f).extractLsb' lo width = f := by
  ext k hk
  simp only [atBit, BitVec.getElem_extractLsb', BitVec.getLsbD_shiftLeft, BitVec.getLsbD_setWidth,
    Nat.add_sub_cancel_left, BitVec.getLsbD_eq_getElem hk]
  simp [show lo + k < 32 by omega, show k < 32 by omega]

/-- What was put at another place leaves a field 0. -/
theorem extractLsb'_atBit_of_disjoint {width lo lo' len : Nat} (f : BitVec width)
    (h : lo + width ≤ lo' ∨ lo' + len ≤ lo) : (atBit lo f).extractLsb' lo' len = 0 := by
  ext k hk
  simp only [atBit, BitVec.getElem_extractLsb', BitVec.getLsbD_shiftLeft, BitVec.getLsbD_setWidth]
  by_cases hlo : lo' + k < lo
  · simp [hlo]
  · simp [BitVec.getLsbD_of_ge f (lo' + k - lo) (by omega)]

/-- A field put back at its place is the word with all other bits cleared. -/
theorem atBit_extractLsb' (w : Word) (lo len : Nat) :
    atBit lo (w.extractLsb' lo len) = w &&& atBit lo (BitVec.allOnes len) := by
  ext k hk
  by_cases hlo : k < lo
  · simp [atBit, hlo]
  · simp [atBit, hlo, BitVec.getLsbD_eq_getElem hk, Bool.and_comm,
      Nat.add_sub_cancel' (Nat.not_lt.mp hlo)]

/-- `msel` is the modulus whose bit the word has at place 20 (R90). -/
theorem mselField_eq_of_extractLsb' {w : Word} {m : Modulus} (h : w.extractLsb' 20 1 = mselBit m) :
    mselField w = m := by
  have hbit : w.getLsbD 20 = (mselBit m).getLsbD 0 := by rw [← h]; simp
  cases m <;> rw [mselField, hbit] <;> rfl

/-- `comp` is the point form whose bit the word has at place 8 (R90). -/
theorem compField_eq_of_extractLsb' {w : Word} {c : PointForm} (h : w.extractLsb' 8 1 = compBit c) :
    compField w = c := by
  have hbit : w.getLsbD 8 = (compBit c).getLsbD 0 := by rw [← h]; simp
  cases c <;> rw [compField, hbit] <;> rfl

theorem mselBit_mselField (w : Word) : mselBit (mselField w) = w.extractLsb' 20 1 := by
  rcases BitVec.eq_zero_or_eq_one (w.extractLsb' 20 1) with h | h
  · rw [mselField_eq_of_extractLsb' (m := .fieldP) h, h]; rfl
  · rw [mselField_eq_of_extractLsb' (m := .orderN) h, h]; rfl

theorem compBit_compField (w : Word) : compBit (compField w) = w.extractLsb' 8 1 := by
  rcases BitVec.eq_zero_or_eq_one (w.extractLsb' 8 1) with h | h
  · rw [compField_eq_of_extractLsb' (c := .uncompressed) h, h]; rfl
  · rw [compField_eq_of_extractLsb' (c := .compressed) h, h]; rfl

/-- A command with the operands that its format has read from a word (R90, R91): what `rowOf` makes of the opcode
byte of the command. -/
def Instr.readFrom (w : Word) : Instr → Instr
  | .montMul .. => .montMul (rdField w) (raField w) (rbField w) (mselField w)
  | .toMont .. => .toMont (rdField w) (raField w) (mselField w)
  | .fromMont .. => .fromMont (rdField w) (raField w) (mselField w)
  | .modMul .. => .modMul (rdField w) (raField w) (rbField w) (mselField w)
  | .modAdd .. => .modAdd (rdField w) (raField w) (rbField w) (mselField w)
  | .modSub .. => .modSub (rdField w) (raField w) (rbField w) (mselField w)
  | .modInv .. => .modInv (rdField w) (raField w) (mselField w)
  | .modRed .. => .modRed (rdField w) (raField w) (mselField w)
  | .pkEncode _ => .pkEncode (compField w)
  | .keccakFinal _ => .keccakFinal (rdField w)
  | .keccak256 _ => .keccak256 (rdField w)
  | .aes256Enc _ => .aes256Enc (raField w)
  | .gcmEnc _ => .gcmEnc (raField w)
  | .gcmDec _ => .gcmDec (raField w)
  | i => i

/-- Reading the operands keeps the row. -/
@[simp] theorem Instr.format_readFrom (w : Word) (i : Instr) : (i.readFrom w).format = i.format := by
  cases i <;> rfl

@[simp] theorem opcode_readFrom (w : Word) (i : Instr) : opcode (i.readFrom w) = opcode i := by
  cases i <;> rfl

/-- An opcode byte of R94 picks the row of its command. -/
theorem rowOf_of_opField {w : Word} {i : Instr} (h : opField w = opcode i) : rowOf w = some (i.readFrom w) := by
  unfold rowOf
  rw [h]
  cases i <;> rfl

/-- And a row is picked by the opcode byte of its command only. -/
theorem opField_of_rowOf {w : Word} {i : Instr} (h : rowOf w = some i) : opField w = opcode i := by
  unfold rowOf at h
  split at h <;> cases h <;> exact BitVec.eq_of_toNat_eq ‹_›

/-- What `decode` does with an opcode byte of R94. -/
theorem decode_of_opField {w : Word} {i : Instr} (h : opField w = opcode i) :
    decode w =
      if w &&& formatMask i.format = (opcode i).setWidth 32 then .ok (i.readFrom w) else .error (.strayBits w) := by
  simp only [decode, rowOf_of_opField h, Instr.format_readFrom, h]

/-- What `decode` does with any other opcode byte. -/
theorem decode_of_reserved {w : Word} (h : ∀ i, opField w ≠ opcode i) :
    decode w = .error (.reservedOpcode (opField w)) := by
  have hrow : rowOf w = none := Option.eq_none_iff_forall_ne_some.mpr fun i hi => h i (opField_of_rowOf hi)
  simp only [decode, hrow]

/-- The opcode byte is in the fixed bits of every format (R91). -/
theorem opField_of_masked {w : Word} {i : Instr} (h : w &&& formatMask i.format = (opcode i).setWidth 32) :
    opField w = opcode i := by
  have hlow : opField (w &&& formatMask i.format) = opField w := by
    cases i.format <;> exact BitVec.extractLsb'_and.trans (BitVec.and_allOnes)
  rw [← hlow, h, ← atBit_zero]
  exact extractLsb'_atBit_self _ (by decide)

end Sys2Proof

namespace Sys2Proof.Laws.EncodedRow

/-- The family for every command. -/
theorem statement (i : Instr) : Statement i :=
  match i with
  | .nop => nop
  | .zeroize => zeroize
  | .montMul rd ra rb m => montMul rd ra rb m
  | .toMont rd ra m => toMont rd ra m
  | .fromMont rd ra m => fromMont rd ra m
  | .modMul rd ra rb m => modMul rd ra rb m
  | .modAdd rd ra rb m => modAdd rd ra rb m
  | .modSub rd ra rb m => modSub rd ra rb m
  | .modInv rd ra m => modInv rd ra m
  | .modRed rd ra m => modRed rd ra m
  | .pmulG => pmulG
  | .pmul => pmul
  | .derive => derive
  | .pkEncode c => pkEncode c
  | .pkDecode => pkDecode
  | .nonceFirst => nonceFirst
  | .nonceNext => nonceNext
  | .signK => signK
  | .ecdsaSign => ecdsaSign
  | .ecdsaVerify => ecdsaVerify
  | .keccakF1600 => keccakF1600
  | .keccakInit => keccakInit
  | .keccakAbsorb => keccakAbsorb
  | .keccakFinal rd => keccakFinal rd
  | .keccak256 rd => keccak256 rd
  | .aes256Enc ra => aes256Enc ra
  | .gcmEnc ra => gcmEnc ra
  | .gcmDec ra => gcmDec ra

end Sys2Proof.Laws.EncodedRow

namespace Sys2Proof

/-- The bits of an encoded word that its format fixes (R91). -/
theorem encode_and_formatMask (i : Instr) : encode i &&& formatMask i.format = (opcode i).setWidth 32 :=
  (Laws.EncodedRow.statement i).1

theorem opField_encode (i : Instr) : opField (encode i) = opcode i := (Laws.EncodedRow.statement i).2

/-- The four fields of a word put together as format M3 (R91). -/
theorem fields_formatM3 (op : BitVec 8) (rd ra rb : RegNum) (m : Modulus) :
    let w := atBit 0 op ||| atBit 8 rd ||| atBit 12 ra ||| atBit 16 rb ||| atBit 20 (mselBit m)
    rdField w = rd ∧ raField w = ra ∧ rbField w = rb ∧ mselField w = m := by
  refine ⟨?_, ?_, ?_, mselField_eq_of_extractLsb' ?_⟩ <;>
    simp [rdField, raField, rbField, BitVec.extractLsb'_or, extractLsb'_atBit_self, extractLsb'_atBit_of_disjoint]

/-- The three fields of a word put together as format M2 (R91). -/
theorem fields_formatM2 (op : BitVec 8) (rd ra : RegNum) (m : Modulus) :
    let w := atBit 0 op ||| atBit 8 rd ||| atBit 12 ra ||| atBit 20 (mselBit m)
    rdField w = rd ∧ raField w = ra ∧ mselField w = m := by
  refine ⟨?_, ?_, mselField_eq_of_extractLsb' ?_⟩ <;>
    simp [rdField, raField, BitVec.extractLsb'_or, extractLsb'_atBit_self, extractLsb'_atBit_of_disjoint]

theorem rdField_formatRD (op : BitVec 8) (rd : RegNum) : rdField (atBit 0 op ||| atBit 8 rd) = rd := by
  simp [rdField, BitVec.extractLsb'_or, extractLsb'_atBit_self, extractLsb'_atBit_of_disjoint]

theorem raField_formatRA (op : BitVec 8) (ra : RegNum) : raField (atBit 0 op ||| atBit 12 ra) = ra := by
  simp [raField, BitVec.extractLsb'_or, extractLsb'_atBit_self, extractLsb'_atBit_of_disjoint]

theorem compField_formatC (op : BitVec 8) (c : PointForm) :
    compField (atBit 0 op ||| atBit 8 (compBit c)) = c := by
  apply compField_eq_of_extractLsb'
  simp [BitVec.extractLsb'_or, extractLsb'_atBit_self, extractLsb'_atBit_of_disjoint]

/-- The operands of a command are read back from its word. -/
theorem readFrom_encode (i : Instr) : i.readFrom (encode i) = i := by
  cases i
  case montMul | modMul | modAdd | modSub => simp only [Instr.readFrom, encode, fields_formatM3]
  case toMont | fromMont | modInv | modRed => simp only [Instr.readFrom, encode, fields_formatM2]
  case keccakFinal | keccak256 => simp only [Instr.readFrom, encode, rdField_formatRD]
  case aes256Enc | gcmEnc | gcmDec => simp only [Instr.readFrom, encode, raField_formatRA]
  case pkEncode => simp only [Instr.readFrom, encode, compField_formatC]
  all_goals rfl

/-- The fields of each format, put back in their places, are the bits of the word that the format lets vary
(R91). -/
theorem operandBits_formatM3 (w : Word) :
    atBit 8 (rdField w) ||| atBit 12 (raField w) ||| atBit 16 (rbField w) ||| atBit 20 (mselBit (mselField w)) =
      w &&& ~~~formatMask .formatM3 := by
  simp only [rdField, raField, rbField, mselBit_mselField, atBit_extractLsb', ← BitVec.and_or_distrib_left]
  rfl

theorem operandBits_formatM2 (w : Word) :
    atBit 8 (rdField w) ||| atBit 12 (raField w) ||| atBit 20 (mselBit (mselField w)) =
      w &&& ~~~formatMask .formatM2 := by
  simp only [rdField, raField, mselBit_mselField, atBit_extractLsb', ← BitVec.and_or_distrib_left]
  rfl

theorem operandBits_formatRD (w : Word) : atBit 8 (rdField w) = w &&& ~~~formatMask .formatRD :=
  atBit_extractLsb' w 8 4

theorem operandBits_formatRA (w : Word) : atBit 12 (raField w) = w &&& ~~~formatMask .formatRA :=
  atBit_extractLsb' w 12 4

theorem operandBits_formatC (w : Word) : atBit 8 (compBit (compField w)) = w &&& ~~~formatMask .formatC := by
  rw [compBit_compField]
  exact atBit_extractLsb' w 8 1

/-- The word of a command whose operands were read from `w`: the opcode byte, and the bits of `w` that the format
lets vary (R91). -/
theorem encode_readFrom (w : Word) (i : Instr) :
    encode (i.readFrom w) = atBit 0 (opcode i) ||| (w &&& ~~~formatMask i.format) := by
  cases i
  case montMul | modMul | modAdd | modSub =>
    simp only [Instr.format, ← operandBits_formatM3, ← BitVec.or_assoc]; rfl
  case toMont | fromMont | modInv | modRed =>
    simp only [Instr.format, ← operandBits_formatM2, ← BitVec.or_assoc]; rfl
  case keccakFinal | keccak256 => simp only [Instr.format, ← operandBits_formatRD]; rfl
  case aes256Enc | gcmEnc | gcmDec => simp only [Instr.format, ← operandBits_formatRA]; rfl
  case pkEncode => simp only [Instr.format, ← operandBits_formatC]; rfl
  all_goals simp [Instr.format, formatMask, Instr.readFrom, encode]

end Sys2Proof
end

section
/-! The decoder against the encoder and against the rows (spec/30_encoding.md R91, R94 to R96). -/

namespace Sys2Proof

/-- The decoder undoes the encoder. -/
theorem decode_encode (i : Instr) : decode (encode i) = .ok i := by
  rw [decode_of_opField (opField_encode i), if_pos (encode_and_formatMask i), readFrom_encode]

/-- An accepted word has its command's opcode byte, the fixed bits of its format, and its operands. -/
theorem decode_eq_ok {w : Word} {i : Instr} (h : decode w = .ok i) :
    w &&& formatMask i.format = (opcode i).setWidth 32 ∧ i.readFrom w = i := by
  unfold decode at h
  split at h
  · cases h
  next j hrow =>
    split_ifs at h with hmask
    cases h
    have hop := opField_of_rowOf hrow
    exact ⟨hop ▸ hmask, Option.some.inj ((rowOf_of_opField hop).symm.trans hrow)⟩

/-- The encoder undoes the decoder: the fixed bits of the word are the opcode byte, and all other bits are operands. -/
theorem encode_of_decode {w : Word} {i : Instr} (h : decode w = .ok i) : encode i = w := by
  obtain ⟨hmask, hread⟩ := decode_eq_ok h
  calc encode i = encode (i.readFrom w) := by rw [hread]
    _ = (w &&& formatMask i.format) ||| (w &&& ~~~formatMask i.format) := by
      rw [encode_readFrom, atBit_zero, hmask]
    _ = w := by rw [← BitVec.and_or_distrib_left, BitVec.or_not_self, BitVec.and_allOnes]

/-- The row of a command as a pair (match, mask) of R94. -/
def Instr.row (i : Instr) : Word × Word := ((opcode i).setWidth 32, formatMask i.format)

theorem row_readFrom (w : Word) (i : Instr) : (i.readFrom w).row = i.row := by
  simp only [Instr.row, opcode_readFrom, Instr.format_readFrom]

/-- The table of R94 is the rows of the commands. -/
theorem mem_opcodeRows_iff (row : Word × Word) : row ∈ opcodeRows ↔ ∃ i : Instr, i.row = row := by
  constructor
  · intro h
    have hrow : (rowOf row.1).map Instr.row = some row := by fin_cases h <;> rfl
    obtain ⟨i, -, hi⟩ := Option.map_eq_some_iff.mp hrow
    exact ⟨i, hi⟩
  · rintro ⟨i, rfl⟩
    cases i <;> simp [Instr.row, opcodeRows, opcode, Instr.format, formatMask]

/-- A property of some row of the table is one of some command's row; one of all rows is one of all commands' rows. -/
theorem exists_mem_opcodeRows {P : Word × Word → Prop} : (∃ row ∈ opcodeRows, P row) ↔ ∃ i : Instr, P i.row := by
  simp only [mem_opcodeRows_iff, exists_exists_eq_and]

theorem forall_mem_opcodeRows {P : Word × Word → Prop} : (∀ row ∈ opcodeRows, P row) ↔ ∀ i : Instr, P i.row := by
  simp only [mem_opcodeRows_iff, forall_exists_index, forall_apply_eq_imp_iff]

/-- A row has the opcode byte of a word when its match is that byte. -/
theorem row_match_eq_iff {w : Word} {i : Instr} : i.row.1 = (opField w).setWidth 32 ↔ opField w = opcode i := by
  constructor
  · intro h
    have h8 := congrArg (BitVec.extractLsb' 0 8) h
    rw [Instr.row, ← atBit_zero, ← atBit_zero, extractLsb'_atBit_self _ (by decide),
      extractLsb'_atBit_self _ (by decide)] at h8
    exact h8.symm
  · intro h
    rw [h]
    rfl

/-- Commands with one opcode byte have one row. -/
theorem row_eq_of_opcode_eq {i j : Instr} (h : opcode i = opcode j) : i.row = j.row := by
  have hi := rowOf_of_opField (opField_encode i)
  have hj := rowOf_of_opField ((opField_encode i).trans h)
  rw [← row_readFrom (encode i) i, ← row_readFrom (encode i) j, Option.some.inj (hi.symm.trans hj)]

/-- The words accepted are those with the fixed bits of some row. -/
theorem decode_isOk_iff (w : Word) : (∃ i, decode w = .ok i) ↔ ∃ i : Instr, w &&& i.row.2 = i.row.1 := by
  constructor
  · rintro ⟨i, h⟩
    exact ⟨i, (decode_eq_ok h).1⟩
  · rintro ⟨i, h⟩
    exact ⟨i.readFrom w, (decode_of_opField (opField_of_masked h)).trans (if_pos h)⟩

/-- The words refused as reserved are those with an opcode byte of no row. -/
theorem decode_eq_reservedOpcode_iff (w : Word) :
    decode w = .error (.reservedOpcode (opField w)) ↔ ∀ i, opField w ≠ opcode i := by
  refine ⟨fun h i hi => ?_, decode_of_reserved⟩
  rw [decode_of_opField hi] at h
  split_ifs at h
  cases h

/-- The words refused for stray bits are those with the opcode byte of a row and other fixed bits than the row's. -/
theorem decode_eq_strayBits_iff (w : Word) :
    decode w = .error (.strayBits w) ↔ ∃ i, opField w = opcode i ∧ w &&& i.row.2 ≠ i.row.1 := by
  constructor
  · intro h
    by_cases hop : ∃ i, opField w = opcode i
    · obtain ⟨i, hi⟩ := hop
      refine ⟨i, hi, fun hmask => ?_⟩
      cases h.symm.trans ((decode_of_opField hi).trans (if_pos hmask))
    · rw [decode_of_reserved (not_exists.mp hop)] at h
      cases h
  · rintro ⟨i, hi, hmask⟩
    exact (decode_of_opField hi).trans (if_neg hmask)

end Sys2Proof

namespace Sys2Proof.Proofs

/-- Settles O1: the opcode byte picks the command's row, its fixed bits are right, and its operands are read back. -/
theorem decodeEncodeCommand : Obligations.DecodeEncodeCommand := by
  unfold Obligations.DecodeEncodeCommand
  exact fun i _ => decode_encode i

/-- Settles O2: an accepted word is its fixed bits and its operand bits, and the encoder writes both. -/
theorem encodeDecodeWord : Obligations.EncodeDecodeWord := by
  unfold Obligations.EncodeDecodeWord
  exact fun _ _ => encode_of_decode

/-- Settles O3: the rows of the table are the rows of the commands, and what the decoder answers turns on the opcode
byte and the fixed bits alone. -/
theorem decodeAcceptsTableWords : Obligations.DecodeAcceptsTableWords := by
  unfold Obligations.DecodeAcceptsTableWords
  refine ⟨fun w => ?_, fun w r₁ r₂ h₁ h₂ hw₁ hw₂ => ?_, fun w => ?_, fun w => ?_⟩
  · rw [decode_isOk_iff, exists_mem_opcodeRows]
  · obtain ⟨i, rfl⟩ := (mem_opcodeRows_iff r₁).mp h₁
    obtain ⟨j, rfl⟩ := (mem_opcodeRows_iff r₂).mp h₂
    exact row_eq_of_opcode_eq ((opField_of_masked hw₁).symm.trans (opField_of_masked hw₂))
  · rw [decode_eq_reservedOpcode_iff, forall_mem_opcodeRows]
    exact forall_congr' fun i => not_congr row_match_eq_iff.symm
  · rw [decode_eq_strayBits_iff, exists_mem_opcodeRows]
    exact exists_congr fun i => and_congr_left' row_match_eq_iff.symm

/-- Settles O4, by running the decoder on each word. -/
theorem exampleWordsDecode : Obligations.ExampleWordsDecode := by
  unfold Obligations.ExampleWordsDecode
  decide

end Sys2Proof.Proofs
end

section
/-! The hex codec (spec/30_encoding.md R104, R105) and the rejection of arguments (R106). -/

namespace Sys2Proof.Machine

/-- The digit of a nibble stands for it (R104). -/
theorem hexDigit_nibbleChar {v : Nat} (h : v < 16) : hexDigit (nibbleChar v) = some v := by
  have hall : ∀ v < 16, hexDigit (nibbleChar v) = some v := by decide
  exact hall v h

/-- The digits are those of R105, in order. -/
theorem nibbleChar_eq_getD {v : Nat} (h : v < 16) : nibbleChar v = "0123456789abcdef".toList.getD v '0' := by
  have hall : ∀ v < 16, nibbleChar v = "0123456789abcdef".toList.getD v '0' := by decide
  exact hall v h

theorem highNibble_lt (a : Byte) : a.toNat / 16 < 16 := by
  have := a.isLt
  omega

theorem lowNibble_lt (a : Byte) : a.toNat % 16 < 16 := Nat.mod_lt _ (by decide)

theorem hexEncode_cons (a : Byte) (b : List Byte) :
    hexEncode (a :: b) = nibbleChar (a.toNat / 16) :: nibbleChar (a.toNat % 16) :: hexEncode b := rfl

/-- Two digits make the byte `16 * high + low` (R104). -/
theorem hexPairs_hexEncode (b : List Byte) : hexPairs (hexEncode b) = .ok b := by
  induction b with
  | nil => rfl
  | cons a b ih =>
    rw [hexEncode_cons]
    simp only [hexPairs, hexDigit_nibbleChar (highNibble_lt a), hexDigit_nibbleChar (lowNibble_lt a), ih,
      Nat.div_add_mod, BitVec.ofNat_toNat, BitVec.setWidth_eq]

/-- A text whose rest does not decode does not decode either (R104). -/
theorem hexPairs_of_rest_error {hi lo : Char} {rest : List Char} {e : ErrCode} (h : hexPairs rest = .error e) :
    hexPairs (hi :: lo :: rest) = .error .invalidEncoding := by
  rw [hexPairs, h]
  split
  · contradiction
  · rfl

/-- A text of odd length leaves one digit over, whatever its digits (R104). -/
theorem hexPairs_of_odd : ∀ text : List Char, text.length % 2 = 1 → hexPairs text = .error .invalidEncoding
  | [], h => by cases h
  | [_], _ => rfl
  | _ :: _ :: rest, h => hexPairs_of_rest_error (hexPairs_of_odd rest (by simp only [List.length_cons] at h; omega))

/-- The first argument that fails is the whole failure (R106). -/
theorem decodeArgs_of_head_error {k : ArgKind} {text : List Char} {e : ErrCode} (h : decodeArg k text = .error e)
    (rest : List (ArgKind × List Char)) : decodeArgs ((k, text) :: rest) = .error e := by
  simp only [decodeArgs, h]

theorem decodeArgs_of_tail_error {k : ArgKind} {text : List Char} {bytes : List Byte} {e : ErrCode}
    {rest : List (ArgKind × List Char)} (h : decodeArg k text = .ok bytes) (hrest : decodeArgs rest = .error e) :
    decodeArgs ((k, text) :: rest) = .error e := by
  simp only [decodeArgs, h, hrest]

end Sys2Proof.Machine

namespace Sys2Proof.Proofs

open Sys2Proof.Machine

/-- Settles O58: induction over the bytes; the two digits of each; and the digit left over of an odd text. -/
theorem hexRoundTrip : Obligations.HexRoundTrip := by
  unfold Obligations.HexRoundTrip
  refine ⟨fun b => ?_, fun a b => ?_, fun e text h => ?_⟩
  · simp only [hexDecode, Bool.not_true, Bool.and_false, Bool.false_eq_true, if_false, hexPairs_hexEncode]
  · rw [hexEncode_cons, nibbleChar_eq_getD (highNibble_lt a), nibbleChar_eq_getD (lowNibble_lt a)]
  · rw [hexDecode, hexPairs_of_odd text h, ite_self]

/-- Settles O59: each command answers the error of its arguments with the state it was given. -/
theorem rejectedArgumentsLeaveHardware : Obligations.RejectedArgumentsLeaveHardware := by
  unfold Obligations.RejectedArgumentsLeaveHardware
  refine fun s a b c d e => ⟨fun h => ?derive, fun h => ?sign, fun h => ?verify, fun h => ?hash, fun h => ?encrypt,
    fun h => ?decrypt, fun k text rest h => decodeArgs_of_head_error h rest,
    fun k text rest bytes h hrest => decodeArgs_of_tail_error h hrest⟩
  case derive => simp only [derivePublicKey, h]
  case sign => simp only [ecdsaSignText, h]
  case verify => simp only [ecdsaVerifyText, h]
  case hash => simp only [keccak256Text, h]
  case encrypt => simp only [aeadEncryptText, h]
  case decrypt => simp only [aeadDecryptText, h]

end Sys2Proof.Proofs
end

section
/-! Montgomery arithmetic (spec/40_modarith.md R122 to R127): `mont` is the one residue whose product with the radix
is congruent to the product of the operands, and the two reductions of R124 and R125 compute such a residue. -/

namespace Sys2Proof.Machine

/-- One conditional subtraction reduces a value below twice the modulus (R124, R125, R135). -/
theorem ite_sub_eq_mod {v n : Nat} (h : v < 2 * n) : (if n ≤ v then v - n else v) = v % n := by
  split
  next hle => rw [Nat.mod_eq_sub_mod hle, Nat.mod_eq_of_lt (by omega)]
  next hlt => rw [Nat.mod_eq_of_lt (by omega)]

/-- The wired-in inverse undoes the radix (R122). -/
theorem mul_radix_mul_inverse (x : Nat) (m : Modulus) :
    x * montRadix * montInverse m ≡ x [MOD modulusOf m] := by
  have hone : montRadix * montInverse m ≡ 1 [MOD modulusOf m] := by
    rw [Nat.ModEq, montInverse_spec, Nat.mod_eq_of_lt (by cases m <;> decide)]
  calc x * montRadix * montInverse m = x * (montRadix * montInverse m) := Nat.mul_assoc ..
    _ ≡ x * 1 [MOD modulusOf m] := hone.mul_left x
    _ = x := Nat.mul_one x

/-- And the radix undoes the inverse. -/
theorem mul_inverse_mul_radix (x : Nat) (m : Modulus) :
    x * montInverse m * montRadix ≡ x [MOD modulusOf m] := by
  rw [Nat.mul_right_comm]
  exact mul_radix_mul_inverse x m

theorem mont_lt (a b : Nat) (m : Modulus) : mont a b m < modulusOf m := Nat.mod_lt _ (modulusOf_pos m)

/-- The defining property of the Montgomery product (R123). -/
theorem mont_mul_radix (a b : Nat) (m : Modulus) : mont a b m * montRadix ≡ a * b [MOD modulusOf m] :=
  ((Nat.mod_modEq _ _).mul_right montRadix).trans (mul_inverse_mul_radix (a * b) m)

/-- The property defines it: the residue of any number that has it is the product. -/
theorem mod_eq_mont {x a b : Nat} {m : Modulus} (h : x * montRadix ≡ a * b [MOD modulusOf m]) :
    x % modulusOf m = mont a b m :=
  (mul_radix_mul_inverse x m).symm.trans (h.mul_right (montInverse m))

theorem eq_mont {x a b : Nat} {m : Modulus} (hx : x < modulusOf m) (h : x * montRadix ≡ a * b [MOD modulusOf m]) :
    x = mont a b m := by
  rw [← mod_eq_mont h, Nat.mod_eq_of_lt hx]

/-! Montgomery form (R126). -/

theorem toMontForm_eq (a : Nat) (m : Modulus) : toMontForm a m = a * montRadix % modulusOf m := by
  refine (mod_eq_mont ?_).symm
  have hsq : montSquare m ≡ montRadix * montRadix [MOD modulusOf m] := by
    rw [montSquare_spec]
    exact Nat.mod_modEq _ _
  calc a * montRadix * montRadix = a * (montRadix * montRadix) := Nat.mul_assoc ..
    _ ≡ a * montSquare m [MOD modulusOf m] := hsq.symm.mul_left a

theorem fromMontForm_eq (a : Nat) (m : Modulus) : fromMontForm a m = a * montInverse m % modulusOf m := by
  rw [fromMontForm, mont, Nat.mul_one]

theorem toMontForm_modEq (a : Nat) (m : Modulus) : toMontForm a m ≡ a * montRadix [MOD modulusOf m] := by
  rw [toMontForm_eq]
  exact Nat.mod_modEq _ _

theorem fromMontForm_toMontForm {a : Nat} {m : Modulus} (ha : a < modulusOf m) :
    fromMontForm (toMontForm a m) m = a := by
  refine (eq_mont ha ?_).symm
  rw [Nat.mul_one]
  exact (toMontForm_modEq a m).symm

theorem toMontForm_fromMontForm {a : Nat} {m : Modulus} (ha : a < modulusOf m) :
    toMontForm (fromMontForm a m) m = a := by
  have h : fromMontForm a m * montRadix ≡ a * 1 [MOD modulusOf m] := mont_mul_radix a 1 m
  rw [toMontForm_eq, h, Nat.mul_one, Nat.mod_eq_of_lt ha]

/-- A product with one operand in Montgomery form is the plain product. -/
theorem mont_toMontForm_left (a b : Nat) (m : Modulus) : mont (toMontForm a m) b m = a * b % modulusOf m := by
  refine (mod_eq_mont ?_).symm
  rw [Nat.mul_right_comm]
  exact (toMontForm_modEq a m).symm.mul_right b

/-- A product of Montgomery forms is the form of the product. -/
theorem mont_toMontForm (a b : Nat) (m : Modulus) :
    mont (toMontForm a m) (toMontForm b m) m = toMontForm (a * b % modulusOf m) m := by
  rw [mont_toMontForm_left, toMontForm_eq (a * b % _)]
  calc a * toMontForm b m
      _ ≡ a * (b * montRadix) [MOD modulusOf m] := (toMontForm_modEq b m).mul_left a
      _ = a * b * montRadix := (Nat.mul_assoc ..).symm
      _ ≡ a * b % modulusOf m * montRadix [MOD modulusOf m] := (Nat.mod_modEq _ _).symm.mul_right _

/-- A sum of Montgomery forms is congruent to the form of the sum. -/
theorem toMontForm_add (a b : Nat) (m : Modulus) :
    (toMontForm a m + toMontForm b m) % modulusOf m = toMontForm ((a + b) % modulusOf m) m := by
  rw [toMontForm_eq (_ % _)]
  calc toMontForm a m + toMontForm b m
      _ ≡ a * montRadix + b * montRadix [MOD modulusOf m] := (toMontForm_modEq a m).add (toMontForm_modEq b m)
      _ = (a + b) * montRadix := (Nat.add_mul ..).symm
      _ ≡ (a + b) % modulusOf m * montRadix [MOD modulusOf m] := (Nat.mod_modEq _ _).symm.mul_right _

/-! The reduction by a power of two (R124, R125). -/

/-- Adding the multiple of the modulus that `m'` names makes the low part of `t` vanish, for the radix and for every
divisor of it. -/
theorem dvd_add_mul_modulusOf {r t u : Nat} {m : Modulus} (hr : r ∣ montRadix) (hu : u ≡ t * montPrime m [MOD r]) :
    r ∣ t + u * modulusOf m := by
  have hprime : modulusOf m * montPrime m + 1 ≡ 0 [MOD r] := Nat.ModEq.of_dvd hr (montPrime_spec m)
  apply Nat.dvd_of_mod_eq_zero
  calc t + u * modulusOf m
      _ ≡ t + t * montPrime m * modulusOf m [MOD r] := (hu.mul_right _).add_left t
      _ = t * (modulusOf m * montPrime m + 1) := by ring
      _ ≡ t * 0 [MOD r] := hprime.mul_left t

/-- So the quotient by `r` is `t` divided by `r`, modulo the modulus. -/
theorem reduced_mul_modEq {r t u : Nat} {m : Modulus} (hr : r ∣ montRadix) (hu : u ≡ t * montPrime m [MOD r]) :
    (t + u * modulusOf m) / r * r ≡ t [MOD modulusOf m] := by
  rw [Nat.div_mul_cancel (dvd_add_mul_modulusOf hr hu)]
  exact (Nat.modEq_zero_iff_dvd.mpr (Nat.dvd_mul_left _ u)).add_left t

/-- The reduction of R124 on residues. -/
theorem montReduce_eq_mont {a b : Nat} {m : Modulus} (ha : a < modulusOf m) (hb : b < modulusOf m) :
    montReduce a b m = mont a b m := by
  have hpos : 0 < montRadix := Nat.two_pow_pos 256
  have hm : modulusOf m < montRadix := modulusOf_lt m
  unfold montReduce
  extract_lets t u v
  have hu : u ≡ t * montPrime m [MOD montRadix] :=
    (Nat.mod_modEq _ _).trans ((Nat.mod_modEq _ _).mul_right _)
  have hv : v < 2 * modulusOf m := by
    have ht : t < montRadix * modulusOf m := Nat.mul_lt_mul'' (ha.trans hm) hb
    have hum : u * modulusOf m ≤ montRadix * modulusOf m :=
      Nat.mul_le_mul_right _ (Nat.mod_lt _ hpos).le
    apply Nat.div_lt_of_lt_mul
    linarith
  rw [ite_sub_eq_mod hv]
  exact mod_eq_mont (reduced_mul_modEq (dvd_refl _) hu)

/-! The word-serial form (R125). -/

/-- One turn of the loop of R125. -/
def montSerialStep (width a b : Nat) (m : Modulus) (i acc : Nat) : Nat :=
  let word := a / 2 ^ (width * i) % 2 ^ width
  let sum := acc + word * b
  let q := sum % 2 ^ width * (montPrime m % 2 ^ width) % 2 ^ width
  (sum + q * modulusOf m) / 2 ^ width

theorem montSerialLoop_succ (width a b : Nat) (m : Modulus) (steps i acc : Nat) :
    montSerialLoop width a b m (steps + 1) i acc =
      montSerialLoop width a b m steps (i + 1) (montSerialStep width a b m i acc) := rfl

/-- After `i` words the accumulator, below twice the modulus, is the product of the low `i` words of `a` with `b`,
divided by the radix of `i` words. -/
structure SerialInv (width a b : Nat) (m : Modulus) (i acc : Nat) : Prop where
  lt : acc < 2 * modulusOf m
  modEq : acc * 2 ^ (width * i) ≡ a % 2 ^ (width * i) * b [MOD modulusOf m]

/-- Every turn keeps it. -/
theorem SerialInv.step {width a b i acc : Nat} {m : Modulus} (hw : width ≤ 256) (hb : b < modulusOf m)
    (h : SerialInv width a b m i acc) : SerialInv width a b m (i + 1) (montSerialStep width a b m i acc) := by
  have hpos : 0 < 2 ^ width := Nat.two_pow_pos width
  unfold montSerialStep
  extract_lets word sum q
  constructor
  case lt =>
    have hword : word + 1 ≤ 2 ^ width := Nat.mod_lt _ hpos
    have hq : q + 1 ≤ 2 ^ width := Nat.mod_lt _ hpos
    have hsum : sum ≤ acc + word * modulusOf m := Nat.add_le_add_left (Nat.mul_le_mul_left _ hb.le) acc
    have hacc := h.lt
    apply Nat.div_lt_of_lt_mul
    calc sum + q * modulusOf m
        _ < (word + 1) * modulusOf m + (q + 1) * modulusOf m := by linarith
        _ ≤ 2 ^ width * modulusOf m + 2 ^ width * modulusOf m := by gcongr
        _ = 2 ^ width * (2 * modulusOf m) := by ring
  case modEq =>
    have hword : a % 2 ^ (width * (i + 1)) = a % 2 ^ (width * i) + 2 ^ (width * i) * word := by
      rw [Nat.mul_succ, pow_add, Nat.mod_mul]
    have hq : q ≡ sum * montPrime m [MOD 2 ^ width] :=
      (Nat.mod_modEq _ _).trans ((Nat.mod_modEq _ _).mul (Nat.mod_modEq _ _))
    have hred : (sum + q * modulusOf m) / 2 ^ width * 2 ^ width ≡ sum [MOD modulusOf m] :=
      reduced_mul_modEq (pow_dvd_pow 2 hw) hq
    calc (sum + q * modulusOf m) / 2 ^ width * 2 ^ (width * (i + 1))
        _ = (sum + q * modulusOf m) / 2 ^ width * 2 ^ width * 2 ^ (width * i) := by ring
        _ ≡ sum * 2 ^ (width * i) [MOD modulusOf m] := hred.mul_right _
        _ = acc * 2 ^ (width * i) + 2 ^ (width * i) * word * b := by ring
        _ ≡ a % 2 ^ (width * i) * b + 2 ^ (width * i) * word * b [MOD modulusOf m] := h.modEq.add_right _
        _ = a % 2 ^ (width * (i + 1)) * b := by rw [hword, Nat.add_mul]

/-- So does the loop. -/
theorem SerialInv.loop {width a b : Nat} {m : Modulus} (hw : width ≤ 256) (hb : b < modulusOf m) (steps : Nat)
    {i acc : Nat} (h : SerialInv width a b m i acc) :
    SerialInv width a b m (i + steps) (montSerialLoop width a b m steps i acc) := by
  induction steps generalizing i acc with
  | zero => exact h
  | succ steps ih =>
    rw [montSerialLoop_succ, Nat.add_comm steps 1, ← Nat.add_assoc]
    exact ih (h.step hw hb)

theorem serialInv_zero (width a b : Nat) (m : Modulus) : SerialInv width a b m 0 0 where
  lt := Nat.mul_pos Nat.two_pos (modulusOf_pos m)
  modEq := by rw [Nat.mul_zero, pow_zero, Nat.mod_one, Nat.zero_mul, Nat.zero_mul]

/-- The word-serial form on residues, for every width that divides the 256 bits of an operand. -/
theorem montSerial_eq_mont {width a b : Nat} {m : Modulus} (hw : width ∣ 256) (ha : a < modulusOf m)
    (hb : b < modulusOf m) : montSerial width a b m = mont a b m := by
  have hinv := (serialInv_zero width a b m).loop (Nat.le_of_dvd (by decide) hw) hb (256 / width)
  have hmod := hinv.modEq
  rw [Nat.zero_add, Nat.mul_div_cancel' hw, Nat.mod_eq_of_lt (ha.trans (modulusOf_lt m))] at hmod
  exact (ite_sub_eq_mod hinv.lt).trans (mod_eq_mont hmod)

end Sys2Proof.Machine

namespace Sys2Proof.Proofs

open Sys2Proof.Machine

/-- Settles O28: the reduction's value has the property that defines the product. -/
theorem montReduceEqualsMont : Obligations.MontReduceEqualsMont := by
  unfold Obligations.MontReduceEqualsMont
  intro a b msel ha hb
  exact montReduce_eq_mont ha hb

/-- Settles O29, by induction on the words of the first operand. -/
theorem montSerialEqualsMont : Obligations.MontSerialEqualsMont := by
  unfold Obligations.MontSerialEqualsMont
  intro width a b msel hw ha hb
  exact montSerial_eq_mont hw ha hb

/-- Settles O30: each law follows from the property that defines the product. -/
theorem montFormLaws : Obligations.MontFormLaws := by
  unfold Obligations.MontFormLaws
  intro a b msel ha hb
  refine ⟨toMontForm_eq a msel, fromMontForm_eq a msel, fromMontForm_toMontForm ha, toMontForm_fromMontForm ha,
    mont_toMontForm a b msel, mont_toMontForm_left a b msel, toMontForm_add a b msel, ?_, ?_⟩
  · rw [toMontForm_eq, Nat.one_mul]
  · rw [toMontForm_eq, Nat.zero_mul, Nat.zero_mod]

end Sys2Proof.Proofs
end

section
/-! The modular arithmetic commands (spec/40_modarith.md R121, R128 to R135): each writes one register or, for an
operand out of range, ends with `OperandRange`. -/

namespace Sys2Proof.Machine

section
variable (rd ra rb : RegNum) (m : Modulus) (s : State)

theorem commandResult_montMul :
    commandResult (.montMul rd ra rb m) s = modBinary (fun a b => mont a b m) rd ra rb m s := rfl

theorem commandResult_toMont :
    commandResult (.toMont rd ra m) s = modUnary (fun a => a * montRadix % modulusOf m) rd ra m s := rfl

theorem commandResult_fromMont :
    commandResult (.fromMont rd ra m) s = modUnary (fun a => a * montInverse m % modulusOf m) rd ra m s := rfl

theorem commandResult_modMul :
    commandResult (.modMul rd ra rb m) s = modBinary (fun a b => mulm a b (modulusOf m)) rd ra rb m s := rfl

theorem commandResult_modAdd :
    commandResult (.modAdd rd ra rb m) s = modBinary (fun a b => addm a b (modulusOf m)) rd ra rb m s := rfl

theorem commandResult_modSub :
    commandResult (.modSub rd ra rb m) s = modBinary (fun a b => subm a b (modulusOf m)) rd ra rb m s := rfl

end

section
variable {i : Instr} {rd ra rb : RegNum} {m : Modulus} {s : State}

/-- A command that computes one register write completes with it. -/
theorem exec_setRegNat {v : Nat} (h : commandResult i s = .ok (s.setRegNat rd v, noFlags)) (hv : v < 2 ^ 256) :
    ∃ t, exec i s = .next t ∧ Succeeded t noFlags ∧ Framed { regs := [rd] } s t ∧ t.regNat rd = v :=
  ⟨_, exec_of_ok h, succeeded_complete _ _,
    ((Framed.refl _ s).setRegNat v (List.mem_singleton_self rd)).complete _, State.regNat_setRegNat_self s rd hv⟩

section
variable {f : Nat → Nat → Nat} (hi : commandResult i s = modBinary f rd ra rb m s)
include hi

/-- A command of two operands on residues. -/
theorem exec_modBinary (ha : s.regNat ra < modulusOf m) (hb : s.regNat rb < modulusOf m)
    (hf : f (s.regNat ra) (s.regNat rb) < modulusOf m) :
    ∃ t, exec i s = .next t ∧ Succeeded t noFlags ∧ Framed { regs := [rd] } s t ∧
      t.regNat rd = f (s.regNat ra) (s.regNat rb) := by
  refine exec_setRegNat ?_ (hf.trans (modulusOf_lt m))
  rw [hi, modBinary, if_neg (by omega)]

/-- And on any other operands. -/
theorem raises_modBinary (h : ¬ (s.regNat ra < modulusOf m ∧ s.regNat rb < modulusOf m)) :
    Raises i s .operandRange := by
  apply raises_of_error
  rw [hi, modBinary, if_pos (by omega)]

end

section
variable {f : Nat → Nat} (hi : commandResult i s = modUnary f rd ra m s)
include hi

/-- A command of one operand on a residue. -/
theorem exec_modUnary (ha : s.regNat ra < modulusOf m) (hf : f (s.regNat ra) < modulusOf m) :
    ∃ t, exec i s = .next t ∧ Succeeded t noFlags ∧ Framed { regs := [rd] } s t ∧
      t.regNat rd = f (s.regNat ra) := by
  refine exec_setRegNat ?_ (hf.trans (modulusOf_lt m))
  rw [hi, modUnary, if_neg (by omega)]

/-- And on any other operand. -/
theorem raises_modUnary (h : ¬ s.regNat ra < modulusOf m) : Raises i s .operandRange := by
  apply raises_of_error
  rw [hi, modUnary, if_pos (by omega)]

end

end

section
variable {rd ra : RegNum} {m : Modulus} {s : State}

/-- `TO_MONT` on a residue (R129). -/
theorem exec_toMont (ha : s.regNat ra < modulusOf m) :
    ∃ t, exec (.toMont rd ra m) s = .next t ∧ Succeeded t noFlags ∧ Framed { regs := [rd] } s t ∧
      t.regNat rd = toMontForm (s.regNat ra) m := by
  rw [toMontForm_eq]
  exact exec_modUnary (commandResult_toMont ..) ha (Nat.mod_lt _ (modulusOf_pos m))

/-- `FROM_MONT` on a residue (R130). -/
theorem exec_fromMont (ha : s.regNat ra < modulusOf m) :
    ∃ t, exec (.fromMont rd ra m) s = .next t ∧ Succeeded t noFlags ∧ Framed { regs := [rd] } s t ∧
      t.regNat rd = fromMontForm (s.regNat ra) m := by
  rw [fromMontForm_eq]
  exact exec_modUnary (commandResult_fromMont ..) ha (Nat.mod_lt _ (modulusOf_pos m))

end

/-- The sum of residues is reduced by one conditional subtraction (R132). -/
theorem addm_of_lt {a b n : Nat} (ha : a < n) (hb : b < n) :
    addm a b n = if a + b < n then a + b else a + b - n := by
  rw [addm, ← ite_sub_eq_mod (by omega)]
  split <;> split <;> omega

/-- The difference of residues is corrected by one conditional addition (R133). -/
theorem subm_of_lt {a b n : Nat} (ha : a < n) (hb : b < n) :
    subm a b n = if b ≤ a then a - b else a + n - b := by
  rw [subm, Nat.mod_eq_of_lt hb, ← ite_sub_eq_mod (by omega)]
  split <;> split <;> omega

/-! The power that `MOD_INV` computes (R134). -/

theorem modulusOf_sub_two_lt (m : Modulus) : modulusOf m - 2 < 2 ^ 256 := by
  have := modulusOf_lt m
  omega

theorem invm_modulusOf (a : Nat) (m : Modulus) : invm a (modulusOf m) = a ^ (modulusOf m - 2) % modulusOf m :=
  powm_eq _ 256 a _ (modulusOf_sub_two_lt m)

theorem one_lt_modulusOf (m : Modulus) : 1 < modulusOf m := by cases m <;> decide

/-- Both moduli are odd. -/
theorem odd_modulusOf_sub_two (m : Modulus) : Odd (modulusOf m - 2) := by cases m <;> decide

theorem invm_one (m : Modulus) : invm 1 (modulusOf m) = 1 := by
  rw [invm_modulusOf, one_pow, Nat.mod_eq_of_lt (one_lt_modulusOf m)]

/-- The power of 2, computed for the two moduli. -/
theorem invm_two (m : Modulus) : invm 2 (modulusOf m) = (modulusOf m + 1) / 2 := by cases m <;> decide +kernel

/-- An odd power of -1 is -1. -/
theorem pred_pow_mod {n e : Nat} (hn : 0 < n) (he : Odd e) : (n - 1) ^ e % n = n - 1 := by
  have hneg : ((n - 1 : Nat) : ZMod n) = -1 := by
    rw [Nat.cast_sub hn, ZMod.natCast_self, Nat.cast_one, zero_sub]
  have hpow : (n - 1) ^ e ≡ n - 1 [MOD n] := by
    rw [← ZMod.natCast_eq_natCast_iff, Nat.cast_pow, hneg, he.neg_one_pow]
  rw [hpow, Nat.mod_eq_of_lt (Nat.sub_one_lt_of_lt hn)]

theorem invm_pred (m : Modulus) : invm (modulusOf m - 1) (modulusOf m) = modulusOf m - 1 := by
  rw [invm_modulusOf, pred_pow_mod (modulusOf_pos m) (odd_modulusOf_sub_two m)]

theorem modInverse_of_lt {rd ra : RegNum} {m : Modulus} {s : State}
    (h : 1 ≤ s.regNat ra ∧ s.regNat ra < modulusOf m) :
    modInverse rd ra m s = .ok (s.setRegNat rd (invm (s.regNat ra) (modulusOf m)), noFlags) := by
  rw [modInverse, if_neg (by omega), if_neg (by omega)]

theorem modInverse_of_not_lt {rd ra : RegNum} {m : Modulus} {s : State}
    (h : ¬ (1 ≤ s.regNat ra ∧ s.regNat ra < modulusOf m)) : modInverse rd ra m s = .error .operandRange := by
  unfold modInverse
  split
  · rfl
  · rw [if_pos (by omega)]

end Sys2Proof.Machine

namespace Sys2Proof.Proofs

open Sys2Proof.Machine

/-- Settles O23: the product is the residue with R128's congruence, whichever register receives it. -/
theorem montMulEffect : Obligations.MontMulEffect := by
  unfold Obligations.MontMulEffect
  refine ⟨fun rd ra rb msel => rfl, fun rd ra rb msel s => ?_⟩
  split
  next h =>
    obtain ⟨t, ht, hok, hframe, hrd⟩ :=
      exec_modBinary (commandResult_montMul rd ra rb msel s) h.1 h.2 (mont_lt _ _ msel)
    refine ⟨t, ht, hok, hframe, hrd, ?_, ?_⟩
    · rw [hrd]; exact mont_lt _ _ msel
    · rw [hrd]; exact mont_mul_radix _ _ msel
  next h => exact raises_modBinary (commandResult_montMul ..) h

/-- Settles O24: the two commands compute the two conversions, which undo each other. -/
theorem montConversionEffect : Obligations.MontConversionEffect := by
  unfold Obligations.MontConversionEffect
  refine ⟨fun rd ra msel => ⟨rfl, rfl⟩, fun rd ra msel s => ?_⟩
  split
  next ha =>
    constructor
    · obtain ⟨t, ht, hok, hframe, hrd⟩ := exec_toMont (rd := rd) ha
      have hlt : t.regNat rd < modulusOf msel := by rw [hrd]; exact mont_lt _ _ msel
      obtain ⟨u, hu, huok, -, hurd⟩ := exec_fromMont (rd := rd) hlt
      exact ⟨t, ht, hok, hframe, hrd.trans (toMontForm_eq _ msel), u, hu, huok,
        by rw [hurd, hrd, fromMontForm_toMontForm ha]⟩
    · obtain ⟨t, ht, hok, hframe, hrd⟩ := exec_fromMont (rd := rd) ha
      have hlt : t.regNat rd < modulusOf msel := by rw [hrd]; exact mont_lt _ _ msel
      obtain ⟨u, hu, huok, -, hurd⟩ := exec_toMont (rd := rd) hlt
      exact ⟨t, ht, hok, hframe, hrd.trans (fromMontForm_eq _ msel),
        by rw [hrd]; exact (toMontForm_eq _ msel).symm.trans (toMontForm_fromMontForm ha), u, hu, huok,
        by rw [hurd, hrd, toMontForm_fromMontForm ha]⟩
  next ha => exact ⟨raises_modUnary (commandResult_toMont ..) ha, raises_modUnary (commandResult_fromMont ..) ha⟩

/-- Settles O25: the three helpers on residues, each below the modulus. -/
theorem modMulAddSubEffect : Obligations.ModMulAddSubEffect := by
  unfold Obligations.ModMulAddSubEffect
  refine ⟨fun rd ra rb msel => ⟨rfl, rfl, rfl⟩, fun rd ra rb msel s => ?_⟩
  have hlt (x : Nat) : x % modulusOf msel < modulusOf msel := Nat.mod_lt x (modulusOf_pos msel)
  split
  next h =>
    obtain ⟨ha, hb⟩ := h
    rw [← addm_of_lt ha hb, ← subm_of_lt ha hb]
    exact ⟨exec_modBinary (commandResult_modMul ..) ha hb (hlt _),
      exec_modBinary (commandResult_modAdd ..) ha hb (hlt _), exec_modBinary (commandResult_modSub ..) ha hb (hlt _)⟩
  next h =>
    exact ⟨raises_modBinary (commandResult_modMul ..) h, raises_modBinary (commandResult_modAdd ..) h,
      raises_modBinary (commandResult_modSub ..) h⟩

/-- Settles O26: square-and-multiply computes the power, and its values at 1, 2 and -1. -/
theorem modInvEffect : Obligations.ModInvEffect := by
  unfold Obligations.ModInvEffect
  refine ⟨fun rd ra msel => rfl, fun rd ra msel s => ?_⟩
  split
  next h =>
    have hlt : invm (s.regNat ra) (modulusOf msel) < 2 ^ 256 :=
      (powm_lt _ _ _ _ (modulusOf_pos msel)).trans (modulusOf_lt msel)
    obtain ⟨t, ht, hok, hframe, hrd⟩ := exec_setRegNat (i := .modInv rd ra msel) (modInverse_of_lt h) hlt
    refine ⟨t, ht, hok, hframe, hrd.trans (invm_modulusOf _ msel), fun h1 => ?_, fun h2 => ?_, fun hp => ?_⟩
    · rw [hrd, h1, invm_one]
    · rw [hrd, h2, invm_two]
    · rw [hrd, hp, invm_pred]
  next h => exact raises_of_error (modInverse_of_not_lt h)

/-- Settles O27: a register is below twice either modulus, so one subtraction gives the residue. -/
theorem modRedEffect : Obligations.ModRedEffect := by
  unfold Obligations.ModRedEffect
  refine ⟨fun rd ra msel => rfl, fun rd ra msel s => ?_⟩
  have hred := ite_sub_eq_mod ((s.regNat_lt ra).trans (two_pow_lt_two_modulus msel))
  have hlt := (Nat.mod_lt (s.regNat ra) (modulusOf_pos msel)).trans (modulusOf_lt msel)
  obtain ⟨t, ht, hok, hframe, hrd⟩ := exec_setRegNat (i := .modRed rd ra msel) rfl (hred ▸ hlt)
  exact ⟨t, ht, hok, hframe, hrd, hrd.trans hred⟩

end Sys2Proof.Proofs
end

section
/-! The ladder (spec/41_point.md R151 to R153): its product has coordinates below the field prime, and leading zero
bits of the scalar change nothing, which gives the products by 0 and 1. -/

namespace Sys2Proof.Machine

/-- A point's coordinates are residues of the field; `INF` has none. -/
def Point.Reduced : Point → Prop
  | .inf => True
  | .affine x y => x < fieldPrime ∧ y < fieldPrime

theorem Point.reduced_inf : Point.inf.Reduced := trivial

theorem Point.reduced_affine {x y : Nat} : (Point.affine x y).Reduced ↔ x < fieldPrime ∧ y < fieldPrime := Iff.rfl

theorem fieldPrime_pos : 0 < fieldPrime := modulusOf_pos .fieldP

theorem fieldPrime_lt : fieldPrime < 2 ^ 256 := modulusOf_lt .fieldP

theorem paddSlope_reduced (lam x1 y1 x2 : Nat) : (paddSlope lam x1 y1 x2).Reduced :=
  ⟨Nat.mod_lt _ fieldPrime_pos, Nat.mod_lt _ fieldPrime_pos⟩

theorem padd_reduced {a b : Point} (ha : a.Reduced) (hb : b.Reduced) : (padd a b).Reduced := by
  cases a with
  | inf => exact hb
  | affine x1 y1 =>
    cases b with
    | inf => exact ha
    | affine x2 y2 =>
      rw [padd]
      split
      · split
        · exact Point.reduced_inf
        · exact paddSlope_reduced _ _ _ _
      · exact paddSlope_reduced _ _ _ _

theorem ladderSteps_reduced (k bits : Nat) {r0 r1 : Point} (h0 : r0.Reduced) (h1 : r1.Reduced) :
    (ladderSteps k bits r0 r1).Reduced := by
  induction bits generalizing r0 r1 with
  | zero => exact h0
  | succ i ih =>
    unfold ladderSteps
    split
    · exact ih (padd_reduced h0 h1) (padd_reduced h1 h1)
    · exact ih (padd_reduced h0 h0) (padd_reduced h0 h1)

theorem ladder_reduced (k : Nat) {a : Point} (ha : a.Reduced) : (ladder k a).Reduced :=
  ladderSteps_reduced k 256 Point.reduced_inf ha

theorem basePoint_reduced : basePoint.Reduced := Point.reduced_affine.mpr (by decide)

/-- From `INF`, a step for a zero bit gives `(INF, A)` again. -/
theorem ladderSteps_leading_zeros {k bits : Nat} (hk : k < 2 ^ bits) (a : Point) (extra : Nat) :
    ladderSteps k (bits + extra) .inf a = ladderSteps k bits .inf a := by
  induction extra with
  | zero => rfl
  | succ j ih =>
    have hbit : k.testBit (bits + j) = false :=
      Nat.testBit_lt_two_pow (hk.trans_le (Nat.pow_le_pow_right (by decide) (Nat.le_add_right bits j)))
    rw [← Nat.add_assoc, ladderSteps, hbit]
    exact ih

@[simp] theorem ladder_zero (a : Point) : ladder 0 a = .inf :=
  ladderSteps_leading_zeros (bits := 0) (by decide) a 256

@[simp] theorem ladder_one (a : Point) : ladder 1 a = a :=
  ladderSteps_leading_zeros (bits := 1) (by decide) a 255

end Sys2Proof.Machine
end

section
/-! The point codec (spec/41_point.md R160, R162): what 33 and 65 bytes decode to, what a string that decodes looks
like, and the root with the parity of the lead byte. -/

namespace Sys2Proof.Machine

theorem onCurve_iff {x y : Nat} : onCurve x y = true ↔
    x < fieldPrime ∧ y < fieldPrime ∧ y * y % fieldPrime = (x * x * x + 7) % fieldPrime := by
  simp only [onCurve, Bool.and_eq_true, decide_eq_true_eq, and_assoc]

/-- A value and its negative have the same square. -/
theorem sub_mul_sub_mod {n y : Nat} (h : y ≤ n) : (n - y) * (n - y) % n = y * y % n := by
  obtain ⟨z, rfl⟩ := Nat.exists_eq_add_of_le h
  have hsq : z * z + (y + z) * y = y * y + (y + z) * z := by ring
  rw [Nat.add_sub_cancel_left, ← Nat.add_mul_mod_self_left (z * z), hsq, Nat.add_mul_mod_self_left]

/-- R162's choice between the two roots: the one with the parity of the lead byte. -/
def rootOfParity (lead : Byte) (y : Nat) : Nat := if y % 2 = lead.toNat % 2 then y else fieldPrime - y

section
variable {y : Nat} (lead : Byte) (hy : y < fieldPrime)
include hy

theorem rootOfParity_le : rootOfParity lead y ≤ fieldPrime := by
  unfold rootOfParity
  split
  · exact hy.le
  · exact Nat.sub_le _ _

theorem rootOfParity_sq : rootOfParity lead y * rootOfParity lead y % fieldPrime = y * y % fieldPrime := by
  unfold rootOfParity
  split
  · rfl
  · exact sub_mul_sub_mod hy.le

/-- The field prime is odd, so one of the two roots has the parity asked for. -/
theorem rootOfParity_mod_two : rootOfParity lead y % 2 = lead.toNat % 2 := by
  have hodd : fieldPrime % 2 = 1 := by decide
  unfold rootOfParity
  split
  · assumption
  · omega

end

/-- The lead byte of a compressed encoding says the parity of `y` (R160). -/
theorem compressedLead_eq {lead : Byte} (h : lead = 0x02 ∨ lead = 0x03) :
    BitVec.ofNat 8 (0x02 + lead.toNat % 2) = lead := by
  rcases h with rfl | rfl
  · rfl
  · rfl

theorem sqrtp_lt (t : Nat) : sqrtp t < fieldPrime := powm_lt _ _ _ _ fieldPrime_pos

/-- What a lead byte and 32 more decode to (R162). -/
theorem decodePoint_compressed {lead : Byte} {rest : List Byte} {x c y : Nat} (hlen : rest.length = 32)
    (hx : x = beInt rest) (hc : c = (x * x * x + 7) % fieldPrime) (hy : y = sqrtp c) :
    decodePoint (lead :: rest) =
      if (lead = 0x02 ∨ lead = 0x03) ∧ x < fieldPrime ∧ y * y % fieldPrime = c then some (x, rootOfParity lead y)
      else none := by
  rw [decodePoint, if_pos (by rw [List.length_cons, hlen]), decodeCompressed]
  simp only [List.headD_cons, List.drop_succ_cons, List.drop_zero, ← hx, ← hc, ← hy]
  split
  next hlead => rw [if_neg fun h => by tauto]
  next hlead =>
    split
    next hle => rw [if_neg fun h => by omega]
    next hlt =>
      split
      next hroot => rw [if_neg fun h => hroot h.2.2]
      next hroot => exact (if_pos ⟨by tauto, by omega, not_not.mp hroot⟩).symm

/-- What a lead byte and twice 32 more decode to (R162). -/
theorem decodePoint_uncompressed {lead : Byte} {u v : List Byte} {x y : Nat} (hu : u.length = 32)
    (hv : v.length = 32) (hx : x = beInt u) (hy : y = beInt v) :
    decodePoint (lead :: (u ++ v)) = if lead = 0x04 ∧ onCurve x y = true then some (x, y) else none := by
  have hlen : (lead :: (u ++ v)).length = 65 := by rw [List.length_cons, List.length_append, hu, hv]
  have htake : ((lead :: (u ++ v)).drop 1).take 32 = u := List.take_left' hu
  have hdrop : (lead :: (u ++ v)).drop 33 = v := List.drop_left' hu
  rw [decodePoint, if_neg (by omega), if_pos hlen, decodeUncompressed]
  simp only [List.headD_cons, htake, hdrop, ← hx, ← hy]
  split
  next hlead => rw [if_neg fun h => hlead h.1]
  next hlead => simp only [not_not.mp hlead, true_and]

/-- Any other length is no encoding (R162). -/
theorem decodePoint_of_length {b : List Byte} (h33 : b.length ≠ 33) (h65 : b.length ≠ 65) : decodePoint b = none := by
  rw [decodePoint, if_neg h33, if_neg h65]

/-- What it means that `b` is a compressed encoding of `(x, y)`. -/
structure CompressedFor (b : List Byte) (x y : Nat) : Prop where
  length : b.length = 33
  x_lt : x < fieldPrime
  y_le : y ≤ fieldPrime
  equation : y * y % fieldPrime = (x * x * x + 7) % fieldPrime
  encodes : encPoint .compressed x y = b

/-- What it means that `b` is an uncompressed encoding of the point `(x, y)`. -/
structure UncompressedFor (b : List Byte) (x y : Nat) : Prop where
  length : b.length = 65
  point : onCurve x y = true
  encodes : encPoint .uncompressed x y = b

theorem compressedFor_of_decodePoint {b : List Byte} {x y : Nat} (hb : b.length = 33)
    (h : decodePoint b = some (x, y)) : CompressedFor b x y := by
  obtain ⟨lead, rest, rfl⟩ := List.exists_cons_of_length_eq_add_one hb
  have hlen : rest.length = 32 := Nat.succ.inj hb
  rw [decodePoint_compressed hlen rfl rfl rfl] at h
  obtain ⟨⟨hlead, hx, hroot⟩, hxy⟩ := Option.ite_none_right_eq_some.mp h
  obtain ⟨rfl, rfl⟩ := Prod.mk.inj (Option.some.inj hxy)
  have hlt := sqrtp_lt ((beInt rest * beInt rest * beInt rest + 7) % fieldPrime)
  refine ⟨hb, hx, rootOfParity_le lead hlt, (rootOfParity_sq lead hlt).trans hroot, ?_⟩
  rw [encPoint, encCompressed, rootOfParity_mod_two lead hlt, compressedLead_eq hlead, ← hlen, be_beInt]

theorem uncompressedFor_of_decodePoint {b : List Byte} {x y : Nat} (hb : b.length = 65)
    (h : decodePoint b = some (x, y)) : UncompressedFor b x y := by
  obtain ⟨lead, rest, rfl⟩ := List.exists_cons_of_length_eq_add_one hb
  have hlen : rest.length = 64 := Nat.succ.inj hb
  have hu : (rest.take 32).length = 32 := by rw [List.length_take, hlen]; rfl
  have hv : (rest.drop 32).length = 32 := by rw [List.length_drop, hlen]
  rw [← List.take_append_drop 32 rest, decodePoint_uncompressed hu hv rfl rfl] at h
  obtain ⟨⟨hlead, hcurve⟩, hxy⟩ := Option.ite_none_right_eq_some.mp h
  obtain ⟨rfl, rfl⟩ := Prod.mk.inj (Option.some.inj hxy)
  have hbx := be_beInt (rest.take 32)
  have hby := be_beInt (rest.drop 32)
  rw [hu] at hbx
  rw [hv] at hby
  exact ⟨hb, hcurve, by rw [encPoint, encUncompressed, hbx, hby, List.take_append_drop, hlead]⟩

/-- A string that decodes is of one of the two forms (R162). -/
theorem decodePoint_some {b : List Byte} {x y : Nat} (h : decodePoint b = some (x, y)) :
    CompressedFor b x y ∨ UncompressedFor b x y := by
  by_cases h33 : b.length = 33
  · exact .inl (compressedFor_of_decodePoint h33 h)
  · by_cases h65 : b.length = 65
    · exact .inr (uncompressedFor_of_decodePoint h65 h)
    · rw [decodePoint_of_length h33 h65] at h
      cases h

/-- What is decoded fits two registers. -/
theorem decodePoint_lt {b : List Byte} {x y : Nat} (h : decodePoint b = some (x, y)) :
    x < 2 ^ 256 ∧ y < 2 ^ 256 := by
  rcases decodePoint_some h with hc | hu
  · exact ⟨hc.x_lt.trans fieldPrime_lt, hc.y_le.trans_lt fieldPrime_lt⟩
  · obtain ⟨hx, hy, -⟩ := onCurve_iff.mp hu.point
    exact ⟨hx.trans fieldPrime_lt, hy.trans fieldPrime_lt⟩

/-- A residue of the field survives in 32 bytes. -/
theorem beInt_be_of_lt {v : Nat} (h : v < fieldPrime) : beInt (be 32 v) = v := by
  rw [beInt_be, pow256, Nat.mod_eq_of_lt (h.trans fieldPrime_lt)]

theorem decodePoint_encUncompressed {x y : Nat} (h : onCurve x y = true) :
    decodePoint (encPoint .uncompressed x y) = some (x, y) := by
  obtain ⟨hx, hy, -⟩ := onCurve_iff.mp h
  rw [encPoint, encUncompressed, decodePoint_uncompressed (be_length 32 x) (be_length 32 y) (beInt_be_of_lt hx).symm
    (beInt_be_of_lt hy).symm, if_pos ⟨rfl, h⟩]

end Sys2Proof.Machine
end

section
/-! The point commands (spec/41_point.md R157 to R162): each computes an error, the two writes of a point, or an
output. -/

namespace Sys2Proof.Machine

variable {s : State}

/-- A command that computes the two writes of a point completes with them. -/
theorem exec_setPoint {i : Instr} {ix iy : RegNum} {x y : Nat} {flags : ResultFlags}
    (h : commandResult i s = .ok (s.setPoint ix iy x y, flags)) (hne : ix ≠ iy) (hx : x < 2 ^ 256)
    (hy : y < 2 ^ 256) :
    ∃ t, exec i s = .next t ∧ Succeeded t flags ∧ Framed { regs := [ix, iy] } s t ∧
      t.regNat ix = x ∧ t.regNat iy = y := by
  refine ⟨_, exec_of_ok h, succeeded_complete _ _,
    ((Framed.refl _ s).setPoint x y (by simp) (by simp)).complete _, ?_, State.regNat_setRegNat_self _ iy hy⟩
  have hkeep := State.reg_setRegNat_of_ne (s.setRegNat ix x) y hne
  exact (congrArg BitVec.toNat hkeep).trans (State.regNat_setRegNat_self s ix hx)

/-- How a product is reported (R157): in `R[8]`, `R[9]` and the flags. -/
def ReportsProduct (t : State) : Point → Prop
  | .inf => Succeeded t infFlag ∧ t.regNat regPx = 0 ∧ t.regNat regPy = 0
  | .affine x y => Succeeded t (parityFlag y) ∧ t.regNat regPx = x ∧ t.regNat regPy = y

/-- `PMUL_G` and `PMUL` write their product (R157, R158). -/
theorem exec_pmulResult {i : Instr} {a : Point} (h : commandResult i s = .ok (pmulResult s a)) (ha : a.Reduced) :
    ∃ t, exec i s = .next t ∧ Framed { regs := [regPx, regPy] } s t ∧ ReportsProduct t a := by
  have hne : regPx ≠ regPy := by decide
  cases a with
  | inf =>
    obtain ⟨t, ht, hok, hframe, hx, hy⟩ := exec_setPoint h hne (by decide) (by decide)
    exact ⟨t, ht, hframe, hok, hx, hy⟩
  | affine x y =>
    obtain ⟨hxlt, hylt⟩ := Point.reduced_affine.mp ha
    obtain ⟨t, ht, hok, hframe, hx, hy⟩ :=
      exec_setPoint h hne (hxlt.trans fieldPrime_lt) (hylt.trans fieldPrime_lt)
    exact ⟨t, ht, hframe, hok, hx, hy⟩

theorem State.reg_eq_zero {i : RegNum} (h : s.regNat i = 0) : s.reg i = 0 := BitVec.eq_of_toNat_eq h

theorem State.resultWord_of_infFlag (h : s.result = infFlag) : s.resultWord = 2 := by
  simp only [State.resultWord, h]
  rfl

theorem parityFlag_genY : parityFlag genY = noFlags := by decide

/-- `INF` as the host reads it: the flag alone, both words 0 (R157). -/
theorem ReportsProduct.words_of_inf {t : State} (h : ReportsProduct t .inf) :
    t.resultWord = 2 ∧ t.reg regPx = 0 ∧ t.reg regPy = 0 := by
  obtain ⟨hok, hx, hy⟩ := h
  exact ⟨t.resultWord_of_infFlag hok.result, t.reg_eq_zero hx, t.reg_eq_zero hy⟩

/-- `G` as the host reads it: its `y` is even (R157). -/
theorem ReportsProduct.words_of_basePoint {t : State} (h : ReportsProduct t basePoint) :
    t.resultWord = 0 ∧ t.regNat regPx = genX ∧ t.regNat regPy = genY := by
  obtain ⟨hok, hx, hy⟩ := h
  exact ⟨t.resultWord_of_noFlags (hok.result.trans parityFlag_genY), hx, hy⟩

/-- `PMUL` on a point of the curve (R158). -/
theorem pmulCommand_of_onCurve (h : onCurve (s.regNat regQx) (s.regNat regQy) = true) :
    pmulCommand s =
      .ok (pmulResult s (ladder (s.regNat regK) (.affine (s.regNat regQx) (s.regNat regQy)))) := by
  rw [pmulCommand, State.publicPointValid, if_pos h]

/-- And on any other pair. -/
theorem pmulCommand_of_not_onCurve (h : ¬ onCurve (s.regNat regQx) (s.regNat regQy) = true) :
    pmulCommand s = .error .invalidPublicKey := by
  rw [pmulCommand, State.publicPointValid, if_neg h]

theorem scalarValid_iff {d : Nat} : scalarValid d = true ↔ 1 ≤ d ∧ d < groupOrder := by
  simp only [scalarValid, Bool.and_eq_true, decide_eq_true_eq]

/-- `DERIVE` with a scalar in range (R159). -/
theorem exec_derive {x y : Nat} (hlo : 1 ≤ s.regNat regD) (hhi : s.regNat regD < groupOrder)
    (h : ladder (s.regNat regD) basePoint = .affine x y) :
    ∃ t, exec .derive s = .next t ∧ Succeeded t (parityFlag y) ∧ Framed { regs := [regQx, regQy] } s t ∧
      t.regNat regQx = x ∧ t.regNat regQy = y := by
  have hred := ladder_reduced (s.regNat regD) basePoint_reduced
  rw [h] at hred
  obtain ⟨hx, hy⟩ := Point.reduced_affine.mp hred
  have hcmd : deriveCommand s = .ok (s.setPoint regQx regQy x y, parityFlag y) := by
    rw [deriveCommand, if_pos (scalarValid_iff.mpr ⟨hlo, hhi⟩), h]
  exact exec_setPoint (i := .derive) hcmd (by decide) (hx.trans fieldPrime_lt) (hy.trans fieldPrime_lt)

theorem deriveCommand_of_not_valid (h : s.regNat regD = 0 ∨ groupOrder ≤ s.regNat regD) :
    deriveCommand s = .error .invalidKey := by
  rw [deriveCommand, if_neg fun hv => by have := scalarValid_iff.mp hv; omega]

theorem State.inRange_iff {off n : Nat} : s.inRange off n = true ↔ off + n ≤ s.params.dmemBytes := decide_eq_true_iff

section
variable {comp : PointForm}

/-- `PK_ENCODE` checks the range first (R161). -/
theorem pkEncodeCommand_of_range (h : s.params.dmemBytes < s.dstOff.toNat + encLength comp) :
    pkEncodeCommand comp s = .error .badRange := by
  have hr : s.dstInRange (encLength comp) = false := decide_eq_false (by omega)
  rw [pkEncodeCommand, hr]
  rfl

/-- Then the point. -/
theorem pkEncodeCommand_of_not_onCurve (hr : s.dstInRange (encLength comp) = true)
    (h : onCurve (s.regNat regQx) (s.regNat regQy) = false) :
    pkEncodeCommand comp s = .error .invalidPublicKey := by
  rw [pkEncodeCommand, hr, State.publicPointValid, h]
  rfl

theorem pkEncodeCommand_of_onCurve (hr : s.dstInRange (encLength comp) = true)
    (h : onCurve (s.regNat regQx) (s.regNat regQy) = true) :
    pkEncodeCommand comp s =
      .ok (s.memOutput (encPoint comp (s.regNat regQx) (s.regNat regQy)), parityFlag (s.regNat regQy)) := by
  rw [pkEncodeCommand, hr, State.publicPointValid, h]
  rfl

theorem encLength_lt (comp : PointForm) : encLength comp < 2 ^ 32 := by cases comp <;> decide

/-- `PK_ENCODE` stores the encoding and its length (R161). -/
theorem exec_pkEncode (hr : s.dstInRange (encLength comp) = true)
    (h : onCurve (s.regNat regQx) (s.regNat regQy) = true) :
    ∃ t, exec (.pkEncode comp) s = .next t ∧ Succeeded t (parityFlag (s.regNat regQy)) ∧
      Framed { stored := encLength comp, dstLen := true } s t ∧ t.dstLen.toNat = encLength comp ∧
      t.memRead s.dstOff.toNat (encLength comp) = encPoint comp (s.regNat regQx) (s.regNat regQy) := by
  have hlen := encPoint_length comp (s.regNat regQx) (s.regNat regQy)
  refine ⟨_, exec_of_ok (pkEncodeCommand_of_onCurve hr h), succeeded_complete _ _,
    (framed_memOutput s _ hlen.le rfl).complete _, ?_, State.memRead_memOutput s _ hlen⟩
  exact (State.dstLen_memOutput s _ (hlen ▸ encLength_lt comp)).trans hlen

end

/-- `PK_DECODE` checks the range first (R162). -/
theorem pkDecodeCommand_of_range (h : s.params.dmemBytes < s.srcOff.toNat + s.srcLen.toNat) :
    pkDecodeCommand s = .error .badRange := by
  have hr : s.srcInRange = false := decide_eq_false (by omega)
  rw [pkDecodeCommand, hr]
  rfl

/-- Bytes that decode give the point (R162). -/
theorem exec_pkDecode (hr : s.srcInRange = true) {x y : Nat} (h : decodePoint s.srcBytes = some (x, y)) :
    ∃ t, exec .pkDecode s = .next t ∧ Succeeded t (parityFlag y) ∧ Framed { regs := [regQx, regQy] } s t ∧
      t.regNat regQx = x ∧ t.regNat regQy = y := by
  obtain ⟨hx, hy⟩ := decodePoint_lt h
  have hcmd : pkDecodeCommand s = .ok (s.setPoint regQx regQy x y, parityFlag y) := by
    rw [pkDecodeCommand, hr, h]
    rfl
  exact exec_setPoint (i := .pkDecode) hcmd (by decide) hx hy

/-- Any other bytes are no public key (R162). -/
theorem raises_pkDecode (hr : s.srcInRange = true) (h : decodePoint s.srcBytes = none) :
    Raises .pkDecode s .invalidPublicKey := by
  apply raises_of_error
  rw [commandResult, pkDecodeCommand, hr, h]
  rfl

/-- 33 source bytes: a lead byte and the rest. -/
theorem State.srcBytes_of_length_33 (h : s.srcLen.toNat = 33) :
    s.srcBytes = s.dmem.readByte s.srcOff.toNat :: s.memRead (s.srcOff.toNat + 1) 32 := by
  rw [State.srcBytes, h, State.memRead_succ]

/-- 65 source bytes: a lead byte and two strings of 32. -/
theorem State.srcBytes_of_length_65 (h : s.srcLen.toNat = 65) :
    s.srcBytes = s.dmem.readByte s.srcOff.toNat ::
      (s.memRead (s.srcOff.toNat + 1) 32 ++ s.memRead (s.srcOff.toNat + 33) 32) := by
  rw [State.srcBytes, h, State.memRead_succ, State.memRead_add s _ 32 32]

end Sys2Proof.Machine

namespace Sys2Proof.Proofs

open Sys2Proof.Machine

/-- Settles O31: the product is reported as R157 says, and 0 and 1 have the products `INF` and `G`. -/
theorem pmulGEffect : Obligations.PmulGEffect := by
  unfold Obligations.PmulGEffect
  refine ⟨rfl, fun s => ?_⟩
  obtain ⟨t, ht, hframe, hrep⟩ :=
    exec_pmulResult (i := .pmulG) (s := s) rfl (ladder_reduced (s.regNat regK) basePoint_reduced)
  refine ⟨t, ht, hframe, hrep, fun h0 => ?_, fun h1 => ?_⟩
  · rw [h0, ladder_zero] at hrep
    exact hrep.words_of_inf
  · rw [h1, ladder_one] at hrep
    exact hrep.words_of_basePoint

/-- Settles O32: as O31 for a point of the curve, whose coordinates are residues; 1 copies it. -/
theorem pmulEffect : Obligations.PmulEffect := by
  unfold Obligations.PmulEffect
  refine ⟨rfl, fun s => ?_⟩
  split
  next hcurve =>
    obtain ⟨hqx, hqy, -⟩ := onCurve_iff.mp hcurve
    obtain ⟨t, ht, hframe, hrep⟩ := exec_pmulResult (i := .pmul) (pmulCommand_of_onCurve hcurve)
      (ladder_reduced (s.regNat regK) (Point.reduced_affine.mpr ⟨hqx, hqy⟩))
    refine ⟨t, ht, hframe, hrep, fun h1 => ?_⟩
    rw [h1, ladder_one] at hrep
    obtain ⟨-, hx, hy⟩ := hrep
    exact ⟨BitVec.eq_of_toNat_eq hx, BitVec.eq_of_toNat_eq hy⟩
  next hcurve => exact raises_of_error (pmulCommand_of_not_onCurve hcurve)

/-- Settles O33: the scalar check of R159, and the product by 1. -/
theorem deriveEffect : Obligations.DeriveEffect := by
  unfold Obligations.DeriveEffect
  refine ⟨rfl, fun s x y hlo hhi h => exec_derive hlo hhi h, fun s h1 => ?_, fun s h => ?_⟩
  · have hlt : s.regNat regD < groupOrder := by rw [h1]; decide
    obtain ⟨t, ht, hok, -, hx, hy⟩ := exec_derive h1.ge hlt (by rw [h1, ladder_one]; rfl)
    rw [parityFlag_genY] at hok
    exact ⟨t, ht, hok, hx, hy⟩
  · exact raises_of_error (deriveCommand_of_not_valid h)

/-- Settles O34: R161's order of checks, and the encoding read back. -/
theorem pkEncodeEffect : Obligations.PkEncodeEffect := by
  unfold Obligations.PkEncodeEffect
  refine ⟨rfl, rfl, fun comp s => ?_⟩
  split
  next hrange => exact raises_of_error (pkEncodeCommand_of_range hrange)
  next hrange =>
    have hr : s.dstInRange (encLength comp) = true := State.inRange_iff.mpr (not_lt.mp hrange)
    split
    next hcurve => exact raises_of_error (pkEncodeCommand_of_not_onCurve hr hcurve)
    next hcurve =>
      obtain ⟨t, ht, hok, hframe, hlen, hbytes⟩ := exec_pkEncode hr (Bool.not_eq_false _ ▸ hcurve)
      refine ⟨t, ht, hok, hframe, hlen, hbytes.trans ?_⟩
      cases comp with
      | compressed => rfl
      | uncompressed => rfl

/-- Settles O35: the range, then what the source bytes decode to. -/
theorem pkDecodeEffect : Obligations.PkDecodeEffect := by
  unfold Obligations.PkDecodeEffect
  refine ⟨rfl, fun s => ?_⟩
  split
  next hrange => exact raises_of_error (pkDecodeCommand_of_range hrange)
  next hrange =>
    have hr : s.srcInRange = true := State.inRange_iff.mpr (not_lt.mp hrange)
    refine ⟨fun x y => exec_pkDecode hr, raises_pkDecode hr, fun lead x c y h33 hlead hx hc hy => ?_,
      fun x y h65 hx hy => ?_, fun h33 h65 => ?_⟩
    · have hdec := decodePoint_compressed (lead := lead) (s.memRead_length _ 32) hx hc (hy.trans (sqrtp_eq c).symm)
      rw [hlead, ← State.srcBytes_of_length_33 h33, ← hlead] at hdec
      split
      next h =>
        rw [if_pos h] at hdec
        obtain ⟨t, ht⟩ := exec_pkDecode hr hdec
        exact ⟨t, rootOfParity lead y, rfl, ht⟩
      next h => exact raises_pkDecode hr (hdec.trans (if_neg h))
    · have hdec := decodePoint_uncompressed (lead := s.dmem.readByte s.srcOff.toNat) (s.memRead_length _ 32)
        (s.memRead_length _ 32) hx hy
      rw [← State.srcBytes_of_length_65 h65] at hdec
      split
      next h => exact exec_pkDecode hr (hdec.trans (if_pos h))
      next h => exact raises_pkDecode hr (hdec.trans (if_neg h))
    · have hlen := s.srcBytes_length
      exact raises_pkDecode hr (decodePoint_of_length (hlen ▸ h33) (hlen ▸ h65))

/-- Settles O36: the two forms of a string that decodes, and what each form decodes to. -/
theorem pointCodecRoundTrip : Obligations.PointCodecRoundTrip := by
  unfold Obligations.PointCodecRoundTrip
  refine ⟨fun b x y h => ?_, fun x y => decodePoint_encUncompressed, fun lead rest x c y hlen hx hc hy => ?_⟩
  · rcases decodePoint_some h with hc | hu
    · exact ⟨hc.x_lt, hc.equation, .inl ⟨hc.length, hc.encodes, hc.y_le⟩⟩
    · obtain ⟨hx, -, heq⟩ := onCurve_iff.mp hu.point
      exact ⟨hx, heq, .inr ⟨hu.length, hu.encodes, hu.point⟩⟩
  · exact decodePoint_compressed hlen hx hc (hy.trans (sqrtp_eq c).symm)

end Sys2Proof.Proofs
end

section
/-! The bounded nonce search (spec/42_nonce.md R186, R197): it walks the sequence of candidates of a generator and
stops at the first acceptable one, or at the end of its budget. -/

namespace Sys2Proof.Machine

/-- One rejection (R186, R197): a candidate is drawn and the generator reseeded. -/
def drbgReject (g : Drbg) : Drbg := drbgReseed (drbgGen g)

/-- The generator after its candidate `j`, from 0: what `drbg_gen` gives after `j` rejections. -/
def drbgAt (g : Drbg) (j : Nat) : Drbg := drbgGen (drbgReject^[j] g)

/-- None of the first `j` candidates is acceptable. -/
def RejectsFirst (g : Drbg) (j : Nat) : Prop := ∀ k, k < j → nonceValid (drbgAt g k).candidate = false

theorem nonceValid_iff {k : Nat} : nonceValid k = true ↔ 1 ≤ k ∧ k < groupOrder := by
  simp only [nonceValid, Bool.and_eq_true, decide_eq_true_eq]

section
variable {g : Drbg} {budget : Nat}

theorem nonceSearch_of_valid {left : Nat} (h : nonceValid (drbgAt g 0).candidate = true) :
    nonceSearch (left + 1) g = .ok { gen := drbgAt g 0, left := left } := if_pos h

theorem nonceSearch_of_invalid {left : Nat} (h : nonceValid (drbgAt g 0).candidate = false) :
    nonceSearch (left + 1) g = nonceSearch left (drbgReject g) := if_neg (Bool.eq_false_iff.mp h)

theorem rejectsFirst_succ_left {j : Nat} :
    RejectsFirst g (j + 1) ↔ nonceValid (drbgAt g 0).candidate = false ∧ RejectsFirst (drbgReject g) j :=
  Nat.forall_lt_succ_left

theorem rejectsFirst_succ_right {j : Nat} :
    RejectsFirst g (j + 1) ↔ RejectsFirst g j ∧ nonceValid (drbgAt g j).candidate = false :=
  Nat.forall_lt_succ_right

/-- A search spends one candidate of its budget on each rejection. -/
theorem nonceSearch_of_rejectsFirst {j : Nat} (h : RejectsFirst g j) (left : Nat) :
    nonceSearch (left + j) g = nonceSearch left (drbgReject^[j] g) := by
  induction j generalizing g with
  | zero => rfl
  | succ j ih =>
    obtain ⟨hfirst, hrest⟩ := rejectsFirst_succ_left.mp h
    exact (nonceSearch_of_invalid hfirst).trans (ih hrest)

/-- Among `budget` candidates none is acceptable, or one is the first that is. -/
theorem rejectsFirst_or_exists_first (g : Drbg) (budget : Nat) :
    RejectsFirst g budget ∨
      ∃ j, j < budget ∧ RejectsFirst g j ∧ nonceValid (drbgAt g j).candidate = true := by
  induction budget with
  | zero => exact .inl nofun
  | succ n ih =>
    rcases ih with hnone | ⟨j, hj, hfirst⟩
    · cases hn : nonceValid (drbgAt g n).candidate with
      | false => exact .inl (rejectsFirst_succ_right.mpr ⟨hnone, hn⟩)
      | true => exact .inr ⟨n, n.lt_succ_self, hnone, hn⟩
    · exact .inr ⟨j, hj.trans n.lt_succ_self, hfirst⟩

theorem nonceSearch_eq_error (h : RejectsFirst g budget) : nonceSearch budget g = .error .nonceExhausted := by
  rw [← Nat.zero_add budget, nonceSearch_of_rejectsFirst h]
  rfl

theorem nonceSearch_eq_ok {j : Nat} (hj : j < budget) (hrej : RejectsFirst g j)
    (hv : nonceValid (drbgAt g j).candidate = true) :
    nonceSearch budget g = .ok { gen := drbgAt g j, left := budget - (j + 1) } := by
  have hb : budget = budget - (j + 1) + 1 + j := by omega
  calc nonceSearch budget g
      _ = nonceSearch (budget - (j + 1) + 1 + j) g := congrArg (nonceSearch · g) hb
      _ = nonceSearch (budget - (j + 1) + 1) (drbgReject^[j] g) := nonceSearch_of_rejectsFirst hrej _
      _ = .ok { gen := drbgAt g j, left := budget - (j + 1) } := nonceSearch_of_valid hv

/-- A search succeeds exactly with the first acceptable candidate of its budget. -/
theorem nonceSearch_eq_ok_iff {draw : NonceDraw} :
    nonceSearch budget g = .ok draw ↔
      ∃ j, j < budget ∧ draw.left = budget - (j + 1) ∧ draw.gen = drbgAt g j ∧
        nonceValid draw.gen.candidate = true ∧ RejectsFirst g j := by
  constructor
  · intro h
    rcases rejectsFirst_or_exists_first g budget with hnone | ⟨j, hj, hrej, hv⟩
    · cases (nonceSearch_eq_error hnone).symm.trans h
    · cases (nonceSearch_eq_ok hj hrej hv).symm.trans h
      exact ⟨j, hj, rfl, rfl, hv, hrej⟩
  · obtain ⟨gen, left⟩ := draw
    rintro ⟨j, hj, rfl, rfl, hv, hrej⟩
    exact nonceSearch_eq_ok hj hrej hv

/-- And fails exactly when its whole budget is rejected. -/
theorem nonceSearch_eq_error_iff :
    nonceSearch budget g = .error .nonceExhausted ↔ RejectsFirst g budget := by
  refine ⟨fun h => ?_, nonceSearch_eq_error⟩
  rcases rejectsFirst_or_exists_first g budget with hnone | ⟨j, hj, hrej, hv⟩
  · exact hnone
  · cases (nonceSearch_eq_ok hj hrej hv).symm.trans h

/-- The candidate of a draw is in range. -/
theorem nonceSearch_candidate {draw : NonceDraw} (h : nonceSearch budget g = .ok draw) :
    1 ≤ draw.gen.candidate ∧ draw.gen.candidate < groupOrder := by
  obtain ⟨_, -, -, -, hv, -⟩ := nonceSearch_eq_ok_iff.mp h
  exact nonceValid_iff.mp hv

end

/-! The two strings of a generator (R185), so that the 256-bit registers hold them. -/

/-- Both strings have 32 bytes (R185). -/
structure Drbg.Sized (g : Drbg) : Prop where
  kd : g.kd.length = 32
  vd : g.vd.length = 32

theorem drbgInit_sized (d z : Nat) : (drbgInit d z).Sized := ⟨drbgInit_kd_length d z, drbgInit_vd_length d z⟩

theorem drbgReseed_sized (g : Drbg) : (drbgReseed g).Sized := ⟨drbgReseed_kd_length g, drbgReseed_vd_length g⟩

theorem drbgAt_sized {g : Drbg} (h : g.Sized) (j : Nat) : (drbgAt g j).Sized := by
  refine ⟨?_, drbgGen_vd_length _⟩
  cases j with
  | zero => exact h.kd
  | succ j =>
    rw [drbgAt, Function.iterate_succ_apply', drbgGen_kd]
    exact drbgReseed_kd_length _

theorem nonceSearch_sized {budget : Nat} {g : Drbg} {draw : NonceDraw} (hg : g.Sized)
    (h : nonceSearch budget g = .ok draw) : draw.gen.Sized := by
  obtain ⟨j, -, -, hgen, -, -⟩ := nonceSearch_eq_ok_iff.mp h
  exact hgen ▸ drbgAt_sized hg j

/-- A digest enters the generator modulo `n` (R184). -/
theorem drbgInit_add_groupOrder (d z : Nat) : drbgInit d (z + groupOrder) = drbgInit d z := by
  unfold drbgInit
  rw [Nat.add_mod_right]

end Sys2Proof.Machine
end

section
/-! The nonce commands (spec/42_nonce.md R198, R199): what each computes, and what a nonce written leaves in the
registers. -/

namespace Sys2Proof.Machine

variable {s : State}

/-- A command whose result is an error completes with it. -/
theorem exec_of_error {i : Instr} {e : ErrCode} (h : commandResult i s = .error e) :
    exec i s = .next (s.errorCommit (writesOutput i) e) := by rw [exec_eq, h]; rfl

theorem groupOrder_lt : groupOrder < 2 ^ 256 := modulusOf_lt .orderN

/-- `NONCE_FIRST` with a scalar and a search that succeeds (R198). -/
theorem nonceFirstCommand_of_draw {draw : NonceDraw} (hd : scalarValid (s.regNat regD) = true)
    (h : nonceSearch s.params.nonceTries (drbgInit (s.regNat regD) (s.regNat regZ)) = .ok draw) :
    nonceFirstCommand s = .ok (s.putNonce draw.gen, noFlags) := by
  rw [nonceFirstCommand, if_pos hd, h]

theorem nonceFirstCommand_of_error {e : ErrCode} (hd : scalarValid (s.regNat regD) = true)
    (h : nonceSearch s.params.nonceTries (drbgInit (s.regNat regD) (s.regNat regZ)) = .error e) :
    nonceFirstCommand s = .error e := by
  rw [nonceFirstCommand, if_pos hd, h]

theorem nonceFirstCommand_of_not_valid (h : s.regNat regD = 0 ∨ groupOrder ≤ s.regNat regD) :
    nonceFirstCommand s = .error .invalidKey := by
  rw [nonceFirstCommand, if_neg fun hv => by have := scalarValid_iff.mp hv; omega]

/-- `NONCE_NEXT` with a live generator and a search that succeeds (R199). -/
theorem nonceNextCommand_of_draw {draw : NonceDraw} (hlive : s.drbgValid = true)
    (h : nonceSearch s.params.nonceTries (drbgReseed s.drbg) = .ok draw) :
    nonceNextCommand s = .ok (s.putNonce draw.gen, noFlags) := by
  rw [nonceNextCommand, if_pos hlive, h]

theorem nonceNextCommand_of_error {e : ErrCode} (hlive : s.drbgValid = true)
    (h : nonceSearch s.params.nonceTries (drbgReseed s.drbg) = .error e) : nonceNextCommand s = .error e := by
  rw [nonceNextCommand, if_pos hlive, h]

theorem nonceNextCommand_of_not_live (h : s.drbgValid = false) : nonceNextCommand s = .error .sequence := by
  rw [nonceNextCommand, if_neg (Bool.eq_false_iff.mp h)]

/-- A nonce and its generator are written to `R[2]` and the hidden registers alone. -/
theorem Framed.putNonce {f : Footprint} {t : State} (h : Framed f s t) (g : Drbg) (hk : regK ∈ f.regs)
    (hd : f.drbg = true) : Framed f s (t.putNonce g) := (h.setRegNat _ hk).setDrbg _ _ hd

theorem State.regNat_putNonce (s : State) {g : Drbg} (h : g.candidate < groupOrder) :
    (s.putNonce g).regNat regK = g.candidate :=
  State.regNat_setRegNat_self s regK (h.trans groupOrder_lt)

theorem State.reg_putNonce (s : State) (g : Drbg) : (s.putNonce g).reg regK = BitVec.ofNat 256 g.candidate :=
  State.reg_setReg_self s regK _

theorem State.be256_putNonce_drbgK (s : State) {g : Drbg} (h : g.Sized) : be256 (s.putNonce g).drbgK = g.kd :=
  be256_ofNat_beInt g.kd h.kd

theorem State.be256_putNonce_drbgV (s : State) {g : Drbg} (h : g.Sized) : be256 (s.putNonce g).drbgV = g.vd :=
  be256_ofNat_beInt g.vd h.vd

/-- A command that computes the writes of a draw completes with the nonce and its generator. -/
theorem exec_putNonce {i : Instr} {budget : Nat} {g : Drbg} {draw : NonceDraw} (hg : g.Sized)
    (hs : nonceSearch budget g = .ok draw) (h : commandResult i s = .ok (s.putNonce draw.gen, noFlags)) :
    ∃ t, exec i s = .next t ∧ Succeeded t noFlags ∧ Framed { regs := [regK], drbg := true } s t ∧
      t.regNat regK = draw.gen.candidate ∧ 1 ≤ t.regNat regK ∧ t.regNat regK < groupOrder ∧
      be256 t.drbgK = draw.gen.kd ∧ be256 t.drbgV = draw.gen.vd ∧ t.drbgValid = true := by
  obtain ⟨hlo, hhi⟩ := nonceSearch_candidate hs
  have hsized := nonceSearch_sized hg hs
  have hk : ((s.putNonce draw.gen).complete noFlags).regNat regK = draw.gen.candidate := s.regNat_putNonce hhi
  exact ⟨_, exec_of_ok h, succeeded_complete _ _,
    ((Framed.refl _ s).putNonce draw.gen (List.mem_singleton_self regK) rfl).complete _, hk, hk.symm ▸ hlo,
    hk.symm ▸ hhi, s.be256_putNonce_drbgK hsized, s.be256_putNonce_drbgV hsized, rfl⟩

/-- `NONCE_NEXT` computes the same writes, or the same error, in every state with the same generator and parameters
(R199: it reads nothing else). -/
theorem nonceNextCommand_congr {s s' : State} (hparams : s'.params = s.params) (hdrbg : s'.drbg = s.drbg)
    (hlive : s'.drbgValid = s.drbgValid) :
    (∃ g, nonceNextCommand s = .ok (s.putNonce g, noFlags) ∧ nonceNextCommand s' = .ok (s'.putNonce g, noFlags)) ∨
    ∃ e, nonceNextCommand s = .error e ∧ nonceNextCommand s' = .error e := by
  have hsearch : nonceSearch s'.params.nonceTries (drbgReseed s'.drbg) =
      nonceSearch s.params.nonceTries (drbgReseed s.drbg) := by rw [hparams, hdrbg]
  cases hv : s.drbgValid with
  | false => exact .inr ⟨_, nonceNextCommand_of_not_live hv, nonceNextCommand_of_not_live (hlive.trans hv)⟩
  | true =>
    cases hs : nonceSearch s.params.nonceTries (drbgReseed s.drbg) with
    | error e =>
      exact .inr ⟨e, nonceNextCommand_of_error hv hs,
        nonceNextCommand_of_error (hlive.trans hv) (hsearch.trans hs)⟩
    | ok draw =>
      exact .inl ⟨draw.gen, nonceNextCommand_of_draw hv hs,
        nonceNextCommand_of_draw (hlive.trans hv) (hsearch.trans hs)⟩

/-- A write of `R[0]` or `R[1]` leaves `R[2]`. -/
theorem State.reg_regK_setReg_inputs (s : State) (d z : Reg) :
    ((s.setReg regD d).setReg regZ z).reg regK = s.reg regK := by
  rw [State.reg_setReg_of_ne _ z (by decide), State.reg_setReg_of_ne s d (by decide)]

end Sys2Proof.Machine

namespace Sys2Proof.Proofs

open Sys2Proof.Machine

/-- Settles O37: a search rejects its whole budget or stops at the first acceptable candidate. -/
theorem nonceSearchBounded : Obligations.NonceSearchBounded := by
  unfold Obligations.NonceSearchBounded
  refine fun budget g => ⟨fun draw => nonceSearch_eq_ok_iff.trans ?_, nonceSearch_eq_error_iff⟩
  simp only [nonceValid_iff, and_assoc]
  rfl

/-- Settles O38: the scalar check, then the search from the seeded generator. -/
theorem nonceFirstEffect : Obligations.NonceFirstEffect := by
  unfold Obligations.NonceFirstEffect
  refine ⟨rfl, fun s draw hlo hhi h => ?_, fun s h => ?_, fun s hlo hhi h => ?_, drbgInit_add_groupOrder⟩
  · exact exec_putNonce (drbgInit_sized _ _) h (nonceFirstCommand_of_draw (scalarValid_iff.mpr ⟨hlo, hhi⟩) h)
  · exact raises_of_error (nonceFirstCommand_of_not_valid h)
  · exact raises_of_error (nonceFirstCommand_of_error (scalarValid_iff.mpr ⟨hlo, hhi⟩) h)

/-- Settles O39: the search from the reseeded live generator; `R[0]` and `R[1]` are not read. -/
theorem nonceNextEffect : Obligations.NonceNextEffect := by
  unfold Obligations.NonceNextEffect
  refine ⟨rfl, fun s draw hlive h => ?_, fun s h => ?_, fun s hlive h => ?_, fun s d z => ?_⟩
  · exact exec_putNonce (drbgReseed_sized _) h (nonceNextCommand_of_draw hlive h)
  · exact raises_of_error (nonceNextCommand_of_not_live h)
  · exact raises_of_error (nonceNextCommand_of_error hlive h)
  · rcases nonceNextCommand_congr (s := s) (s' := (s.setReg regD d).setReg regZ z) rfl rfl rfl with
      ⟨g, ht, hu⟩ | ⟨e, ht, hu⟩
    · exact ⟨_, _, exec_of_ok ht, exec_of_ok hu, rfl, (State.reg_putNonce _ g).trans (s.reg_putNonce g).symm, rfl, rfl⟩
    · exact ⟨_, _, exec_of_error ht, exec_of_error hu, rfl, s.reg_regK_setReg_inputs d z, rfl, rfl⟩

end Sys2Proof.Proofs
end

section
/-! The signing core (spec/43_ecdsa_sign.md R211): the equations, and what their halves satisfy. -/

namespace Sys2Proof.Machine

/-- `(n - 1) / 2` is the literal that the low-s choice compares with. -/
theorem halfOrder_eq : halfOrder = (groupOrder - 1) / 2 := by decide

/-- `n` is odd, so one of `s` and `n - s` is low. -/
theorem groupOrder_eq_two_mul_halfOrder_add_one : groupOrder = 2 * halfOrder + 1 := by decide

theorem lowS_eq (lows : Bool) (w : Nat) :
    lowS lows w = if lows = true ∧ (groupOrder - 1) / 2 < w then groupOrder - w else w := by
  simp only [lowS, halfOrder_eq, Bool.and_eq_true, decide_eq_true_eq]

/-- What R211 promises of a signature: "0 < r < n, 0 < s < n", and a low `s` when `lows` is set. -/
structure SignatureInRange (lows : Bool) (rs : Nat × Nat) : Prop where
  r_pos : 0 < rs.1
  r_lt : rs.1 < groupOrder
  s_pos : 0 < rs.2
  s_lt : rs.2 < groupOrder
  s_low : lows = true → rs.2 ≤ (groupOrder - 1) / 2

/-- The low-s choice stays in `[1, n-1]`, and in the lower half of it when `lows` is set. -/
theorem signatureInRange_lowS {r w : Nat} (lows : Bool) (hr : 0 < r) (hrn : r < groupOrder) (hw : 0 < w)
    (hwn : w < groupOrder) : SignatureInRange lows (r, lowS lows w) := by
  have hodd := groupOrder_eq_two_mul_halfOrder_add_one
  rw [lowS_eq, ← halfOrder_eq]
  split
  next h => exact ⟨hr, hrn, by omega, by omega, fun _ => by rw [← halfOrder_eq]; omega⟩
  next h => exact ⟨hr, hrn, hw, hwn, fun hl => by rw [← halfOrder_eq]; exact not_lt.mp fun hlt => h ⟨hl, hlt⟩⟩

/-- The second half before the low-s choice, as a power (R211, R13). -/
theorem mulm_invm_groupOrder (k e : Nat) :
    mulm (invm k groupOrder) e groupOrder = k ^ (groupOrder - 2) * e % groupOrder := by
  rw [mulm, show invm k groupOrder = k ^ (groupOrder - 2) % groupOrder from invm_modulusOf k .orderN, Nat.mod_mul_mod]

section
variable {d z k x y r w : Nat} {lows : Bool}

/-- The core on a nonce with an affine point: none when a half is 0, else the two halves (R211). -/
theorem signCore_of_affine (h : ladder k basePoint = .affine x y) (hr : r = x % groupOrder)
    (hw : w = k ^ (groupOrder - 2) * ((z + r * d) % groupOrder) % groupOrder) :
    signCore d z k lows = if r = 0 ∨ w = 0 then none else some (r, lowS lows w) := by
  rw [← mulm_invm_groupOrder] at hw
  simp only [signCore, h, ← hr, ← hw, ite_or]

/-- Every signature of the core is in range. -/
theorem signCore_inRange {rs : Nat × Nat} (h : signCore d z k lows = some rs) : SignatureInRange lows rs := by
  have hpos : 0 < groupOrder := modulusOf_pos .orderN
  cases hp : ladder k basePoint with
  | inf => simp only [signCore, hp, reduceCtorEq] at h
  | affine x y =>
    rw [signCore_of_affine hp rfl rfl] at h
    split at h
    · cases h
    next hne =>
      obtain ⟨hr, hw⟩ := not_or.mp hne
      exact Option.some.inj h ▸ signatureInRange_lowS lows (Nat.pos_of_ne_zero hr) (Nat.mod_lt _ hpos)
        (Nat.pos_of_ne_zero hw) (Nat.mod_lt _ hpos)

end

section
variable {turns budget d z : Nat} {lows : Bool} {g : Drbg} {rs : Nat × Nat}

/-- How the loop of R213 can find a signature: it draws a candidate that signs, or one that does not, and then the
rest of the loop finds it from the reseeded generator with the budget left. -/
theorem signLoop_ok_cases (h : signLoop turns budget d z lows g = .ok rs) :
    ∃ draw, nonceSearch budget g = .ok draw ∧
      (signCore d z draw.gen.candidate lows = some rs ∨
        ∃ rest, turns = rest + 1 ∧ signCore d z draw.gen.candidate lows = none ∧
          signLoop rest draw.left d z lows (drbgReseed draw.gen) = .ok rs) := by
  cases turns with
  | zero => cases h
  | succ rest =>
    rw [signLoop] at h
    split at h
    · cases h
    next draw hdraw =>
      refine ⟨draw, hdraw, ?_⟩
      split at h
      next hcore => exact .inl (hcore.trans (congrArg some (Except.ok.inj h)))
      next hcore => exact .inr ⟨rest, rfl, hcore, h⟩

/-- Every signature of the loop is one of the core, so in range. -/
theorem signLoop_inRange (h : signLoop turns budget d z lows g = .ok rs) : SignatureInRange lows rs := by
  induction turns generalizing budget g with
  | zero => cases h
  | succ turns ih =>
    obtain ⟨draw, -, hcore | ⟨rest, hturns, -, hrest⟩⟩ := signLoop_ok_cases h
    · exact signCore_inRange hcore
    · exact ih (Nat.succ.inj hturns ▸ hrest)

end

end Sys2Proof.Machine
end

section
/-! The signing commands (spec/43_ecdsa_sign.md R212, R213): what each computes, and what a signature written leaves
in the registers. -/

namespace Sys2Proof.Machine

variable {s : State}

/-- A command that computes the writes of a signature completes with its two halves. -/
theorem exec_putSignature {i : Instr} {lows : Bool} {rs : Nat × Nat} (hrs : SignatureInRange lows rs)
    (h : commandResult i s = .ok (s.putSignature rs, noFlags)) :
    ∃ t, exec i s = .next t ∧ Succeeded t noFlags ∧ Framed { regs := [regSigR, regSigS] } s t ∧
      t.regNat regSigR = rs.1 ∧ t.regNat regSigS = rs.2 :=
  exec_setPoint h (by decide) (hrs.r_lt.trans groupOrder_lt) (hrs.s_lt.trans groupOrder_lt)

theorem scalarValid_eq_false {d : Nat} (h : d = 0 ∨ groupOrder ≤ d) : scalarValid d = false :=
  Bool.eq_false_iff.mpr fun hv => by have := scalarValid_iff.mp hv; omega

theorem nonceValid_eq_false {k : Nat} (h : k = 0 ∨ groupOrder ≤ k) : nonceValid k = false :=
  Bool.eq_false_iff.mpr fun hv => by have := nonceValid_iff.mp hv; omega

/-- `SIGN_K` checks the key first (R212). -/
theorem signKCommand_of_key_not_valid (h : s.regNat regD = 0 ∨ groupOrder ≤ s.regNat regD) :
    signKCommand s = .error .invalidKey := by
  rw [signKCommand, scalarValid_eq_false h]
  rfl

/-- Then the nonce. -/
theorem signKCommand_of_nonce_not_valid (hd : scalarValid (s.regNat regD) = true)
    (h : s.regNat regK = 0 ∨ groupOrder ≤ s.regNat regK) : signKCommand s = .error .badNonce := by
  rw [signKCommand, hd, nonceValid_eq_false h]
  rfl

section
variable (hd : scalarValid (s.regNat regD) = true) (hk : nonceValid (s.regNat regK) = true)
include hd hk

/-- And asks for another nonce when the core gives none. -/
theorem signKCommand_of_none
    (h : signCore (s.regNat regD) (s.regNat regZ) (s.regNat regK) s.ctrl.lows = none) :
    signKCommand s = .error .retry := by
  rw [signKCommand, hd, hk, h]
  rfl

theorem signKCommand_of_some {rs : Nat × Nat}
    (h : signCore (s.regNat regD) (s.regNat regZ) (s.regNat regK) s.ctrl.lows = some rs) :
    signKCommand s = .ok (s.putSignature rs, noFlags) := by
  rw [signKCommand, hd, hk, h]
  rfl

end

/-- The loop that `ECDSA_SIGN` runs on a state (R213): its budget, its inputs, a generator of its own. -/
def State.signSearch (s : State) : Except ErrCode (Nat × Nat) :=
  signLoop s.params.nonceTries s.params.nonceTries (s.regNat regD) (s.regNat regZ) s.ctrl.lows
    (drbgInit (s.regNat regD) (s.regNat regZ))

/-- `ECDSA_SIGN` with a scalar out of range (R213). -/
theorem ecdsaSignCommand_of_not_valid (h : s.regNat regD = 0 ∨ groupOrder ≤ s.regNat regD) :
    ecdsaSignCommand s = .error .invalidKey := by
  rw [ecdsaSignCommand, if_neg (Bool.eq_false_iff.mp (scalarValid_eq_false h))]

theorem ecdsaSignCommand_of_error {e : ErrCode} (hd : scalarValid (s.regNat regD) = true)
    (h : s.signSearch = .error e) : ecdsaSignCommand s = .error e := by
  rw [State.signSearch] at h
  rw [ecdsaSignCommand, if_pos hd, h]

theorem ecdsaSignCommand_of_ok {rs : Nat × Nat} (hd : scalarValid (s.regNat regD) = true)
    (h : s.signSearch = .ok rs) : ecdsaSignCommand s = .ok (s.putSignature rs, noFlags) := by
  rw [State.signSearch] at h
  rw [ecdsaSignCommand, if_pos hd, h]

/-- A success of `ECDSA_SIGN` comes from a scalar in range and a signature of the loop. -/
theorem ecdsaSignCommand_ok {p : State × ResultFlags} (h : ecdsaSignCommand s = .ok p) :
    scalarValid (s.regNat regD) = true ∧ ∃ rs, s.signSearch = .ok rs := by
  cases hd : scalarValid (s.regNat regD) with
  | false => rw [ecdsaSignCommand, if_neg (Bool.eq_false_iff.mp hd)] at h; cases h
  | true =>
    cases hs : s.signSearch with
    | error e => cases (ecdsaSignCommand_of_error hd hs).symm.trans h
    | ok rs => exact ⟨rfl, rs, rfl⟩

/-- No error kind has the code 0, which is success (spec/60_exceptions.md R290). -/
theorem ErrCode.code_ne_zero (e : ErrCode) : e.code ≠ 0 := by cases e <;> decide

end Sys2Proof.Machine
end

section
/-! The low-level signing path (spec/43_ecdsa_sign.md R213, spec/42_nonce.md R199): the host's loop follows the
loop inside `ECDSA_SIGN` draw by draw. Its searches start with the whole budget every time, where the inner loop has
what is left of one budget, so it finds at least as much. -/

namespace Sys2Proof.Machine

/-- A larger budget draws the same nonce. -/
theorem nonceSearch_of_le {budget more : Nat} {g : Drbg} {draw : NonceDraw} (h : nonceSearch budget g = .ok draw)
    (hle : budget ≤ more) : ∃ left, nonceSearch more g = .ok { gen := draw.gen, left := left } := by
  obtain ⟨j, hj, -, hgen, hv, hrej⟩ := nonceSearch_eq_ok_iff.mp h
  exact ⟨more - (j + 1), nonceSearch_eq_ok_iff.mpr ⟨j, hj.trans_le hle, rfl, hgen, hv, hrej⟩⟩

theorem nonceSearch_left_le {budget : Nat} {g : Drbg} {draw : NonceDraw} (h : nonceSearch budget g = .ok draw) :
    draw.left ≤ budget := by
  obtain ⟨_, -, hleft, -⟩ := nonceSearch_eq_ok_iff.mp h
  omega

/-- What signing reads and no step of the path changes. -/
structure SameInputs (s t : State) : Prop where
  params : t.params = s.params
  key : t.reg regD = s.reg regD
  digest : t.reg regZ = s.reg regZ
  ctrl : t.ctrl = s.ctrl

theorem SameInputs.refl (s : State) : SameInputs s s := ⟨rfl, rfl, rfl, rfl⟩

theorem SameInputs.framed {f : Footprint} {s t u : State} (h : SameInputs s t) (hf : Framed f t u)
    (hd : regD ∉ f.regs) (hz : regZ ∉ f.regs) : SameInputs s u :=
  ⟨hf.params.trans h.params, (hf.regs _ hd).trans h.key, (hf.regs _ hz).trans h.digest, hf.ctrl.trans h.ctrl⟩

theorem SameInputs.regNat_key {s t : State} (h : SameInputs s t) : t.regNat regD = s.regNat regD :=
  congrArg BitVec.toNat h.key

theorem SameInputs.regNat_digest {s t : State} (h : SameInputs s t) : t.regNat regZ = s.regNat regZ :=
  congrArg BitVec.toNat h.digest

/-- A state of the path, begun in `s`, whose `R[2]` holds the nonce that its live generator `g` gave last. -/
structure NonceDrawn (s : State) (g : Drbg) (t : State) : Prop extends SameInputs s t where
  nonce : t.regNat regK = g.candidate
  valid : nonceValid g.candidate = true
  drbg : t.drbg = g
  live : t.drbgValid = true

/-- `NONCE_FIRST` and `NONCE_NEXT` reach such a state when their search succeeds. -/
theorem exec_nonceDrawn {i : Instr} {s t : State} {budget : Nat} {g : Drbg} {draw : NonceDraw} (ht : SameInputs s t)
    (hg : g.Sized) (hs : nonceSearch budget g = .ok draw)
    (h : commandResult i t = .ok (t.putNonce draw.gen, noFlags)) :
    ∃ u, exec i t = .next u ∧ u.status.err = 0 ∧ NonceDrawn s draw.gen u := by
  obtain ⟨u, hu, hok, hframe, hk, -, -, hkd, hvd, hlive⟩ := exec_putNonce hg hs h
  have hdrbg : u.drbg = draw.gen := by rw [State.drbg, hkd, hvd]
  exact ⟨u, hu, congrArg Status.err hok.status, ht.framed hframe (by decide) (by decide), hk,
    nonceValid_iff.mpr (nonceSearch_candidate hs), hdrbg, hlive⟩

section
variable {s t : State} {g : Drbg} (hd : scalarValid (s.regNat regD) = true) (ht : NonceDrawn s g t)
include hd ht

/-- `SIGN_K` with a drawn nonce that signs. -/
theorem NonceDrawn.exec_signK {rs : Nat × Nat}
    (h : signCore (s.regNat regD) (s.regNat regZ) g.candidate s.ctrl.lows = some rs) :
    ∃ u, exec .signK t = .next u ∧ u.status.err = 0 ∧ u.regNat regSigR = rs.1 ∧ u.regNat regSigS = rs.2 := by
  rw [← ht.regNat_key] at hd
  rw [← ht.regNat_key, ← ht.regNat_digest, ← ht.nonce, ← ht.ctrl] at h
  obtain ⟨u, hu, hok, -, hr, hw⟩ :=
    exec_putSignature (i := .signK) (signCore_inRange h) (signKCommand_of_some hd (ht.nonce ▸ ht.valid) h)
  exact ⟨u, hu, congrArg Status.err hok.status, hr, hw⟩

/-- And with one that does not: `Retry`, and no write. -/
theorem NonceDrawn.exec_signK_retry
    (h : signCore (s.regNat regD) (s.regNat regZ) g.candidate s.ctrl.lows = none) :
    exec .signK t = .next (t.errorCommit false .retry) := by
  rw [← ht.regNat_key] at hd
  rw [← ht.regNat_key, ← ht.regNat_digest, ← ht.nonce, ← ht.ctrl] at h
  exact exec_of_error (i := .signK) (signKCommand_of_none hd (ht.nonce ▸ ht.valid) h)

end

/-- `NONCE_NEXT` after the `Retry`: the next draw of the generator, with the whole budget. -/
theorem NonceDrawn.exec_nonceNext {s t : State} {g : Drbg} {draw : NonceDraw} (ht : NonceDrawn s g t)
    (h : nonceSearch s.params.nonceTries (drbgReseed g) = .ok draw) :
    ∃ u, exec .nonceNext (t.errorCommit false .retry) = .next u ∧ NonceDrawn s draw.gen u := by
  have hsame : SameInputs s (t.errorCommit false .retry) := ⟨ht.params, ht.key, ht.digest, ht.ctrl⟩
  have hsearch : nonceSearch (t.errorCommit false .retry).params.nonceTries
      (drbgReseed (t.errorCommit false .retry).drbg) = .ok draw := by
    rw [hsame.params, show (t.errorCommit false .retry).drbg = g from ht.drbg, h]
  obtain ⟨u, hu, -, hdrawn⟩ := exec_nonceDrawn (i := .nonceNext) hsame (drbgReseed_sized g) h
    (nonceNextCommand_of_draw ht.live hsearch)
  exact ⟨u, hu, hdrawn⟩

/-- The host's loop ends without an error with this signature, in some number of turns. -/
def LowLevelSigns (t : State) (rs : Nat × Nat) : Prop :=
  ∃ (turns : Nat) (u : State), lowLevelSign turns t = .next u ∧ u.status.err = 0 ∧
    u.regNat regSigR = rs.1 ∧ u.regNat regSigS = rs.2

/-- A `SIGN_K` without an error ends the host's loop. -/
theorem lowLevelSign_of_signed {t u : State} (turns : Nat) (h : exec .signK t = .next u) (herr : u.status.err = 0) :
    lowLevelSign (turns + 1) t = .next u := by
  simp only [lowLevelSign, h, herr, if_neg (ErrCode.code_ne_zero .retry).symm]

/-- After a `Retry` it goes on from where `NONCE_NEXT` ends. -/
theorem lowLevelSign_of_retry {t t' u : State} (turns : Nat) (h : exec .signK t = .next t')
    (herr : t'.status.err = ErrCode.code .retry) (hu : exec .nonceNext t' = .next u) :
    lowLevelSign (turns + 1) t = lowLevelSign turns u := by
  simp only [lowLevelSign, h, herr, if_true, hu]

/-- The simulation: where the loop of `ECDSA_SIGN` finds a signature with at most the whole budget, a search with
the whole budget draws a nonce from which the host's loop finds the same signature. -/
theorem lowLevelSigns_of_signLoop {s : State} (hd : scalarValid (s.regNat regD) = true) {turns budget : Nat} {g : Drbg}
    {rs : Nat × Nat} (hle : budget ≤ s.params.nonceTries)
    (h : signLoop turns budget (s.regNat regD) (s.regNat regZ) s.ctrl.lows g = .ok rs) :
    ∃ draw, nonceSearch s.params.nonceTries g = .ok draw ∧ ∀ t, NonceDrawn s draw.gen t → LowLevelSigns t rs := by
  induction turns generalizing budget g with
  | zero => cases h
  | succ turns ih =>
    obtain ⟨draw, hdraw, hcases⟩ := signLoop_ok_cases h
    obtain ⟨left, hwhole⟩ := nonceSearch_of_le hdraw hle
    refine ⟨_, hwhole, fun t ht => ?_⟩
    rcases hcases with hcore | ⟨rest, hturns, hcore, hrest⟩
    · obtain ⟨u, hu, herr, hsig⟩ := ht.exec_signK hd hcore
      exact ⟨1, u, lowLevelSign_of_signed 0 hu herr, herr, hsig⟩
    · obtain ⟨_, hnext, hsigns⟩ := ih ((nonceSearch_left_le hdraw).trans hle) (Nat.succ.inj hturns ▸ hrest)
      obtain ⟨t', ht', hdrawn⟩ := ht.exec_nonceNext hnext
      obtain ⟨n, u, hu, hend⟩ := hsigns t' hdrawn
      exact ⟨n + 1, u, (lowLevelSign_of_retry n (ht.exec_signK_retry hd hcore) rfl ht').trans hu, hend⟩

end Sys2Proof.Machine

namespace Sys2Proof.Proofs

open Sys2Proof.Machine

/-- Settles O40: the core's equations on the nonce's point, after the two checks in their order. -/
theorem signKEffect : Obligations.SignKEffect := by
  unfold Obligations.SignKEffect
  refine ⟨rfl, fun s x y r w hdlo hdhi hklo hkhi hpoint hr hw => ?_,
    fun s h => raises_of_error (signKCommand_of_key_not_valid h),
    fun s hdlo hdhi h => raises_of_error (signKCommand_of_nonce_not_valid (scalarValid_iff.mpr ⟨hdlo, hdhi⟩) h)⟩
  have hd := scalarValid_iff.mpr ⟨hdlo, hdhi⟩
  have hk := nonceValid_iff.mpr ⟨hklo, hkhi⟩
  have hcore := signCore_of_affine (lows := s.ctrl.lows) hpoint hr hw
  refine ⟨fun ⟨hrne, hwne⟩ => ?_, fun hzero => ?_⟩
  · rw [if_neg (not_or.mpr ⟨hrne, hwne⟩)] at hcore
    have hrange := signCore_inRange hcore
    obtain ⟨t, ht, hok, hframe, htr, htw⟩ :=
      exec_putSignature (i := .signK) hrange (signKCommand_of_some hd hk hcore)
    exact ⟨t, ht, hok, hframe, htr, htw.trans (lowS_eq _ w), htr ▸ hrange.r_pos, htr ▸ hrange.r_lt,
      htw ▸ hrange.s_pos, htw ▸ hrange.s_lt, htw ▸ hrange.s_low⟩
  · exact raises_of_error (signKCommand_of_none hd hk (hcore.trans (if_pos hzero)))

/-- Settles O41: every signature of the loop is one of the core, and its one error is `NonceExhausted`. -/
theorem ecdsaSignEffect : Obligations.EcdsaSignEffect := by
  unfold Obligations.EcdsaSignEffect
  refine ⟨rfl, fun s r w hlo hhi h => ?_, fun s h => raises_of_error (ecdsaSignCommand_of_not_valid h),
    fun s hlo hhi hnone => ?_⟩
  · have hrange := signLoop_inRange h
    obtain ⟨t, ht, hok, hframe, hr, hw⟩ := exec_putSignature (i := .ecdsaSign) hrange
      (ecdsaSignCommand_of_ok (scalarValid_iff.mpr ⟨hlo, hhi⟩) h)
    exact ⟨t, ht, hok, hframe, hr, hw, hrange.r_pos, hrange.r_lt, hrange.s_pos, hrange.s_lt, hrange.s_low⟩
  · cases hs : s.signSearch with
    | error e =>
      have he : e = .nonceExhausted := signLoop_error hs
      exact raises_of_error (ecdsaSignCommand_of_error (scalarValid_iff.mpr ⟨hlo, hhi⟩) (he ▸ hs))
    | ok rs => exact absurd hs (hnone rs)

/-- Settles O42, by the simulation of its loop from the state that `NONCE_FIRST` reaches. -/
theorem ecdsaSignMatchesLowLevelPath : Obligations.EcdsaSignMatchesLowLevelPath := by
  unfold Obligations.EcdsaSignMatchesLowLevelPath
  intro s v hv herr
  rcases exec_cases hv with ⟨_, _, hcmd, -⟩ | ⟨e, -, rfl⟩
  · obtain ⟨hd, rs, hloop⟩ := ecdsaSignCommand_ok hcmd
    obtain ⟨v', hv', -, -, hvr, hvw⟩ :=
      exec_putSignature (i := .ecdsaSign) (signLoop_inRange hloop) (ecdsaSignCommand_of_ok hd hloop)
    obtain rfl := Host.Outcome.next.inj (hv.symm.trans hv')
    obtain ⟨draw, hdraw, hsigns⟩ := lowLevelSigns_of_signLoop hd le_rfl hloop
    obtain ⟨t, ht, hterr, hdrawn⟩ := exec_nonceDrawn (i := .nonceFirst) (SameInputs.refl s) (drbgInit_sized _ _) hdraw
      (nonceFirstCommand_of_draw hd hdraw)
    obtain ⟨turns, u, hu, huerr, hur, huw⟩ := hsigns t hdrawn
    exact ⟨t, u, turns, ht, hterr, hu, huerr, BitVec.eq_of_toNat_eq (hur.trans hvr.symm),
      BitVec.eq_of_toNat_eq (huw.trans hvw.symm)⟩
  · exact absurd herr e.code_ne_zero

end Sys2Proof.Proofs
end

section
/-! The verify core and its command (spec/44_ecdsa_verify.md R220, R221): when the core accepts, and what the command
reports. -/

namespace Sys2Proof.Machine

/-- The point of R220 with its inverse written as the power `s^(n-2) mod n`. -/
theorem verifyPoint_of_inverse {q : Point} {z r s w : Nat} (hw : w = s ^ (groupOrder - 2) % groupOrder) :
    verifyPoint q z r s =
      padd (ladder (z % groupOrder * w % groupOrder) basePoint) (ladder (r * w % groupOrder) q) := by
  have hinv : invm s groupOrder = w := (invm_modulusOf s .orderN).trans hw.symm
  rw [verifyPoint, hinv, mulm, mulm]

theorem halfValid_iff {r : Nat} : halfValid r = true ↔ 1 ≤ r ∧ r < groupOrder := by
  rw [halfValid, Bool.and_eq_true, decide_eq_true_iff, decide_eq_true_iff]

/-- The core accepts exactly when both halves are in range and the point of R220 is finite with `x mod n = r`. -/
theorem verifyCore_iff {q : Point} {z r s : Nat} :
    verifyCore q z r s = true ↔
      halfValid r = true ∧ halfValid s = true ∧ ∃ x y, verifyPoint q z r s = .affine x y ∧ x % groupOrder = r := by
  cases hr : halfValid r with
  | false => simp [verifyCore, hr]
  | true =>
    cases hs : halfValid s with
    | false => simp [verifyCore, hr, hs]
    | true =>
      cases hp : verifyPoint q z r s with
      | inf => simp [verifyCore, hr, hs, hp]
      | affine x y => simp [verifyCore, hr, hs, hp]

/-- The same with the ranges and the equation written out. -/
theorem verifyCore_iff_equation {q : Point} {z r s : Nat} :
    verifyCore q z r s = true ↔
      1 ≤ r ∧ r < groupOrder ∧ 1 ≤ s ∧ s < groupOrder ∧
        ∃ w x y, w = s ^ (groupOrder - 2) % groupOrder ∧
          padd (ladder (z % groupOrder * w % groupOrder) basePoint) (ladder (r * w % groupOrder) q) = .affine x y ∧
          x % groupOrder = r := by
  rw [verifyCore_iff, halfValid_iff, halfValid_iff, and_assoc, and_assoc]
  refine and_congr_right' (and_congr_right' (and_congr_right' (and_congr_right' ⟨?_, ?_⟩)))
  · rintro ⟨x, y, hpoint, hx⟩
    exact ⟨_, x, y, rfl, (verifyPoint_of_inverse rfl).symm.trans hpoint, hx⟩
  · rintro ⟨w, x, y, hw, hpoint, hx⟩
    exact ⟨x, y, (verifyPoint_of_inverse hw).trans hpoint, hx⟩

theorem State.resultWord_of_validFlag {s : State} {valid : Bool} (h : s.result = validFlag valid) :
    s.resultWord = if valid then 1 else 0 := by
  rw [State.resultWord, h]
  cases valid <;> rfl

/-- The verdict of the core on the registers of a state (R221). -/
def State.signatureVerdict (s : State) : Bool :=
  verifyCore (.affine (s.regNat regQx) (s.regNat regQy)) (s.regNat regZ) (s.regNat regSigR) (s.regNat regSigS)

/-- `ECDSA_VERIFY` with a point of the curve gives the verdict and writes nothing (R221). -/
theorem ecdsaVerifyCommand_of_onCurve {s : State} (h : onCurve (s.regNat regQx) (s.regNat regQy) = true) :
    ecdsaVerifyCommand s = .ok (s, validFlag s.signatureVerdict) := by
  rw [ecdsaVerifyCommand, State.publicPointValid, if_pos h, State.signatureVerdict]

/-- And with any other pair it stops before it looks at the signature. -/
theorem ecdsaVerifyCommand_of_not_onCurve {s : State} (h : ¬ onCurve (s.regNat regQx) (s.regNat regQy) = true) :
    ecdsaVerifyCommand s = .error .invalidPublicKey := by
  rw [ecdsaVerifyCommand, State.publicPointValid, if_neg h]

end Sys2Proof.Machine

namespace Sys2Proof.Proofs

open Sys2Proof.Machine

/-- Settles O43: on a point of the curve `VALID` is the verdict of the core, which `verifyCore_iff_equation` spells
out; any other pair ends the command before the core runs. -/
theorem ecdsaVerifyEffect : Obligations.EcdsaVerifyEffect := by
  unfold Obligations.EcdsaVerifyEffect
  refine ⟨rfl, fun s => ?_⟩
  split
  next hcurve =>
    exact ⟨_, s.signatureVerdict, exec_of_ok (ecdsaVerifyCommand_of_onCurve hcurve), succeeded_complete _ _,
      (Framed.refl _ s).complete _, State.resultWord_of_validFlag rfl, verifyCore_iff_equation⟩
  next hcurve => exact raises_of_error (ecdsaVerifyCommand_of_not_onCurve hcurve)

end Sys2Proof.Proofs
end

section
/-! The lanes of `KSTATE` and the sponge (spec/45_keccak.md R231, R234): a lane is the little-endian value of its eight
bytes, and absorbing whole blocks one after the other is absorbing their concatenation. -/

namespace Sys2Proof.Machine

@[simp] theorem leInt_nil : leInt [] = 0 := rfl

/-- The value of the first `n` bytes is the sum of R9, bytes past the end counting as 0. -/
theorem leInt_take (b : List Byte) (n : Nat) :
    leInt (b.take n) = ∑ t ∈ Finset.range n, (b.getD t 0).toNat * 2 ^ (8 * t) := by
  induction n generalizing b with
  | zero => simp
  | succ n ih =>
    cases b with
    | nil => simp
    | cons a rest =>
      have hshift : ∀ t, ((a :: rest).getD (t + 1) 0).toNat * 2 ^ (8 * (t + 1)) =
          256 * ((rest.getD t 0).toNat * 2 ^ (8 * t)) := fun t => by
        rw [List.getD_cons_succ, Nat.mul_succ, pow_add]
        ring
      rw [List.take_succ_cons, leInt, ih, Finset.sum_range_succ', Finset.mul_sum,
        Finset.sum_congr rfl fun t _ => hshift t]
      simp [Nat.add_comm]

/-- A string of `k` bytes is a little-endian integer below 256^k. -/
theorem leInt_lt (b : List Byte) : leInt b < 256 ^ b.length := by
  induction b with
  | nil => simp
  | cons a rest ih =>
    have ha : a.toNat < 256 := a.isLt
    rw [leInt, List.length_cons, pow_succ]
    omega

/-- The converse of `leInt_le`: the string of a string's value is the string. -/
theorem le_leInt (b : List Byte) : le b.length (leInt b) = b := by
  induction b with
  | nil => rfl
  | cons a rest ih =>
    have ha : a.toNat < 256 := a.isLt
    have hhead : BitVec.ofNat 8 (a.toNat + 256 * leInt rest) = a := BitVec.eq_of_toNat_eq (by
      rw [BitVec.toNat_ofNat]
      omega)
    have htail : (a.toNat + 256 * leInt rest) >>> 8 = leInt rest := by
      rw [Nat.shiftRight_eq_div_pow]
      omega
    rw [List.length_cons, le, leInt, hhead, htail, ih]

/-- Piece `i` starts at `k * i`; from the end of the list on it is empty. -/
theorem getD_pieces {α : Type} {k : Nat} (hk : 0 < k) (l : List α) (i : Nat) :
    (pieces k l).getD i [] = (l.drop (k * i)).take k := by
  induction i generalizing l with
  | zero =>
    by_cases h : l = []
    · simp [h]
    · simp [pieces_cons k hk l h]
  | succ i ih =>
    by_cases h : l = []
    · simp [h]
    · rw [pieces_cons k hk l h, List.getD_cons_succ, ih, List.drop_drop, Nat.mul_succ, Nat.add_comm]

/-- Eight bytes fit a lane. -/
theorem toNat_lane {p : List Byte} (h : p.length ≤ 8) : (BitVec.ofNat 64 (leInt p)).toNat = leInt p := by
  have hlt : leInt p < 2 ^ 64 := (leInt_lt p).trans_le (pow256 p.length ▸ Nat.pow_le_pow_right (by decide) (by omega))
  rw [BitVec.toNat_ofNat, Nat.mod_eq_of_lt hlt]

/-- Lane `A[x][y]` is the value of the eight bytes from `8*(x + 5*y)` on (R231). -/
theorem toNat_laneAt_loadLanes (b : List Byte) {x y : Nat} (hx : x < 5) (hy : y < 5) :
    (laneAt (loadLanes b) x y).toNat = leInt ((b.drop (8 * (x + 5 * y))).take 8) := by
  have hlane : laneAt (loadLanes b) x y = BitVec.ofNat 64 (leInt ((pieces 8 b).getD (x + 5 * y) [])) := by
    rw [laneAt, loadLanes, Nat.mod_eq_of_lt hx, Nat.mod_eq_of_lt hy]
    exact List.getD_map _ [] fun p => BitVec.ofNat 64 (leInt p)
  rw [hlane, getD_pieces (by decide), toNat_lane (List.length_take_le _ _)]

/-- Storing the lanes of whole pieces gives the bytes back (R231). -/
theorem storeLanes_loadLanes {b : List Byte} (h : 8 ∣ b.length) : storeLanes (loadLanes b) = b := by
  have hpiece : ∀ p ∈ pieces 8 b, le 8 (BitVec.ofNat 64 (leInt p)).toNat = p := fun p hp => by
    have hlen := length_of_mem_pieces 8 (by decide) b h p hp
    rw [toNat_lane hlen.le]
    exact hlen ▸ le_leInt p
  calc storeLanes (loadLanes b)
      = (pieces 8 b).flatMap fun p => le 8 (BitVec.ofNat 64 (leInt p)).toNat := by
        rw [storeLanes, loadLanes, List.flatMap_map]
    _ = (pieces 8 b).flatten := by rw [List.flatMap_congr hpiece, List.flatMap_id']
    _ = b := pieces_flatten 8 (by decide) b

@[simp] theorem keccakAbsorb_nil (st : List Byte) : keccakAbsorb st [] = st := rfl

/-- Whole blocks first, then the rest: the state after both (R234). -/
theorem keccakAbsorb_append (st : List Byte) {a : List Byte} (h : keccakRate ∣ a.length) (b : List Byte) :
    keccakAbsorb st (a ++ b) = keccakAbsorb (keccakAbsorb st a) b := by
  rw [keccakAbsorb, pieces_append keccakRate (by decide) a b h, List.foldl_append]
  rfl

/-- The digest after absorbing whole blocks is the digest of the blocks and the data. -/
theorem keccakFinalDigest_keccakAbsorb (st : List Byte) {a : List Byte} (h : keccakRate ∣ a.length)
    (data : List Byte) :
    keccakFinalDigest (keccakAbsorb st a) data = keccakFinalDigest st (a ++ data) := by
  obtain ⟨n, hn⟩ := h
  have hwhole : keccakRate * ((a ++ data).length / keccakRate)
      = a.length + keccakRate * (data.length / keccakRate) := by
    rw [List.length_append, hn, Nat.mul_add_div (by decide), Nat.mul_add]
  rw [keccakFinalDigest, keccakFinalDigest, hwhole, List.take_length_add_append, List.drop_length_add_append,
    keccakAbsorb_append st ⟨n, hn⟩]

/-- Absorbing whole-block pieces one after the other, then finishing: the digest of everything (R240). -/
theorem keccakFinalDigest_foldl_keccakAbsorb (chunks : List (List Byte)) (st data : List Byte)
    (h : ∀ c ∈ chunks, keccakRate ∣ c.length) :
    keccakFinalDigest (chunks.foldl keccakAbsorb st) data = keccakFinalDigest st (chunks.flatten ++ data) := by
  induction chunks generalizing st with
  | nil => rfl
  | cons c chunks ih =>
    obtain ⟨hc, hchunks⟩ := List.forall_mem_cons.mp h
    rw [List.foldl_cons, ih _ hchunks, keccakFinalDigest_keccakAbsorb st hc, List.flatten_cons, List.append_assoc]

end Sys2Proof.Machine

namespace Sys2Proof.Proofs

open Sys2Proof.Machine

/-- Settles O47: by induction on the pieces, each absorbed block being moved in front of the data still to come. -/
theorem keccakChunking : Obligations.KeccakChunking := by
  unfold Obligations.KeccakChunking
  intro chunks rest h
  exact keccakFinalDigest_foldl_keccakAbsorb chunks _ rest fun c hc => Nat.dvd_of_mod_eq_zero (h c hc)

/-- Settles O48: lane `i` is the value of piece `i` of eight bytes, and a piece is the string of its value. -/
theorem keccakLaneLayout : Obligations.KeccakLaneLayout := by
  unfold Obligations.KeccakLaneLayout
  intro b hb
  refine ⟨storeLanes_loadLanes (hb ▸ by decide), fun x y hx hy => ?_⟩
  rw [toNat_laneAt_loadLanes b hx hy, leInt_take]
  simp only [List.getD_eq_getElem?_getD, List.getElem?_drop]

end Sys2Proof.Proofs
end

section
/-! The Keccak commands (spec/45_keccak.md R235 to R239): each writes `KSTATE` alone, or the digest to `R[rd]` and
zeros to `KSTATE`, and those with a source check its range first. -/

namespace Sys2Proof.Machine

@[simp] theorem State.toList_kstate_setKstate (s : State) {b : List Byte} (h : b.length = 200) :
    (s.setKstate b).kstate.toList = b := toVector_toList 200 0 b h

section
variable {i : Instr} {rd : RegNum} {s : State}

/-- A command that computes one write of `KSTATE` completes with it. -/
theorem exec_setKstate {b : List Byte} (h : commandResult i s = .ok (s.setKstate b, noFlags)) (hb : b.length = 200) :
    ∃ t, exec i s = .next t ∧ Succeeded t noFlags ∧ Framed { kstate := true } s t ∧ t.kstate.toList = b :=
  ⟨_, exec_of_ok h, succeeded_complete _ _, ((Framed.refl _ s).setKstate b rfl).complete _,
    s.toList_kstate_setKstate hb⟩

/-- The writes of a command that ends a hash: the digest to `R[rd]`, zeros to `KSTATE` (R238, R239). -/
def State.putDigest (s : State) (rd : RegNum) (digest : List Byte) : State :=
  (s.setRegNat rd (beInt digest)).setKstate (zeros 200)

/-- A 32-byte digest is the string of the register it went to. -/
theorem State.be256_putDigest (s : State) (rd : RegNum) {digest : List Byte} (h : digest.length = 32) :
    be256 ((s.putDigest rd digest).reg rd) = digest := by
  rw [State.putDigest, State.reg_setKstate, State.setRegNat, State.reg_setReg_self, be256_ofNat_beInt digest h]

/-- A command that ends a hash completes with its digest. -/
theorem exec_putDigest {digest : List Byte} (h : commandResult i s = .ok (s.putDigest rd digest, noFlags))
    (hd : digest.length = 32) :
    ∃ t, exec i s = .next t ∧ Succeeded t noFlags ∧ Framed { regs := [rd], kstate := true } s t ∧
      be256 (t.reg rd) = digest ∧ t.kstate.toList = zeros 200 :=
  ⟨_, exec_of_ok h, succeeded_complete _ _,
    (((Framed.refl _ s).setRegNat _ (List.mem_singleton_self rd)).setKstate _ rfl).complete _,
    s.be256_putDigest rd hd, (s.setRegNat rd (beInt digest)).toList_kstate_setKstate (zeros_length 200)⟩

section
variable (hr : s.srcInRange = false)
include hr

theorem keccakAbsorbCommand_of_range : keccakAbsorbCommand s = .error .badRange := by
  rw [keccakAbsorbCommand, hr]
  rfl

theorem keccakFinalCommand_of_range : keccakFinalCommand rd s = .error .badRange := by
  rw [keccakFinalCommand, hr]
  rfl

theorem keccak256Command_of_range : keccak256Command rd s = .error .badRange := by
  rw [keccak256Command, hr]
  rfl

end

section
variable (hr : s.srcInRange = true)
include hr

/-- A length of no whole number of blocks is refused with the range's code (R237). -/
theorem keccakAbsorbCommand_of_partial_block (h : s.srcLen.toNat % keccakRate ≠ 0) :
    keccakAbsorbCommand s = .error .badRange := by
  rw [keccakAbsorbCommand, hr, if_pos h]
  rfl

theorem keccakAbsorbCommand_of_whole_blocks (h : s.srcLen.toNat % keccakRate = 0) :
    keccakAbsorbCommand s = .ok (s.setKstate (keccakAbsorb s.kstate.toList s.srcBytes), noFlags) := by
  rw [keccakAbsorbCommand, hr, if_neg (not_not.mpr h)]
  rfl

theorem keccakFinalCommand_of_inRange :
    keccakFinalCommand rd s = .ok (s.putDigest rd (keccakFinalDigest s.kstate.toList s.srcBytes), noFlags) := by
  rw [keccakFinalCommand, hr]
  rfl

theorem keccak256Command_of_inRange :
    keccak256Command rd s = .ok (s.putDigest rd (keccakHash s.srcBytes), noFlags) := by
  rw [keccak256Command, hr]
  rfl

end

/-- `KECCAK_ABSORB` of whole blocks, and of none (R237). -/
theorem exec_keccakAbsorb (hr : s.srcInRange = true) (h : s.srcLen.toNat % keccakRate = 0) :
    ∃ t, exec .keccakAbsorb s = .next t ∧ Succeeded t noFlags ∧ Framed { kstate := true } s t ∧
      t.kstate.toList = keccakAbsorb s.kstate.toList s.srcBytes ∧ (s.srcLen.toNat = 0 → t.kstate = s.kstate) := by
  obtain ⟨t, ht, hok, hframe, hk⟩ := exec_setKstate (i := .keccakAbsorb) (keccakAbsorbCommand_of_whole_blocks hr h)
    (keccakAbsorb_length _ _ (Vector.length_toList))
  refine ⟨t, ht, hok, hframe, hk, fun hzero => Vector.toList_inj.mp ?_⟩
  have hempty : s.srcBytes = [] := List.length_eq_zero_iff.mp (s.srcBytes_length.trans hzero)
  rw [hk, hempty, keccakAbsorb_nil]

/-- The state after `KECCAK_INIT` (R236). -/
def State.hashStarted (s : State) : State := (s.setKstate (zeros 200)).complete noFlags

theorem exec_keccakInit (s : State) : exec .keccakInit s = .next s.hashStarted := exec_of_ok rfl

/-- From a cleared sponge `KECCAK_FINAL` computes the hash of the source, as R239 says. -/
theorem keccakFinalCommand_hashStarted (hr : s.srcInRange = true) :
    keccakFinalCommand rd s.hashStarted = .ok (s.hashStarted.putDigest rd (keccakHash s.srcBytes), noFlags) := by
  have hcleared : s.hashStarted.kstate.toList = zeros 200 := s.toList_kstate_setKstate (zeros_length 200)
  have hr' : s.hashStarted.srcInRange = true := hr
  rw [keccakFinalCommand_of_inRange hr', hcleared]
  rfl

/-- The end of a hash overwrites everything its start wrote. -/
theorem complete_putDigest_hashStarted (s : State) (rd : RegNum) (digest : List Byte) :
    (s.hashStarted.putDigest rd digest).complete noFlags = (s.putDigest rd digest).complete noFlags := rfl

end

end Sys2Proof.Machine

namespace Sys2Proof.Proofs

open Sys2Proof.Machine

/-- Settles O44: the two commands without a source. -/
theorem keccakPermuteInitEffect : Obligations.KeccakPermuteInitEffect := by
  unfold Obligations.KeccakPermuteInitEffect
  exact ⟨rfl, rfl, fun s => ⟨exec_setKstate (i := .keccakF1600) rfl (keccakF_length _),
    exec_setKstate (i := .keccakInit) rfl (zeros_length 200)⟩⟩

/-- Settles O45: the range check of the source, then the whole-block check of `KECCAK_ABSORB`, then the writes. -/
theorem keccakHashingEffect : Obligations.KeccakHashingEffect := by
  unfold Obligations.KeccakHashingEffect
  refine ⟨rfl, fun rd => ⟨rfl, rfl⟩, fun rd s => ?_⟩
  split
  next hrange =>
    have hr : s.srcInRange = false := decide_eq_false (not_le.mpr hrange)
    exact ⟨raises_of_error (keccakAbsorbCommand_of_range hr), raises_of_error (keccakFinalCommand_of_range hr),
      raises_of_error (keccak256Command_of_range hr)⟩
  next hrange =>
    have hr : s.srcInRange = true := State.inRange_iff.mpr (not_lt.mp hrange)
    exact ⟨fun hpartial => raises_of_error (keccakAbsorbCommand_of_partial_block hr hpartial),
      exec_keccakAbsorb hr,
      exec_putDigest (i := .keccakFinal rd) (keccakFinalCommand_of_inRange hr) (keccakFinalDigest_length _ _),
      exec_putDigest (i := .keccak256 rd) (keccak256Command_of_inRange hr) (keccakFinalDigest_length _ _)⟩

/-- Settles O46: both paths hash from the cleared sponge and clear it again. -/
theorem keccak256IsInitThenFinal : Obligations.Keccak256IsInitThenFinal := by
  unfold Obligations.Keccak256IsInitThenFinal
  intro rd s hrange
  have hr : s.srcInRange = true := State.inRange_iff.mpr hrange
  refine ⟨_, _, exec_keccakInit s, exec_of_ok (keccakFinalCommand_hashStarted hr), ?_⟩
  rw [complete_putDigest_hashStarted]
  exact exec_of_ok (keccak256Command_of_inRange hr)

end Sys2Proof.Proofs
end

section
/-! The product of the GCM field (spec/46_aes_gcm.md R263): its loop is linear in the bits of the left argument and in
the running multiple of the right one, and the leading bit alone picks the right argument itself. -/

namespace Sys2Proof.Machine

/-- What a bit adds: the block or nothing. -/
def gmulPick (bit : Bool) (v : BitVec 128) : BitVec 128 := if bit then v else 0

/-- The running multiple of the right argument after one more bit of the loop (R263). -/
def gmulNext (v : BitVec 128) : BitVec 128 := (v >>> 1) ^^^ gmulPick (v.getLsbD 0) (0xE1#128 <<< 120)

theorem xor_gmulPick (bit : Bool) (z v : BitVec 128) : z ^^^ gmulPick bit v = if bit then z ^^^ v else z := by
  cases bit with
  | true => rfl
  | false => exact BitVec.xor_zero

/-- One turn of the loop, its two choices written as sums. -/
theorem gmulLoop_succ (n : Nat) (x v z : BitVec 128) :
    gmulLoop (n + 1) x v z = gmulLoop n x (gmulNext v) (z ^^^ gmulPick (x.getLsbD n) v) := by
  rw [gmulLoop, gmulNext, xor_gmulPick, xor_gmulPick]

theorem gmulPick_xor_bit (p q : Bool) (v : BitVec 128) : gmulPick (p ^^ q) v = gmulPick p v ^^^ gmulPick q v := by
  cases p <;> cases q <;> simp [gmulPick]

theorem gmulPick_xor (p : Bool) (a b : BitVec 128) : gmulPick p (a ^^^ b) = gmulPick p a ^^^ gmulPick p b := by
  cases p <;> simp [gmulPick]

/-- Two sums, each of two blocks, added in the other order. -/
theorem xor_xor_xor_comm (a b c d : BitVec 128) : (a ^^^ b) ^^^ (c ^^^ d) = (a ^^^ c) ^^^ (b ^^^ d) := by
  ac_rfl

theorem gmulNext_xor (a b : BitVec 128) : gmulNext (a ^^^ b) = gmulNext a ^^^ gmulNext b := by
  rw [gmulNext, BitVec.getLsbD_xor, gmulPick_xor_bit, BitVec.ushiftRight_xor_distrib, xor_xor_xor_comm]
  rfl

theorem gmulLoop_xor_left (n : Nat) (a b v z w : BitVec 128) :
    gmulLoop n (a ^^^ b) v (z ^^^ w) = gmulLoop n a v z ^^^ gmulLoop n b v w := by
  induction n generalizing v z w with
  | zero => rfl
  | succ n ih =>
    rw [gmulLoop_succ, gmulLoop_succ, gmulLoop_succ, BitVec.getLsbD_xor, gmulPick_xor_bit, xor_xor_xor_comm, ih]

theorem gmulLoop_xor_right (n : Nat) (x a b z w : BitVec 128) :
    gmulLoop n x (a ^^^ b) (z ^^^ w) = gmulLoop n x a z ^^^ gmulLoop n x b w := by
  induction n generalizing a b z w with
  | zero => rfl
  | succ n ih =>
    rw [gmulLoop_succ, gmulLoop_succ, gmulLoop_succ, gmulNext_xor, gmulPick_xor, xor_xor_xor_comm, ih]

/-- Bits of the left argument that are 0 add nothing. -/
theorem gmulLoop_of_no_bits {n : Nat} {x : BitVec 128} (h : ∀ i < n, x.getLsbD i = false) (v z : BitVec 128) :
    gmulLoop n x v z = z := by
  induction n generalizing v z with
  | zero => rfl
  | succ n ih =>
    rw [gmulLoop_succ, ih fun i hi => h i (Nat.lt_succ_of_lt hi), h n (Nat.lt_succ_self n)]
    exact BitVec.xor_zero

/-- The field's one is the block `80 00 .. 00`, bit 127 alone. -/
theorem gmul_one (y : BitVec 128) : gmul (1#128 <<< 127) y = y := by
  have hlow : ∀ i < 127, (1#128 <<< 127).getLsbD i = false := by decide
  have hhigh : (1#128 <<< 127).getLsbD 127 = true := by decide
  rw [gmul, gmulLoop_succ, gmulLoop_of_no_bits hlow, hhigh]
  exact BitVec.zero_xor

end Sys2Proof.Machine

namespace Sys2Proof.Proofs

open Sys2Proof.Machine

/-- Settles O54: both sums go through the loop, which starts from 0, the sum of 0 and 0. -/
theorem gmulLaws : Obligations.GmulLaws := by
  unfold Obligations.GmulLaws
  exact ⟨gmul_one, fun a b y => gmulLoop_xor_left 128 a b y 0 0, fun x a b => gmulLoop_xor_right 128 x a b 0 0⟩

end Sys2Proof.Proofs
end

section
/-! Counter mode and GCM (spec/46_aes_gcm.md R267 to R269): the key stream added twice cancels, the comparison of tags
accepts equality alone, and decryption undoes encryption. -/

namespace Sys2Proof.Machine

/-- A key stream at least as long as the text, added twice, leaves the text. -/
theorem xorBytes_cancel {b k : List Byte} (h : b.length ≤ k.length) : xorBytes (xorBytes b k) k = b := by
  apply List.ext_getElem
  · simp [h]
  · intro i _ _
    simp [xorBytes]

theorem foldl_or_eq_zero_iff (l : List Byte) (acc : Byte) :
    l.foldl (· ||| ·) acc = 0 ↔ acc = 0 ∧ ∀ d ∈ l, d = 0 := by
  induction l generalizing acc with
  | nil => simp
  | cons d l ih =>
    rw [List.foldl_cons, ih, List.forall_mem_cons, ← and_assoc]
    exact and_congr_left fun _ => BitVec.or_eq_zero_iff

/-- `diff` is 0 only for equal tags (R269). -/
theorem tagDiff_eq_zero_iff {t tag : List Byte} (h : t.length = tag.length) : tagDiff t tag = 0 ↔ t = tag := by
  rw [tagDiff, foldl_or_eq_zero_iff, and_iff_right rfl, xorBytes]
  induction t generalizing tag with
  | nil => simp [List.length_eq_zero_iff.mp h.symm]
  | cons a t ih =>
    cases tag with
    | nil => cases h
    | cons b tag =>
      rw [List.zipWith_cons_cons, List.forall_mem_cons, ih (Nat.succ.inj h), List.cons.injEq]
      exact and_congr_left fun _ => BitVec.xor_eq_zero_iff

/-- One block or less takes one block of the key stream (R267). -/
theorem gctr_of_length_le {b : List Byte} (h : b.length ≤ 16) (key cb : List Byte) :
    gctr key cb b = xorBytes b (aes256 key cb) := by
  by_cases hb : b = []
  · rw [hb]
    rfl
  · rw [gctr, pieces_cons 16 (by decide) b hb, List.take_of_length_le h, List.drop_of_length_le h, pieces_nil,
      gctrBlocks, gctrBlocks, List.append_nil]

/-- A whole block takes one block of the key stream, and the counter moves on (R267). -/
theorem gctr_append {b : List Byte} (h : b.length = 16) (key cb rest : List Byte) :
    gctr key cb (b ++ rest) = xorBytes b (aes256 key cb) ++ gctr key (inc32 cb) rest := by
  have hne : b ++ rest ≠ [] := by
    intro he
    simp [(List.append_eq_nil_iff.mp he).1] at h
  rw [gctr, pieces_cons 16 (by decide) _ hne, List.take_left' h, List.drop_left' h, gctrBlocks, gctr]

/-- Counter mode undoes itself. -/
theorem gctr_gctr {key cb : List Byte} (hk : key.length = 32) (hc : cb.length = 16) (data : List Byte) :
    gctr key cb (gctr key cb data) = data := by
  induction hn : data.length using Nat.strong_induction_on generalizing cb data with
  | _ n ih =>
    have hks := aes256_length key cb hk hc
    by_cases hshort : data.length ≤ 16
    · rw [gctr_of_length_le hshort, gctr_of_length_le (by simp [hks]), xorBytes_cancel (by omega)]
    · have hblock : (data.take 16).length = 16 := List.length_take_of_le (by omega)
      have hrest : (data.drop 16).length < n := by
        rw [List.length_drop]
        omega
      calc gctr key cb (gctr key cb data)
          = gctr key cb (gctr key cb (data.take 16 ++ data.drop 16)) := by rw [List.take_append_drop]
        _ = xorBytes (xorBytes (data.take 16) (aes256 key cb)) (aes256 key cb) ++
              gctr key (inc32 cb) (gctr key (inc32 cb) (data.drop 16)) := by
            rw [gctr_append hblock, gctr_append (by rw [xorBytes_length, hblock, hks, min_self])]
        _ = data.take 16 ++ data.drop 16 := by
            rw [xorBytes_cancel (by omega), ih _ hrest (inc32_length cb hc) _ rfl]
        _ = data := List.take_append_drop 16 data

/-- A string shorter than a tag is not authentic (R269). -/
theorem gcmDecrypt_of_short {ctt : List Byte} (h : ctt.length < 16) (key iv aad : List Byte) :
    gcmDecrypt key iv aad ctt = .error .authenticationFailure := by
  rw [gcmDecrypt, if_pos h]

section
variable {key iv : List Byte} (hk : key.length = 32) (hi : iv.length = 12)
include hk hi

/-- A ciphertext and 16 bytes after it: authentic exactly when these are its tag (R269). -/
theorem gcmDecrypt_append {tag : List Byte} (ht : tag.length = 16) (aad ct : List Byte) :
    gcmDecrypt key iv aad (ct ++ tag) =
      if tag = gcmTag key iv aad ct then .ok (gctr key (inc32 (counterBlock0 iv)) ct)
      else .error .authenticationFailure := by
  have hlen : (ct ++ tag).length - 16 = ct.length := by
    rw [List.length_append]
    omega
  have htag : tagDiff (gcmTag key iv aad ct) tag = 0 ↔ tag = gcmTag key iv aad ct :=
    (tagDiff_eq_zero_iff ((gcmTag_length key iv aad ct hk hi).trans ht.symm)).trans eq_comm
  have hlong : ¬ (ct ++ tag).length < 16 := by
    rw [List.length_append]
    omega
  rw [gcmDecrypt, if_neg hlong, hlen, List.take_left, List.drop_left]
  simp only [ne_eq, htag, ite_not]

/-- Decryption of what encryption gave is the plaintext (R272). -/
theorem gcmDecrypt_gcmEncrypt (aad pt : List Byte) :
    gcmDecrypt key iv aad (gcmEncrypt key iv aad pt) = .ok pt := by
  have hcb := inc32_length _ (counterBlock0_length iv hi)
  rw [gcmEncrypt, gcmDecrypt_append hk hi (gcmTag_length key iv _ _ hk hi), if_pos rfl, gctr_gctr hk hcb]

end

end Sys2Proof.Machine
end

section
/-! The commands of the family (spec/46_aes_gcm.md R262, R270, R271): each computes one output string or one error from
its inputs alone, and stores it at `DST_OFF`. -/

namespace Sys2Proof.Machine

/-- What a command that computes one output string computes: the string stored, or the error. -/
def State.outputResult (s : State) : Except ErrCode (List Byte) → CommandResult
  | .ok b => .ok (s.memOutput b, noFlags)
  | .error e => .error e

/-- The output of `AES256_ENC` (R262). -/
def aes256EncOutput (ra : RegNum) (s : State) : Except ErrCode (List Byte) :=
  if s.srcOff.toNat + 16 ≤ s.params.dmemBytes ∧ s.dstOff.toNat + 16 ≤ s.params.dmemBytes then
    .ok (aes256 (s.regBytes ra) (s.memRead s.srcOff.toNat 16))
  else .error .badRange

/-- The output of `GCM_ENC` (R270). -/
def gcmEncOutput (ra : RegNum) (s : State) : Except ErrCode (List Byte) :=
  if s.srcOff.toNat + s.srcLen.toNat ≤ s.params.dmemBytes ∧ s.aadOff.toNat + s.aadLen.toNat ≤ s.params.dmemBytes ∧
      s.dstOff.toNat + s.srcLen.toNat + 16 ≤ s.params.dmemBytes then
    .ok (gcmEncrypt (s.regBytes ra) s.iv.toList s.aadBytes s.srcBytes)
  else .error .badRange

/-- The output of `GCM_DEC` (R271). -/
def gcmDecOutput (ra : RegNum) (s : State) : Except ErrCode (List Byte) :=
  if s.srcOff.toNat + s.srcLen.toNat ≤ s.params.dmemBytes ∧ s.aadOff.toNat + s.aadLen.toNat ≤ s.params.dmemBytes ∧
      (16 ≤ s.srcLen.toNat → s.dstOff.toNat + (s.srcLen.toNat - 16) ≤ s.params.dmemBytes) then
    gcmDecrypt (s.regBytes ra) s.iv.toList s.aadBytes s.srcBytes
  else .error .badRange

section
variable (s : State)

@[simp] theorem State.outputResult_ok (b : List Byte) : s.outputResult (.ok b) = .ok (s.memOutput b, noFlags) := rfl

@[simp] theorem State.outputResult_error (e : ErrCode) : s.outputResult (.error e) = .error e := rfl

theorem State.outputResult_ite (p : Prop) [Decidable p] (x y : Except ErrCode (List Byte)) :
    s.outputResult (if p then x else y) = if p then s.outputResult x else s.outputResult y :=
  apply_ite s.outputResult p x y

/-- A range check in front of a result (spec/20_memory.md R75). -/
theorem State.checkRange_eq (off len : Nat) (r : CommandResult) :
    (if (!s.inRange off len) = true then .error .badRange else r) =
      if off + len ≤ s.params.dmemBytes then r else .error .badRange := by
  by_cases h : off + len ≤ s.params.dmemBytes
  · rw [State.inRange_iff.mpr h, if_pos h]
    rfl
  · rw [Bool.eq_false_iff.mpr (mt State.inRange_iff.mp h), if_neg h]
    rfl

/-- A range check made on a condition only. -/
theorem State.checkRange_of_eq (p : Prop) [Decidable p] (off len : Nat) (r : CommandResult) :
    (if (decide p && !s.inRange off len) = true then .error .badRange else r) =
      if p → off + len ≤ s.params.dmemBytes then r else .error .badRange := by
  by_cases hp : p
  · simp only [hp, decide_true, Bool.true_and, forall_const]
    exact s.checkRange_eq off len r
  · simp [hp]

variable (ra : RegNum)

theorem commandResult_aes256Enc : commandResult (.aes256Enc ra) s = s.outputResult (aes256EncOutput ra s) := by
  rw [commandResult, aes256EncCommand, State.dstInRange]
  simp only [State.checkRange_eq, aes256EncOutput, ite_and, State.outputResult_ite, State.outputResult_ok,
    State.outputResult_error]

theorem commandResult_gcmEnc : commandResult (.gcmEnc ra) s = s.outputResult (gcmEncOutput ra s) := by
  rw [commandResult, gcmEncCommand, State.srcInRange, State.aadInRange, State.dstInRange]
  simp only [State.checkRange_eq, gcmEncOutput, ite_and, State.outputResult_ite, State.outputResult_ok,
    State.outputResult_error, Nat.add_assoc]

theorem commandResult_gcmDec : commandResult (.gcmDec ra) s = s.outputResult (gcmDecOutput ra s) := by
  rw [commandResult, gcmDecCommand, State.srcInRange, State.aadInRange, State.dstInRange]
  simp only [State.checkRange_eq, State.checkRange_of_eq, gcmDecOutput, ite_and, State.outputResult_ite,
    State.outputResult_error]
  cases gcmDecrypt (s.regBytes ra) s.iv.toList s.aadBytes s.srcBytes with
  | ok b => rfl
  | error e => rfl

end

section
variable {i : Instr} {s : State} {r : Except ErrCode (List Byte)} (h : commandResult i s = s.outputResult r)
include h

/-- A command whose output is an error raises it. -/
theorem raises_outputResult {e : ErrCode} (hr : r = .error e) : Raises i s e :=
  raises_of_error (h.trans (congrArg s.outputResult hr))

/-- A command whose output is a string stores it and its length. -/
theorem exec_outputResult {b : List Byte} {n : Nat} (hr : r = .ok b) (hb : b.length = n) (hn : n < 2 ^ 32) :
    ∃ t, exec i s = .next t ∧ Succeeded t noFlags ∧ Framed { stored := n, dstLen := true } s t ∧
      t.memRead s.dstOff.toNat n = b ∧ t.dstLen.toNat = n := by
  refine ⟨_, exec_of_ok (h.trans (congrArg s.outputResult hr)), succeeded_complete _ _,
    (framed_memOutput s b hb.le rfl).complete _, State.memRead_memOutput s b hb, ?_⟩
  exact (State.dstLen_memOutput s b (hb ▸ hn)).trans hb

/-- A completion without an error had an output. -/
theorem output_of_err_eq_zero {t : State} (ht : exec i s = .next t) (herr : t.status.err = 0) : ∃ b, r = .ok b := by
  cases r with
  | ok b => exact ⟨b, rfl⟩
  | error e =>
    rw [exec_of_error h] at ht
    cases ht
    exact absurd herr e.code_ne_zero

/-- The same output in two states with one `DST_OFF`: the same `STATUS`, `DST_LEN` and stored bytes. -/
theorem exec_outputResult_congr {u : State} {n : Nat} (hu : commandResult i u = u.outputResult r)
    (hi : writesOutput i = true) (hoff : u.dstOff = s.dstOff) (hlen : ∀ b, r = .ok b → b.length = n) :
    ∃ t v, exec i s = .next t ∧ exec i u = .next v ∧ v.status = t.status ∧ v.dstLen = t.dstLen ∧
      (t.status.err = 0 → v.memRead s.dstOff.toNat n = t.memRead s.dstOff.toNat n) := by
  cases r with
  | error e =>
    refine ⟨_, _, exec_of_error h, exec_of_error hu, rfl, ?_, fun herr => absurd herr e.code_ne_zero⟩
    rw [hi]
    rfl
  | ok b =>
    refine ⟨_, _, exec_of_ok h, exec_of_ok hu, rfl, rfl, fun _ => ?_⟩
    have hread := State.memRead_memOutput u b (hlen b rfl)
    rw [hoff] at hread
    exact hread.trans (State.memRead_memOutput s b (hlen b rfl)).symm

end

section
variable {ra : RegNum} {s : State}

/-- `GCM_ENC` gives a string only when its destination lies in DMEM. -/
theorem gcmEncOutput_ok {b : List Byte} (h : gcmEncOutput ra s = .ok b) :
    b = gcmEncrypt (s.regBytes ra) s.iv.toList s.aadBytes s.srcBytes ∧
      s.dstOff.toNat + s.srcLen.toNat + 16 ≤ s.params.dmemBytes := by
  unfold gcmEncOutput at h
  split at h
  next hranges =>
    obtain ⟨-, -, hdst⟩ := hranges
    exact ⟨(Except.ok.inj h).symm, hdst⟩
  next => cases h

theorem gcmEncOutput_length {b : List Byte} (h : gcmEncOutput ra s = .ok b) : b.length = s.srcLen.toNat + 16 := by
  rw [(gcmEncOutput_ok h).1, gcmEncrypt_length _ _ _ _ (s.regBytes_length ra) Vector.length_toList,
    s.srcBytes_length]

theorem gcmDecOutput_length {b : List Byte} (h : gcmDecOutput ra s = .ok b) : b.length = s.srcLen.toNat - 16 := by
  unfold gcmDecOutput at h
  split at h
  next =>
    have hlen := gcmDecrypt_length _ _ _ _ b (s.regBytes_length ra) Vector.length_toList h
    rw [s.srcBytes_length] at hlen
    omega
  next => cases h

/-- `GCM_ENC` stores its output (R270); its length fits 32 bits because DMEM is no longer than 2^31 (00_scope.md R6). -/
theorem exec_gcmEnc {b : List Byte} (hv : s.params.valid = true) (h : gcmEncOutput ra s = .ok b) :
    ∃ t, exec (.gcmEnc ra) s = .next t ∧ Succeeded t noFlags ∧
      Framed { stored := s.srcLen.toNat + 16, dstLen := true } s t ∧
      t.memRead s.dstOff.toNat (s.srcLen.toNat + 16) = b ∧ t.dstLen.toNat = s.srcLen.toNat + 16 := by
  have hfit := (gcmEncOutput_ok h).2
  have hmem := Params.dmemBytes_le hv
  exact exec_outputResult (commandResult_gcmEnc s ra) h (gcmEncOutput_length h) (by omega)

/-- `GCM_DEC` stores its output (R271). -/
theorem exec_gcmDec {b : List Byte} {n : Nat} (h : gcmDecOutput ra s = .ok b) (hn : s.srcLen.toNat - 16 = n) :
    ∃ t, exec (.gcmDec ra) s = .next t ∧ Succeeded t noFlags ∧ Framed { stored := n, dstLen := true } s t ∧
      t.memRead s.dstOff.toNat n = b ∧ t.dstLen.toNat = n :=
  exec_outputResult (commandResult_gcmDec s ra) h ((gcmDecOutput_length h).trans hn) (by omega)

/-- The source of `GCM_DEC` cut before its tag (R271). -/
theorem gcmDecrypt_srcBytes {n : Nat} (h : s.srcLen.toNat = n + 16) :
    gcmDecrypt (s.regBytes ra) s.iv.toList s.aadBytes s.srcBytes =
      if s.memRead (s.srcOff.toNat + n) 16 =
          gcmTag (s.regBytes ra) s.iv.toList s.aadBytes (s.memRead s.srcOff.toNat n) then
        .ok (gctr (s.regBytes ra) (inc32 (counterBlock0 s.iv.toList)) (s.memRead s.srcOff.toNat n))
      else .error .authenticationFailure := by
  rw [State.srcBytes, h, State.memRead_add]
  exact gcmDecrypt_append (s.regBytes_length ra) Vector.length_toList (s.memRead_length _ 16) _ _

/-- `GCM_DEC` of what `GCM_ENC` put out, from a state with the same key, `IV` and associated data (R272). -/
theorem gcmDecOutput_of_gcmEncOutput {u : State} (h : gcmEncOutput ra s = .ok u.srcBytes)
    (hkey : u.regBytes ra = s.regBytes ra) (hiv : u.iv = s.iv) (haad : u.aadBytes = s.aadBytes)
    (hsrc : u.srcOff.toNat + u.srcLen.toNat ≤ u.params.dmemBytes)
    (haadr : u.aadOff.toNat + u.aadLen.toNat ≤ u.params.dmemBytes)
    (hdst : u.dstOff.toNat + (u.srcLen.toNat - 16) ≤ u.params.dmemBytes) :
    gcmDecOutput ra u = .ok s.srcBytes := by
  rw [gcmDecOutput, if_pos ⟨hsrc, haadr, fun _ => hdst⟩, (gcmEncOutput_ok h).1, hkey, hiv, haad]
  exact gcmDecrypt_gcmEncrypt (s.regBytes_length ra) Vector.length_toList _ _

/-- The inputs of the GCM commands (R274), the same in two states. -/
structure SameGcmInputs (ra : RegNum) (s u : State) : Prop where
  params : u.params = s.params
  key : u.regBytes ra = s.regBytes ra
  iv : u.iv = s.iv
  srcOff : u.srcOff = s.srcOff
  srcLen : u.srcLen = s.srcLen
  aadOff : u.aadOff = s.aadOff
  aadLen : u.aadLen = s.aadLen
  dstOff : u.dstOff = s.dstOff
  src : u.srcBytes = s.srcBytes
  aad : u.aadBytes = s.aadBytes

theorem SameGcmInputs.gcmEncOutput_eq {u : State} (h : SameGcmInputs ra s u) :
    gcmEncOutput ra u = gcmEncOutput ra s := by
  simp only [gcmEncOutput, h.params, h.key, h.iv, h.srcOff, h.srcLen, h.aadOff, h.aadLen, h.dstOff, h.src, h.aad]

theorem SameGcmInputs.gcmDecOutput_eq {u : State} (h : SameGcmInputs ra s u) :
    gcmDecOutput ra u = gcmDecOutput ra s := by
  simp only [gcmDecOutput, h.params, h.key, h.iv, h.srcOff, h.srcLen, h.aadOff, h.aadLen, h.dstOff, h.src, h.aad]

end

end Sys2Proof.Machine

namespace Sys2Proof.Proofs

open Sys2Proof.Machine

/-- Settles O49: the cipher's 16 bytes, stored when both ranges lie in DMEM. -/
theorem aesEncryptEffect : Obligations.AesEncryptEffect := by
  unfold Obligations.AesEncryptEffect
  refine ⟨fun _ => rfl, fun ra s => ?_⟩
  split
  next hranges =>
    obtain ⟨t, ht, hok, hframe, hread, hlen⟩ := exec_outputResult (commandResult_aes256Enc s ra) (if_pos hranges)
      (aes256_length _ _ (s.regBytes_length ra) (s.memRead_length _ 16)) (by decide)
    exact ⟨t, ht, hok, hframe, hread, BitVec.eq_of_toNat_eq hlen⟩
  next hranges => exact raises_outputResult (commandResult_aes256Enc s ra) (if_neg hranges)

/-- Settles O50: the output read back in its two parts. -/
theorem gcmEncryptEffect : Obligations.GcmEncryptEffect := by
  unfold Obligations.GcmEncryptEffect
  refine ⟨fun _ => rfl, fun ra s hv => ?_⟩
  split
  next hranges =>
    obtain ⟨t, ht, hok, hframe, hread, hlen⟩ := exec_gcmEnc hv (if_pos hranges)
    have hct := gctr_length (s.regBytes ra) (inc32 (counterBlock0 s.iv.toList)) s.srcBytes (s.regBytes_length ra)
      (inc32_length _ (counterBlock0_length _ Vector.length_toList))
    rw [State.memRead_add, gcmEncrypt] at hread
    obtain ⟨hcipher, htag⟩ :=
      List.append_inj hread ((t.memRead_length _ _).trans (hct.trans s.srcBytes_length).symm)
    refine ⟨t, ht, hok, hframe, hcipher, ?_, hlen⟩
    rw [hcipher]
    exact htag
  next hranges => exact raises_outputResult (commandResult_gcmEnc s ra) (if_neg hranges)

/-- Settles O51: the ranges, then whether the source is long enough, then the tag. -/
theorem gcmDecryptEffect : Obligations.GcmDecryptEffect := by
  unfold Obligations.GcmDecryptEffect
  refine ⟨fun _ => rfl, fun ra s _ => ?_⟩
  split
  next hranges =>
    have hout : gcmDecOutput ra s = gcmDecrypt (s.regBytes ra) s.iv.toList s.aadBytes s.srcBytes := if_pos hranges
    refine ⟨fun hshort => ?_, fun n hn => ?_⟩
    · exact raises_outputResult (commandResult_gcmDec s ra)
        (hout.trans (gcmDecrypt_of_short (s.srcBytes_length.trans_lt hshort) _ _ _))
    · have hcut := hout.trans (gcmDecrypt_srcBytes hn)
      rw [ite_prop_iff_and]
      refine ⟨fun htag => ?_, fun htag => ?_⟩
      · exact exec_gcmDec (hcut.trans (if_pos htag)) (by omega)
      · exact raises_outputResult (commandResult_gcmDec s ra) (hcut.trans (if_neg htag))
  next hranges => exact raises_outputResult (commandResult_gcmDec s ra) (if_neg hranges)

/-- Settles O52: what `GCM_ENC` stored is its output, and `GCM_DEC` puts out the plaintext for it. -/
theorem gcmRoundTrip : Obligations.GcmRoundTrip := by
  unfold Obligations.GcmRoundTrip
  intro ra s t u hv ht herr _ hkey hiv hlen hsrcr hsrc haadr haad hdst
  obtain ⟨b, hout⟩ := output_of_err_eq_zero (commandResult_gcmEnc s ra) ht herr
  obtain ⟨t', ht', -, -, hread, hdstLen⟩ := exec_gcmEnc hv hout
  obtain rfl : t' = t := Host.Outcome.next.inj (ht'.symm.trans ht)
  rw [hdstLen, hread] at hsrc
  have hn : u.srcLen.toNat - 16 = s.srcLen.toNat := by
    rw [hlen, hdstLen, Nat.add_sub_cancel]
  have hdec : gcmDecOutput ra u = .ok s.srcBytes :=
    gcmDecOutput_of_gcmEncOutput (hout.trans (congrArg _ hsrc.symm)) (congrArg be256 hkey) hiv haad hsrcr haadr
      (hn ▸ hdst)
  obtain ⟨v, hexec, hok, -, hplain, hvlen⟩ := exec_gcmDec hdec hn
  exact ⟨v, hexec, hok, BitVec.eq_of_toNat_eq hvlen, hplain⟩

/-- Settles O53: states with the same inputs have the same output. -/
theorem gcmPurity : Obligations.GcmPurity := by
  unfold Obligations.GcmPurity
  intro ra s u hparams hkey hiv hsrcOff hsrcLen haadOff haadLen hdstOff hsrc haad
  have hsame : SameGcmInputs ra s u :=
    { params := hparams, key := congrArg be256 hkey, iv := hiv, srcOff := hsrcOff, srcLen := hsrcLen,
      aadOff := haadOff, aadLen := haadLen, dstOff := hdstOff,
      src := by rw [State.srcBytes, hsrcOff, hsrcLen]; exact hsrc,
      aad := by rw [State.aadBytes, haadOff, haadLen]; exact haad }
  exact ⟨exec_outputResult_congr (commandResult_gcmEnc s ra) (hsame.gcmEncOutput_eq ▸ commandResult_gcmEnc u ra) rfl
      hdstOff fun _ => gcmEncOutput_length,
    exec_outputResult_congr (commandResult_gcmDec s ra) (hsame.gcmDecOutput_eq ▸ commandResult_gcmDec u ra) rfl
      hdstOff fun _ => gcmDecOutput_length⟩

end Sys2Proof.Proofs
end

section
/-! How a completion reads in `STATUS` (spec/10_state.md R35), and that a command which fails keeps none of its writes
(spec/60_exceptions.md R290, R296). -/

namespace Sys2Proof.Machine

/-- A success reads `DONE`, and `DRBGV` as the generator is. -/
theorem Succeeded.statusWord {t : State} {flags : ResultFlags} (h : Succeeded t flags) :
    t.statusWord = 0x00000002 ||| bitAt t.drbgValid 3 := by
  simp only [State.statusWord, State.errf, h.status]
  cases t.drbgValid <;> rfl

/-- An error reads `DONE`, `ERRF` and its code, and `DRBGV` as the generator is. -/
theorem Failed.statusWord {t : State} {e : ErrCode} (h : Failed t e) :
    t.statusWord = 0x00000006 ||| bitAt t.drbgValid 3 ||| e.code.setWidth 32 <<< 8 := by
  have herrf : (e.code != 0) = true := by cases e <;> rfl
  simp only [State.statusWord, State.errf, h.status, herrf]
  cases t.drbgValid <;> rfl

/-- A command reports only errors of its row (spec/60_exceptions.md R290). -/
theorem reportable_of_error {i : Instr} {s : State} {e : ErrCode} (h : commandResult i s = .error e) :
    e ∈ reportable i := by
  have heffect := commandResult_effect s i
  rw [h] at heffect
  cases heffect with
  | failed he => exact he

/-- A command that fails stores no byte: the footprint of an error has none. -/
theorem FailsWith.readByte {i : Instr} {s t : State} {e : ErrCode} (h : FailsWith i s t e) (a : Nat) :
    t.dmem.readByte a = s.dmem.readByte a :=
  h.framed.mem a (Nat.lt_or_ge a s.dstOff.toNat)

end Sys2Proof.Machine

namespace Sys2Proof.Proofs

open Sys2Proof.Machine

/-- Settles O56: a command's result is a success, which commits code 0, or an error of its row, which commits none of
its writes. -/
theorem errorsWriteNothing : Obligations.ErrorsWriteNothing := by
  unfold Obligations.ErrorsWriteNothing
  intro i s
  cases hr : commandResult i s with
  | ok p => exact ⟨_, exec_of_ok hr, rfl, rfl, .inl rfl⟩
  | error e =>
    obtain ⟨t, ht, hfails⟩ := raises_of_error hr
    obtain ⟨hidle, hdone⟩ := idle_done_of_exec ht
    exact ⟨t, ht, hidle, hdone, .inr ⟨e, reportable_of_error hr, hfails, hfails.readByte⟩⟩

end Sys2Proof.Proofs
end

section
/-! The system commands (spec/47_system.md R280, R281): `NOP` writes nothing, and `ZEROIZE` leaves what a reset leaves
but for `CTRL`, `CMD` and `STATUS.DONE`. -/

namespace Sys2Proof.Machine

/-- The port's last answer is the model's own record and no part of the reset values (log 4). -/
theorem State.AtReset.withResponse {s : State} (h : s.AtReset) (answer : Option PortResponse) :
    { s with response := answer }.AtReset :=
  { h with }

/-- `ZEROIZE` completed, with `CTRL`, `CMD` and `DONE` put back, is the reset with the same parameters and the same
outside world (spec/47_system.md R281). -/
theorem State.zeroized_complete_eq_resetWith (s : State) :
    { s.zeroized.complete noFlags with
      ctrl := State.reset.ctrl
      cmd := 0
      status := { (s.zeroized.complete noFlags).status with done := false } } =
    { State.resetWith s.params s.schedule with response := s.response } := rfl

end Sys2Proof.Machine

namespace Sys2Proof.Proofs

open Sys2Proof.Machine

/-- Settles O21: the result of `NOP` is the state as it was, and the completion adds `STATUS` and `RESULT` alone. -/
theorem nopEffect : Obligations.NopEffect := by
  unfold Obligations.NopEffect
  exact ⟨rfl, fun s => ⟨s.complete noFlags, exec_of_ok rfl, succeeded_complete s noFlags,
    (Framed.refl {} s).complete noFlags⟩⟩

/-- Settles O22: the state left is a reset state, and a generator that is not live ends `NONCE_NEXT` with
`Sequence`. -/
theorem zeroizeEffect : Obligations.ZeroizeEffect := by
  unfold Obligations.ZeroizeEffect
  refine ⟨rfl, fun s => ?_⟩
  have hexec : exec .zeroize s = .next (s.zeroized.complete noFlags) := exec_of_ok rfl
  have hok := succeeded_complete s.zeroized noFlags
  have hlive : (s.zeroized.complete noFlags).drbgValid = false := rfl
  have hread : (s.zeroized.complete noFlags).statusWord = 0x00000002 := by
    rw [hok.statusWord, hlive]
    rfl
  have hreset := (State.atReset_resetWith s.params s.schedule).withResponse s.response
  have hkeeps := commandKeeps_of_exec hexec
  exact ⟨_, hexec, hok, hread, s.zeroized_complete_eq_resetWith ▸ hreset, hkeeps.ctrl,
    hkeeps.cmd, hkeeps.params, hkeeps.schedule, hkeeps.response, raises_of_error (nonceNextCommand_of_not_live hlive)⟩

end Sys2Proof.Proofs
end

section
/-! The engine's turn (spec/10_state.md R47; log 3): it ends any command, legal or not (spec/60_exceptions.md R291), so
that the block is idle once the schedule is used up (spec/70_reset_and_hazards.md R345). -/

namespace Sys2Proof.Machine

/-- The next turn is the engine's when nothing is scheduled or its turn heads the schedule, which that turn uses
up. -/
theorem step_of_engine_turn {s : State} (h : s.schedule.headD .engine = .engine) :
    step s = engineStep { s with schedule := s.schedule.tail } := by
  cases hs : s.schedule with
  | nil =>
    have hsame : { s with schedule := [] } = s := by rw [← hs]
    rw [List.tail_nil, hsame]
    exact step_of_nothing_scheduled hs
  | cons e rest =>
    rw [hs] at h
    obtain rfl : e = .engine := h
    exact step_of_event hs

/-- A word that is no command has a reason to be refused. -/
theorem decode_error_of_ne_ok {w : Word} (h : ∀ i, decode w ≠ .ok i) : ∃ e, decode w = .error e := by
  cases hd : decode w with
  | ok i => exact absurd hd (h i)
  | error e => exact ⟨e, rfl⟩

/-- And a word refused is no command. -/
theorem decode_ne_ok_of_error {w : Word} {e : IllegalWord} (h : decode w = .error e) (i : Instr) :
    decode w ≠ .ok i := by
  rw [h]
  exact nofun

/-- A word refused ends with `IllegalCommand` (spec/60_exceptions.md R291). -/
theorem State.failed_illegal (s : State) : Failed s.illegal .illegalCommand :=
  failed_errorCommit s false .illegalCommand

/-- It changes `STATUS` and `RESULT` alone; `DST_LEN` stays whatever the opcode byte. -/
theorem State.framed_illegal (s : State) : Framed {} s s.illegal :=
  framed_errorCommit {} s false .illegalCommand nofun

theorem State.statusWord_illegal (s : State) : s.illegal.statusWord = 0x00001006 ||| bitAt s.drbgValid 3 := by
  have hread : s.illegal.statusWord = 0x00000006 ||| bitAt s.drbgValid 3 ||| 0x00001000 := s.failed_illegal.statusWord
  rw [hread, BitVec.or_assoc, BitVec.or_comm (bitAt _ 3), ← BitVec.or_assoc]
  rfl

/-- A busy block is idle and done after the engine's turn, whatever word is in `CMD` (spec/10_state.md R47). -/
theorem engineStep_completes {s t : State} (hb : s.status.busy = true) (h : engineStep s = .next t) :
    t.status.busy = false ∧ t.status.done = true := by
  cases hd : decode s.cmd with
  | ok i => exact idle_done_of_exec ((engineStep_command hb hd).symm.trans h)
  | error e =>
    obtain rfl : s.illegal = t := Host.Outcome.next.inj ((engineStep_illegal hb hd).symm.trans h)
    exact ⟨rfl, rfl⟩

/-- Every block, busy or not, is idle after the engine's turn. -/
theorem idle_of_engineStep {s t : State} (h : engineStep s = .next t) : t.status.busy = false := by
  cases hb : s.status.busy with
  | true => exact (engineStep_completes hb h).1
  | false =>
    obtain rfl : s = t := Host.Outcome.next.inj ((engineStep_idle hb).symm.trans h)
    exact hb

/-- A run goes on from the next state of its first step. -/
theorem run_succ_of_step {M : Host.Core} {s t : M.State} (h : M.step s = .next t) (n : Nat) :
    M.run (n + 1) s = M.run n t := by
  rw [Host.Core.run, h]

/-- A step for each scheduled event uses the schedule up, and the turn after them is the engine's. -/
theorem run_schedule_idle (events : List Event) (s : State) (hs : s.schedule = events) :
    ∃ t : State, Host.Core.run Sys2Proof.core (events.length + 1) s = .next t ∧ t.status.busy = false ∧
      t.schedule = [] := by
  induction events generalizing s with
  | nil =>
    obtain ⟨t, ht, -, hschedule⟩ := engineStep_next s
    exact ⟨t, run_succ_of_step (M := Sys2Proof.core) ((step_of_nothing_scheduled hs).trans ht) 0,
      idle_of_engineStep ht, hschedule.trans hs⟩
  | cons e rest ih =>
    obtain ⟨u, hu, -, hschedule⟩ := stepEvent_next e { s with schedule := rest }
    obtain ⟨t, ht, hend⟩ := ih u hschedule
    exact ⟨t, (run_succ_of_step (M := Sys2Proof.core) ((step_of_event hs).trans hu) _).trans ht, hend⟩

end Sys2Proof.Machine

namespace Sys2Proof.Proofs

open Sys2Proof.Machine

/-- Settles O6: the engine's turn commits `IllegalCommand`, whose footprint is empty; the rule's three words are among
the words that `exampleWordsDecode` runs. -/
theorem illegalWordCompletes : Obligations.IllegalWordCompletes := by
  unfold Obligations.IllegalWordCompletes
  constructor
  · intro s hb hd hturn
    obtain ⟨e, he⟩ := decode_error_of_ne_ok hd
    have hstep := (step_of_engine_turn hturn).trans
      (engineStep_illegal (s := { s with schedule := s.schedule.tail }) hb he)
    exact ⟨_, hstep, State.failed_illegal _, State.framed_illegal _, State.statusWord_illegal _,
      State.resultWord_of_noFlags (State.failed_illegal _).result⟩
  · obtain ⟨-, -, -, -, -, -, -, -, -, -, h70, h120, h200010⟩ := exampleWordsDecode
    rintro w (rfl | rfl | rfl)
    · exact decode_ne_ok_of_error h70
    · exact decode_ne_ok_of_error h120
    · exact decode_ne_ok_of_error h200010

/-- Settles O8: the engine's turn completes a busy block, and a run reaches that turn by induction on the schedule. -/
theorem busyBlockCompletes : Obligations.BusyBlockCompletes := by
  unfold Obligations.BusyBlockCompletes
  constructor
  · intro s hb hturn
    obtain ⟨t, ht, -, -⟩ := engineStep_next { s with schedule := s.schedule.tail }
    exact ⟨t, (step_of_engine_turn hturn).trans ht,
      engineStep_completes (s := { s with schedule := s.schedule.tail }) hb ht⟩
  · exact fun s => run_schedule_idle s.schedule s rfl

end Sys2Proof.Proofs
end
